-- ==== Sys2Proof/Word.lean ====
section
/-!
DEFINITION. The word types: bytes, the 64-bit register word, and the IEEE 754 binary64 value as 64 bits with its
fields (00_scope.md R8, R10).
-/

namespace Sys2Proof

/-- A byte of DMEM (20_memory.md R80). -/
abbrev Byte := BitVec 8

/-- A 64-bit register of the register block (10_state.md R31). -/
abbrev Word := BitVec 64

/-- A binary64 value is its 64 bits: `F64.mk` is the spec's `f64bits` and `F64.bits` its `bits64`; neither
converts (20_memory.md R81). -/
structure F64 where
  bits : Word
deriving DecidableEq, Repr, Inhabited

/-- The sign bit, bit 63. -/
def F64.sign (x : F64) : Bool := decide (2 ^ 63 ≤ x.bits.toNat)

/-- The biased exponent, bits 62:52. -/
def F64.expField (x : F64) : Nat := x.bits.toNat / 2 ^ 52 % 2 ^ 11

/-- The fraction, bits 51:0. -/
def F64.frac (x : F64) : Nat := x.bits.toNat % 2 ^ 52

def F64.isNaN (x : F64) : Bool := x.expField == 2047 && x.frac != 0

def F64.isInf (x : F64) : Bool := x.expField == 2047 && x.frac == 0

def F64.isFinite (x : F64) : Bool := x.expField != 2047

/-- +0.0 or −0.0. -/
def F64.isZero (x : F64) : Bool := x.expField == 0 && x.frac == 0

/-- The significand as an integer: the hidden bit is 1 except for zeros and subnormals. -/
def F64.significand (x : F64) : Nat := if x.expField = 0 then x.frac else 2 ^ 52 + x.frac

/-- The magnitude of a finite value in units of 2^−1074, the least positive subnormal; every finite binary64
magnitude is a whole number of these units. An infinity's fields give 2^2098, above every finite magnitude. -/
def F64.magUnits (x : F64) : Nat := x.significand * 2 ^ (x.expField - 1)

/-- The value of a finite binary64, exactly, in units of 2^−1074. -/
def F64.units (x : F64) : Int := if x.sign then -(x.magUnits : Int) else (x.magUnits : Int)

/-- The value of a finite binary64 as a rational number. -/
def F64.toRat (x : F64) : ℚ := x.units / 2 ^ 1074

end Sys2Proof
end

