-- ==== Sys2Proof/Config.lean ====
section
/-!
DEFINITION. What is fixed for one core: the parameters of 00_scope.md R6 (as a record, so that a claim about every state
is a claim about all their values), the named constants of R15, and the free values the spec leaves open, as
constants without a body.
-/

namespace Sys2Proof

/-- The parameter FWD_SIGN: the sign of the forward twiddle exponent (40_transform.md R141, R146). -/
inductive FwdSign where
  | plus
  | minus
deriving DecidableEq, Repr

/-- The parameter QROUND: the rounding of the final quantization (00_scope.md R13). -/
inductive QRound where
  | trunc
  | nearestEven
deriving DecidableEq, Repr

/-- The parameters of 00_scope.md R6 but for its three functions (R14): the OPEN ones, and the DOC's numeric literals, each
"also a parameter" (R6, 93_implementation_defined.md I2). DESIGN CHOICE (log 3): they are carried in State as `config`,
unchanged by every step, so that statements cover all their values. -/
structure Config where
  /-- `LOG2N_MAX`, the largest log2 of a transform length. -/
  log2nMax : Nat
  /-- `DMEM_SIZE`, the bytes of data memory. -/
  dmemSize : Nat
  /-- `HAS_NLMS`, whether the NLMS command is present. -/
  hasNlms : Bool
  fwdSign : FwdSign
  qround : QRound
  /-- `SING_EPS`, the near-zero denominator threshold of the regression. -/
  singEps : F64
  /-- `MAG_FLOOR`, the spectral magnitude floor of the deconvolution guard. -/
  magFloor : F64
  /-- `DB_FLOOR`, the dB value for exactly zero energy. -/
  dbFloor : F64
  /-- `PEAK_FRAC`, the output peak as a fraction of full scale. -/
  peakFrac : F64
  /-- `PCM_IN_SCALE`, the divisor converting an int16 to a normalized double. -/
  pcmInScale : F64
  /-- `FULL_SCALE`, the output full-scale magnitude for quantization. -/
  fullScale : F64
  /-- `NLMS_EPS`, the input-power threshold of the NLMS update. -/
  nlmsEps : F64
deriving DecidableEq, Repr

/-- The bounds 00_scope.md R6 puts on the OPEN parameters. -/
def Config.legal (c : Config) : Bool :=
  decide (c.log2nMax ≤ 26) && decide (c.dmemSize % 1024 = 0) && decide (c.dmemSize ≤ 2 ^ 42)

/-- The values this hardware takes (00_scope.md R6). -/
def Config.thisHardware : Config where
  log2nMax := 20
  dmemSize := 67108864
  hasNlms := true
  fwdSign := .plus
  qround := .trunc
  singEps := ⟨0x3DDB7CDFD9D7BDBB#64⟩
  magFloor := ⟨0x3DDB7CDFD9D7BDBB#64⟩
  dbFloor := ⟨0xC059000000000000#64⟩
  peakFrac := ⟨0x3FECCCCCCCCCCCCD#64⟩
  pcmInScale := ⟨0x40E0000000000000#64⟩
  fullScale := ⟨0x40DFFFC000000000#64⟩
  nlmsEps := ⟨0x3DDB7CDFD9D7BDBB#64⟩

/-- The literals have the DOC's values, as on this hardware: the named value for claims that need one (00_scope.md R6). -/
def Config.docLiterals (c : Config) : Bool :=
  decide (c.magFloor = Config.thisHardware.magFloor) && decide (c.dbFloor = Config.thisHardware.dbFloor) &&
    decide (c.peakFrac = Config.thisHardware.peakFrac) && decide (c.pcmInScale = Config.thisHardware.pcmInScale) &&
    decide (c.fullScale = Config.thisHardware.fullScale) && decide (c.nlmsEps = Config.thisHardware.nlmsEps)

/-! ### Named constants (00_scope.md R11, R15) -/

/-- +0.0 -/
def Config.zero : F64 := ⟨0x0000000000000000#64⟩
/-- 1.0 -/
def Config.one : F64 := ⟨0x3FF0000000000000#64⟩
/-- −infinity, the dB value of an underflowed nonzero energy ratio (44_decay.md R260). -/
def Config.negInf : F64 := ⟨0xFFF0000000000000#64⟩
/-- `MINUS_ONE`, the sentinel of 44_decay.md R269. -/
def Config.minusOne : F64 := ⟨0xBFF0000000000000#64⟩
/-- `TWO_PI`; PRESUMED by the spec itself (I1, from general knowledge). -/
def Config.twoPi : F64 := ⟨0x401921FB54442D18#64⟩
/-- −`TWO_PI` (41_tsp.md R170). -/
def Config.negTwoPi : F64 := ⟨0xC01921FB54442D18#64⟩
/-- `TEN` = 10.0 -/
def Config.ten : F64 := ⟨0x4024000000000000#64⟩
/-- `SIXTY` = 60.0 -/
def Config.sixty : F64 := ⟨0x404E000000000000#64⟩

/-! ### Free values -/

/-- The five rounded operations of 00_scope.md R10, to tell their NaN results apart. -/
inductive FpOp where
  | add
  | sub
  | mul
  | div
  | sqrt
deriving DecidableEq, Repr

/-- FREE VALUE (log 1): the sign and, reduced to a nonzero fraction, the payload of the NaN an operation returns
(93_implementation_defined.md I4: any NaN). -/
opaque Config.nanDraw : FpOp → F64 → F64 → Bool × Nat

/-- FREE VALUE (log 2): what a DMEM byte that nothing has written since power-on holds (70_reset_and_hazards.md R340,
I5: each byte a draw). -/
opaque Config.powerOnByte : Nat → Byte

/-- FREE VALUE (log 8): what the byte at an address of an abandoned command's written buffers holds after the n-th
reset (70_reset_and_hazards.md R341, I6: a draw per byte). -/
opaque Config.abandonedByte : Nat → Nat → Byte

/-- FREE VALUE (log 16): what the quantization of an infinity or a NaN gives, before the clamp. 00_scope.md R13 defines
it for finite values only, and the core applies it to no other while the literals have the DOC's values. -/
opaque Config.quantizedNonFinite : QRound → F64 → Int

/-- z is within 1 ulp of the exact result y (00_scope.md R14, P2): 2^e is at most one unit in the last place of y.
DEDUCED (log 4): the ulp is that of the exact result. -/
def Config.WithinOneUlp (y : ℝ) (z : F64) : Prop :=
  z.isFinite = true ∧ ∃ e : ℤ, -1074 ≤ e ∧ (e = -1074 ∨ (2 : ℝ) ^ (e + 52) ≤ |y|) ∧ |(z.toRat : ℝ) - y| ≤ (2 : ℝ) ^ e

/-- Three functions with the properties 00_scope.md R14 names, and no others: P1, the values at zero and one; P2, within
1 ulp of the exact result for finite arguments (positive ones for LOG10); P3, at most 1 in magnitude. -/
structure Elementary where
  cos : F64 → F64
  sin : F64 → F64
  log10 : F64 → F64
  cos_zero : ∀ x : F64, x.isZero = true → cos x = Config.one
  sin_zero : ∀ x : F64, x.isZero = true → sin x = x
  log10_one : log10 Config.one = Config.zero
  cos_close : ∀ x : F64, x.isFinite = true → Config.WithinOneUlp (Real.cos x.toRat) (cos x)
  sin_close : ∀ x : F64, x.isFinite = true → Config.WithinOneUlp (Real.sin x.toRat) (sin x)
  log10_close : ∀ x : F64, x.isFinite = true → 0 < x.toRat → Config.WithinOneUlp (Real.logb 10 x.toRat) (log10 x)
  cos_unit : ∀ x : F64, x.isFinite = true → |(cos x).toRat| ≤ 1
  sin_unit : ∀ x : F64, x.isFinite = true → |(sin x).toRat| ≤ 1

/-- FREE VALUE (log 4): the configuration functions `COS`, `SIN` and `LOG10` (00_scope.md R14), any functions with the
properties of `Elementary`. It has no body; its argument says that such functions exist, which
Machine/Elementary.lean shows, and no proof can see which of them it is. -/
opaque Config.elementary [Inhabited Elementary] : Elementary

end Sys2Proof
end

