-- ==== Sys2Proof/Syntax.lean ====
section
/-!
DEFINITION. The commands of the core, one constructor per row of the opcode table (30_encoding.md R114). A command
word holds no operand but FMT: every operand stands in ARG0 to ARG7 (R110, R112).
-/

namespace Sys2Proof

/-- A buffer format, the legal values of the FMT field (10_state.md R43, 30_encoding.md R111). -/
inductive Fmt where
  | real64   -- 0: one binary64
  | pcm16    -- 1: one signed 16-bit sample
  | cplx128  -- 2: a pair of binary64 (re, im); read as a real, its re part
deriving DecidableEq, Repr

/-- A command (30_encoding.md R114). -/
inductive Instr where
  | nop                   -- 0x00 NOP
  | fft                   -- 0x01 FFT
  | ifft                  -- 0x02 IFFT
  | tspUp                 -- 0x03 TSP_UP
  | tspDown               -- 0x04 TSP_DOWN
  | tspgen                -- 0x05 TSPGEN
  | load16                -- 0x06 LOAD16
  | deconvMul             -- 0x07 DECONV_MUL
  | normq (fmt : Fmt)     -- 0x08 NORMQ
  | deconv                -- 0x09 DECONV
  | nlms (fmt : Fmt)      -- 0x0A NLMS
  | schroeder (fmt : Fmt) -- 0x0B SCHROEDER
  | decayFit              -- 0x0C DECAY_FIT
deriving DecidableEq, Repr

end Sys2Proof
end

