-- ==== Sys2Proof/Machine/State.lean ====
section
/-!
DEFINITION. The state of the core (10_state.md R30: the register block, DMEM, the engine phase), the host's remaining
accesses, the reasons a step can stop, and the state after power-on reset (70_reset_and_hazards.md R340).
-/

namespace Sys2Proof.Machine

/-- The engine phase, visible as STATUS.BUSY (10_state.md R44). -/
inductive Phase where
  | idle
  | busy
deriving DecidableEq, Repr

/-- The error codes of STATUS.ERRCODE (60_exceptions.md R301). Codes 0x0B to 0xFF are reserved and never produced. -/
inductive ErrCode where
  | ok                -- 0x00
  | illegalCmd        -- 0x01
  | badArg            -- 0x02
  | empty             -- 0x03
  | rateMismatch      -- 0x04
  | tooLong           -- 0x05
  | align             -- 0x06
  | range             -- 0x07
  | overlap           -- 0x08
  | nonfinite         -- 0x09
  | decayNotDetected  -- 0x0A
deriving DecidableEq, Repr

/-- ARG0 to ARG7 (10_state.md R38). -/
structure Args where
  a0 : Word
  a1 : Word
  a2 : Word
  a3 : Word
  a4 : Word
  a5 : Word
  a6 : Word
  a7 : Word
deriving DecidableEq, Repr

/-- RES0 to RES3 (10_state.md R39). -/
structure Results where
  r0 : Word
  r1 : Word
  r2 : Word
  r3 : Word
deriving DecidableEq, Repr

/-- The bytes of DMEM written since power-on, as (address, byte) pairs with addresses strictly rising. An unlisted
address has no entry, whatever byte it reads as (`Memory.read`, log 2). -/
abbrev Memory := List Host.Cell

/-- A command whose results the host may not read yet (duty H6, 70_reset_and_hazards.md R345): the word in CMD and the
operands in ARG0 to ARG7 at its START, whether RES0 to RES3 are its too, and the blocks of DMEM, as an address and a
number of bytes, that hold its results no more, the host having written over them or a reset having drawn them since. -/
structure Unread where
  cmd : BitVec 32
  args : Args
  res : Bool
  rewritten : List (Nat × Nat)
deriving DecidableEq, Repr

/-- One access of the host, or the platform's reset. Widths and addresses are whatever the host issues: the port
refuses the ones that break the host's duties H1 and H2 (70_reset_and_hazards.md R345). -/
inductive HostAction where
  /-- A register-block read of `width` bytes at byte offset `off` (10_state.md R32). -/
  | readReg (off width : Nat)
  /-- A register-block write. -/
  | writeReg (off width : Nat) (v : Word)
  /-- A DMEM read through the host port (20_memory.md R86). -/
  | readMem (addr width : Nat)
  /-- A DMEM write through the host port. -/
  | writeMem (addr width : Nat) (v : Word)
  /-- The pseudo-instruction WAIT: read STATUS until DONE = 1, one read a turn (30_encoding.md R119). -/
  | waitDone
  /-- The pseudo-instruction CHECK: read STATUS; the program fails if ERR = 1 (30_encoding.md R119, log 15). -/
  | check
  /-- The platform asserts reset with power held (70_reset_and_hazards.md R340, R341). -/
  | reset
deriving DecidableEq, Repr

/-- The machine: the spec's state (10_state.md R30), then seven fields of the model's own. -/
structure State where
  /-- The configuration the ID register identifies (10_state.md R33), with SING_EPS (00_scope.md R6). -/
  config : Config
  /-- CTRL.IE (10_state.md R34). -/
  ie : Bool
  /-- STATUS.BUSY, the engine phase (10_state.md R35, R44). -/
  phase : Phase
  /-- STATUS.DONE (10_state.md R35). -/
  done : Bool
  /-- STATUS.ERR (10_state.md R35). -/
  err : Bool
  /-- STATUS.ERRCODE (10_state.md R35, 60_exceptions.md R301). -/
  errCode : ErrCode
  /-- STATUS.LASTOP (10_state.md R35). -/
  lastOp : BitVec 8
  /-- CMD[31:0] (10_state.md R37). -/
  cmd : BitVec 32
  /-- ARG0 to ARG7 (10_state.md R38). -/
  args : Args
  /-- RES0 to RES3 (10_state.md R39). -/
  res : Results
  /-- DMEM (10_state.md R42). -/
  dmem : Memory
  /-- MODEL'S OWN (log 5): the data the last host read returned. -/
  readData : Word
  /-- MODEL'S OWN (log 5): the host's accesses still to come, in its order. -/
  host : List HostAction
  /-- MODEL'S OWN (log 6): how many more host turns the running command lasts; the spec leaves every duration open
  (70_reset_and_hazards.md R348). -/
  delay : Nat
  /-- MODEL'S OWN (log 6): the durations of the commands not yet started. -/
  delays : List Nat
  /-- MODEL'S OWN (log 8): how many resets have drawn fresh bytes (70_reset_and_hazards.md R341). -/
  draws : Nat
  /-- MODEL'S OWN (log 7): the commands started since the host last read STATUS with DONE = 1, the newest first; their
  results are not the host's to read before it does (duty H6, 70_reset_and_hazards.md R345). -/
  unread : List Unread
  /-- MODEL'S OWN (log 15): a CHECK of the host's program has found STATUS.ERR = 1, so the program has failed
  (30_encoding.md R119). -/
  checkFailed : Bool
deriving DecidableEq, Repr

/-- Why a run stops with a fault: there is no reason, so no constructor. No rule of the spec stops the machine: every
command completes (60_exceptions.md R300), and a failed CHECK is recorded in `checkFailed` (log 15). -/
inductive Fault where
deriving DecidableEq, Repr

/-- Why a step is refused. The refusals are the host duties of 70_reset_and_hazards.md R345, which tells a model to
give the forbidden access no move; no command is refused. -/
inductive Refusal where
  /-- An instruction without a meaning; no arm of `exec` raises it. Safe. -/
  | notModelled (mnemonic : String)
  /-- Duty H1: a register-block access not 8 bytes wide, not 8-byte aligned or outside the 256-byte block (10_state.md
  R32). Raised by the host's turn; safe. -/
  | registerAccess
  /-- Duty H2: a host-port DMEM access of another width, misaligned or not below DMEM_SIZE (20_memory.md R86). Raised by
  the host's turn; safe. -/
  | portAccess
  /-- Duty H3: a host DMEM access while BUSY (20_memory.md R96). Raised by the host's turn; safe. -/
  | portWhileBusy
  /-- Duty H6: a host read of a RES register, or of a DMEM byte a command writes, after the command has completed and
  before the host has read STATUS with DONE = 1 (20_memory.md R90). Raised by the host's turn; safe. -/
  | resultBeforeDone
deriving DecidableEq, Repr

/-- All eight argument registers 0. -/
def Args.zero : Args := ⟨0#64, 0#64, 0#64, 0#64, 0#64, 0#64, 0#64, 0#64⟩

/-- All four result registers 0. -/
def Results.zero : Results := ⟨0#64, 0#64, 0#64, 0#64⟩

/-- The machine right after power-on reset (70_reset_and_hazards.md R340). `readData`, `host`, `delay`, `delays`,
`draws`, `unread` and `checkFailed` are DESIGN CHOICE (log 5, 6, 7, 8, 15): the spec has no such state. -/
def State.reset : State where
  config := Config.thisHardware
  ie := false
  phase := .idle
  done := false
  err := false
  errCode := .ok
  lastOp := 0#8
  cmd := 0#32
  args := Args.zero
  res := Results.zero
  dmem := []
  readData := 0#64
  host := []
  delay := 0
  delays := []
  draws := 0
  unread := []
  checkFailed := false

end Sys2Proof.Machine
end

