-- ==== Sys2Proof/Machine/Ops.lean ====
section
/-!
DEFINITION. The shared operations: DMEM bytes and blocks (20_memory.md R80), the completion of a command (60_exceptions.md
R300, R306: the core's only "exception entry"), the frame every command runs in, and START acceptance (10_state.md R47).
-/

namespace Sys2Proof.Machine

/-! ### DMEM -/

/-- The list is in canonical form from address lo on: addresses strictly rising. -/
def Memory.risingFrom (lo : Nat) : Memory → Bool
  | [] => true
  | (a, _) :: m => decide (lo ≤ a) && Memory.risingFrom (a + 1) m

/-- The canonical form of DMEM: addresses strictly rising. An unlisted address has no entry at all, so no entry can
equal one (log 2). -/
def Memory.wf (m : Memory) : Bool := Memory.risingFrom 0 m

/-- Every listed address is below `size` (10_state.md R42). -/
def Memory.below (size : Nat) (m : Memory) : Bool := m.all fun c => decide (c.1 < size)

/-- The byte last written at address a, if any was. -/
def Memory.get? : Memory → Nat → Option Byte
  | [], _ => none
  | (b, v) :: m, a => if b = a then some v else Memory.get? m a

/-- The byte at address a: the last one written there (20_memory.md R87), or the free value of power-on. -/
def Memory.read (m : Memory) (a : Nat) : Byte := (Memory.get? m a).getD (Config.powerOnByte a)

/-- Consecutive bytes as cells from address a. -/
def Memory.cells (a : Nat) : List Byte → Memory
  | [] => []
  | v :: vs => (a, v) :: Memory.cells (a + 1) vs

/-- Writes consecutive bytes from address a. -/
def Memory.writeBytes (m : Memory) (a : Nat) (vs : List Byte) : Memory :=
  m.filter (fun c => decide (c.1 < a)) ++ Memory.cells a vs ++ m.filter (fun c => decide (a + vs.length ≤ c.1))

/-- The low n bytes of v, least significant first (20_memory.md R80). -/
def leBytes : Nat → Nat → List Byte
  | 0, _ => []
  | n + 1, v => BitVec.ofNat 8 v :: leBytes n (v / 256)

/-- The unsigned integer of little-endian bytes (20_memory.md R80). -/
def ofLeBytes : List Byte → Nat
  | [] => 0
  | b :: bs => b.toNat + 256 * ofLeBytes bs

/-- `MemRead(a, n)` (20_memory.md R80). -/
def Memory.memRead (m : Memory) (a n : Nat) : Nat := ofLeBytes ((List.range n).map fun j => Memory.read m (a + j))

/-- `MemWrite(a, n, v)` (20_memory.md R80). -/
def Memory.memWrite (m : Memory) (a n v : Nat) : Memory := Memory.writeBytes m a (leBytes n v)

/-! ### Loops -/

/-- `for i in 0..n-1`, in that order (00_scope.md R9). -/
def forUp {α : Type} : Nat → (Nat → α → α) → α → α
  | 0, _, a => a
  | n + 1, body, a => body n (forUp n body a)

/-- The first index, counting from i, whose value satisfies p: `for i in …: if p: break`. -/
def firstIndex {α : Type} (p : α → Bool) : Nat → List α → Option Nat
  | _, [] => none
  | i, v :: vs => if p v then some i else firstIndex p (i + 1) vs

/-! ### Completion -/

/-- The value of STATUS.ERRCODE (60_exceptions.md R301). -/
def ErrCode.code (c : ErrCode) : BitVec 8 :=
  match c with
  | .ok => 0x00#8
  | .illegalCmd => 0x01#8
  | .badArg => 0x02#8
  | .empty => 0x03#8
  | .rateMismatch => 0x04#8
  | .tooLong => 0x05#8
  | .align => 0x06#8
  | .range => 0x07#8
  | .overlap => 0x08#8
  | .nonfinite => 0x09#8
  | .decayNotDetected => 0x0A#8

/-- What a command leaves: its code, the RES registers and DMEM. -/
structure Finish where
  code : ErrCode
  res : Results
  dmem : Memory
deriving DecidableEq, Repr

/-- A success that names no RES register. -/
def State.succeed (s : State) (m : Memory) : Finish := ⟨.ok, s.res, m⟩

/-- `raise ERR(c)` before any write: RES and DMEM as they were (60_exceptions.md R304, R305). -/
def State.raise (s : State) (c : ErrCode) : Finish := ⟨c, s.res, s.dmem⟩

/-- Completion, in one indivisible step (60_exceptions.md R306): the code, ERR, DONE, BUSY and the phase, with the RES
values and DMEM the command left. LASTOP keeps the opcode latched at START. -/
def State.complete (s : State) (f : Finish) : State :=
  { s with
    errCode := f.code
    err := decide (f.code ≠ .ok)
    done := true
    phase := .idle
    res := f.res
    dmem := f.dmem }

/-- A command: its checks (60_exceptions.md R303), and the body only if none fails; then completion. -/
def State.runCommand (s : State) (check : Option ErrCode) (body : State → Finish) : Host.Outcome State Fault Refusal :=
  match check with
  | some c => .next (s.complete (s.raise c))
  | none => .next (s.complete (body s))

/-! ### START -/

/-- START acceptance (10_state.md R47), when the phase is IDLE; the command's duration is drawn (log 6), and its results
are unread from now on (log 7). -/
def State.acceptStart (s : State) : State :=
  { s with
    phase := .busy
    done := false
    err := false
    errCode := .ok
    lastOp := s.cmd.extractLsb' 0 8
    res := Results.zero
    delay := s.delays.headD 0
    delays := s.delays.tail
    unread := ⟨s.cmd, s.args, true, []⟩ :: s.unread }

end Sys2Proof.Machine
end

