-- ==== Sys2Proof/Machine/Control.lean ====
section
/-!
DEFINITION. The control command: NOP (45_control.md R290).
-/

namespace Sys2Proof.Machine

/-- The body of NOP: nothing (45_control.md R290). -/
def nopFinish (s : State) : Finish := s.succeed s.dmem

/-- NOP: no check past decode; completion follows (45_control.md R290). -/
def execNop (s : State) : Host.Outcome State Fault Refusal := s.runCommand none nopFinish

end Sys2Proof.Machine
end

