-- ==== Sys2Proof/Machine/Fp.lean ====
section
/-!
DEFINITION. IEEE 754 binary64 arithmetic, round to nearest, ties to even, each operation rounded once, subnormals
kept (00_scope.md R10); complex values (R11); conversions (R12, R13).

Every finite binary64 is a whole number of units of 2^−1074 (`F64.units`), so each operation computes its exact result
as an integer count of (parts of) units and rounds that once.
-/

namespace Sys2Proof.Fp

/-- The signed infinity. -/
def inf (neg : Bool) : F64 := ⟨BitVec.ofNat 64 ((if neg then 2 ^ 63 else 0) + 2047 * 2 ^ 52)⟩

/-- The signed zero. -/
def zeroOf (neg : Bool) : F64 := ⟨BitVec.ofNat 64 (if neg then 2 ^ 63 else 0)⟩

/-- The NaN an operation returns: a free value (log 1), any sign and any nonzero fraction. -/
def nan (op : FpOp) (x y : F64) : F64 :=
  let d := Config.nanDraw op x y
  ⟨BitVec.ofNat 64 ((if d.1 then 2 ^ 63 else 0) + 2047 * 2 ^ 52 + (1 + d.2 % (2 ^ 52 - 1)))⟩

/-- −x flips the sign bit exactly (00_scope.md R10). -/
def neg (x : F64) : F64 := ⟨x.bits ^^^ (1#64 <<< 63)⟩

/-- |x| clears the sign bit (00_scope.md R10). -/
def abs (x : F64) : F64 := ⟨BitVec.ofNat 64 (x.bits.toNat % 2 ^ 63)⟩

/-! ### Rounding -/

/-- m / 2^d rounded to the nearest integer, ties to even. -/
def rneShift (m d : Nat) : Nat :=
  let q := m / 2 ^ d
  let r := m % 2 ^ d
  if 2 ^ d < 2 * r ∨ (2 * r = 2 ^ d ∧ q % 2 = 1) then q + 1 else q

/-- How many units the spacing of binary64 values is, as a power of two, at the magnitude m / 2^k units: 2^0 for
subnormals and the least normals, else what keeps 53 significant bits. -/
def spacingLog (m k : Nat) : Nat := Nat.log2 m - (k + 52)

/-- The binary64 nearest to the magnitude m / 2^k units, ties to even, with the given sign; beyond the largest finite
value it is infinity. The rounded significand, added to its spacing's exponent place, carries into the exponent. -/
def round (neg : Bool) (m k : Nat) : F64 :=
  let p := spacingLog m k
  let b := p * 2 ^ 52 + rneShift m (k + p)
  if 2047 * 2 ^ 52 ≤ b then inf neg
  else ⟨BitVec.ofNat 64 ((if neg then 2 ^ 63 else 0) + b)⟩

/-! ### Comparisons: false with a NaN, and −0.0 equals +0.0 (00_scope.md R10) -/

/-- x < y -/
def lt (x y : F64) : Bool := !x.isNaN && !y.isNaN && decide (x.units < y.units)

/-- x ≤ y -/
def le (x y : F64) : Bool := !x.isNaN && !y.isNaN && decide (x.units ≤ y.units)

/-- x == y -/
def eq (x y : F64) : Bool := !x.isNaN && !y.isNaN && decide (x.units = y.units)

/-! ### The rounded operations -/

/-- The sum of two values neither of which is a NaN, with `op` the operation a NaN result belongs to. -/
def sum (op : FpOp) (x y : F64) : F64 :=
  if x.isInf && y.isInf then (if x.sign == y.sign then x else nan op x y)
  else if x.isInf then x
  else if y.isInf then y
  else
    let s := x.units + y.units
    if s = 0 then zeroOf (x.sign && y.sign) else round (decide (s < 0)) s.natAbs 0

/-- x + y -/
def add (x y : F64) : F64 := if x.isNaN || y.isNaN then nan .add x y else sum .add x y

/-- x − y -/
def sub (x y : F64) : F64 := if x.isNaN || y.isNaN then nan .sub x y else sum .sub x (neg y)

/-- x × y: the product of two unit counts is a count of 2^−1074 units of 2^−1074. -/
def mul (x y : F64) : F64 :=
  let s := x.sign != y.sign
  if x.isNaN || y.isNaN then nan .mul x y
  else if x.isInf || y.isInf then (if x.isZero || y.isZero then nan .mul x y else inf s)
  else round s (x.magUnits * y.magUnits) 1074

/-- x / y: the quotient to half a unit, then one more bit that is 1 when the division leaves a remainder. -/
def div (x y : F64) : F64 :=
  let s := x.sign != y.sign
  if x.isNaN || y.isNaN then nan .div x y
  else if x.isInf then (if y.isInf then nan .div x y else inf s)
  else if y.isInf then zeroOf s
  else if y.isZero then (if x.isZero then nan .div x y else inf s)
  else
    let n := x.magUnits * 2 ^ 1075
    round s (2 * (n / y.magUnits) + (if n % y.magUnits = 0 then 0 else 1)) 2

/-- The largest r + s, with s below 2^i, whose square is at most n (r already chosen above bit i). -/
def isqrtBits (n : Nat) : Nat → Nat → Nat
  | 0, r => r
  | i + 1, r => isqrtBits n i (if (r + 2 ^ i) ^ 2 ≤ n then r + 2 ^ i else r)

/-- The integer square root of n below 2^164. -/
def isqrt (n : Nat) : Nat := isqrtBits n 82 0

/-- The square root of a positive finite value. A magnitude of s × 2^e units has the root √(s × 2^(e + 1074)) units; with
e + 1074 = 2 t + r, that is √(s × 2^(r + 110)) × 2^(t − 55), whose integer part and exactness bit are rounded. -/
def sqrtPos (x : F64) : F64 :=
  let e := (x.expField - 1) + 1074
  let n := x.significand * 2 ^ (e % 2 + 110)
  let q := isqrt n
  round false ((2 * q + (if q ^ 2 = n then 0 else 1)) * 2 ^ (e / 2 - 55)) 1

/-- The square root (00_scope.md R10): of −0.0 it is −0.0, of another negative value a NaN. -/
def sqrt (x : F64) : F64 :=
  if x.isNaN then nan .sqrt x x
  else if x.isZero then x
  else if x.sign then nan .sqrt x x
  else if x.isInf then x
  else sqrtPos x

/-! ### Conversions (00_scope.md R12, R13) -/

/-- `f64(i)`, exact below 2^53 (00_scope.md R12). -/
def ofNat (n : Nat) : F64 := round false (n * 2 ^ 1074) 0

/-- `f64(i)` of a signed integer, exact for |i| below 2^53 (00_scope.md R12). -/
def ofInt (i : Int) : F64 := round (decide (i < 0)) (i.natAbs * 2 ^ 1074) 0

/-- The magnitude of a finite value as an integer: toward zero, or to nearest with ties to even (00_scope.md R13). -/
def integerPart (q : QRound) (x : F64) : Nat :=
  match q with
  | .trunc => x.magUnits / 2 ^ 1074
  | .nearestEven => rneShift x.magUnits 1074

/-- r clamped to [−32768, 32767] (00_scope.md R13). -/
def clamp16 (r : Int) : Int := if r < -32768 then -32768 else if 32767 < r then 32767 else r

/-- `q16`, the quantization of a finite value (00_scope.md R13); of an infinity or a NaN it is a free value of 16 bits
(log 16). -/
def q16 (q : QRound) (x : F64) : Int :=
  clamp16 (if !x.isFinite then Config.quantizedNonFinite q x
    else if x.sign then -(integerPart q x : Int) else (integerPart q x : Int))

/-! ### Complex values (00_scope.md R11) -/

/-- A pair of binary64 values. -/
structure Cplx where
  re : F64
  im : F64
deriving DecidableEq, Repr

/-- `ZERO` -/
def czero : Cplx := ⟨Config.zero, Config.zero⟩

/-- `ONE` -/
def cone : Cplx := ⟨Config.one, Config.zero⟩

def cadd (x y : Cplx) : Cplx := ⟨add x.re y.re, add x.im y.im⟩

def csub (x y : Cplx) : Cplx := ⟨sub x.re y.re, sub x.im y.im⟩

/-- No C99 Annex G recovery (00_scope.md R11). -/
def cmul (x y : Cplx) : Cplx := ⟨sub (mul x.re y.re) (mul x.im y.im), add (mul x.re y.im) (mul x.im y.re)⟩

def conj (x : Cplx) : Cplx := ⟨x.re, neg x.im⟩

def mag (x : Cplx) : F64 := sqrt (add (mul x.re x.re) (mul x.im x.im))

def cscale (x : Cplx) (n : F64) : Cplx := ⟨div x.re n, div x.im n⟩

end Sys2Proof.Fp
end

