-- ==== Sys2Proof/Laws/Fp.lean ====
section
/-!
SUPPORT. What the arithmetic can do, said once: the NaN of an operation is a NaN, whatever the free value draws; rounding
(00_scope.md R10).
-/

namespace Sys2Proof.Fp

/-- The free NaN is one: exponent field all ones, fraction not zero. -/
theorem nan_isNaN (op : FpOp) (x y : F64) : (nan op x y).isNaN = true := by
  have hf : (Config.nanDraw op x y).2 % (2 ^ 52 - 1) < 2 ^ 52 - 1 := Nat.mod_lt _ (by norm_num)
  simp only [nan, F64.isNaN, F64.expField, F64.frac, BitVec.toNat_ofNat]
  generalize (Config.nanDraw op x y).2 % (2 ^ 52 - 1) = f at hf
  cases (Config.nanDraw op x y).1 <;> simp <;> omega

/-- A sum with a NaN operand is a NaN. -/
theorem add_nan (x y : F64) (h : x.isNaN = true ∨ y.isNaN = true) : (add x y).isNaN = true := by
  rcases h with h | h <;> simp [add, h, nan_isNaN]

/-- `rneShift` is within half of the divisor, and even at exactly half. -/
theorem rneShift_spec (m d : Nat) :
    2 * m ≤ 2 * (rneShift m d * 2 ^ d) + 2 ^ d ∧ 2 * (rneShift m d * 2 ^ d) ≤ 2 * m + 2 ^ d ∧
      (2 * m = 2 * (rneShift m d * 2 ^ d) + 2 ^ d ∨ 2 * (rneShift m d * 2 ^ d) = 2 * m + 2 ^ d → rneShift m d % 2 = 0) := by
  have hp : 0 < 2 ^ d := Nat.two_pow_pos d
  have hd := Nat.div_add_mod m (2 ^ d)
  have hr := Nat.mod_lt m hp
  unfold rneShift
  dsimp only
  generalize m / 2 ^ d = q at *
  generalize m % 2 ^ d = r at *
  generalize 2 ^ d = t at *
  have e1 : (q + 1) * t = t * q + t := by ring
  have e2 : q * t = t * q := Nat.mul_comm q t
  split
  · rw [e1]
    generalize t * q = u at *
    refine ⟨by omega, by omega, fun h => ?_⟩
    omega
  · rw [e2]
    generalize t * q = u at *
    refine ⟨by omega, by omega, fun h => ?_⟩
    omega

/-- The rounded significand has at most 53 bits, and exactly 53 above the least spacing. -/
theorem rneShift_bounds (m k : Nat) :
    rneShift m (k + spacingLog m k) ≤ 2 ^ 53 ∧ (0 < spacingLog m k → 2 ^ 52 ≤ rneShift m (k + spacingLog m k)) := by
  have hle : ∀ d, rneShift m d ≤ m / 2 ^ d + 1 := by intro d; unfold rneShift; dsimp only; split <;> omega
  have hge : ∀ d, m / 2 ^ d ≤ rneShift m d := by intro d; unfold rneShift; dsimp only; split <;> omega
  have hup : m < 2 ^ (Nat.log2 m + 1) := Nat.lt_log2_self
  constructor
  · have : m / 2 ^ (k + spacingLog m k) < 2 ^ 53 := by
      rw [Nat.div_lt_iff_lt_mul (Nat.two_pow_pos _), ← pow_add]
      refine lt_of_lt_of_le hup (Nat.pow_le_pow_right (by norm_num) ?_)
      unfold spacingLog
      omega
    have := hle (k + spacingLog m k)
    omega
  · intro h
    have hm : m ≠ 0 := by
      rintro rfl
      simp [spacingLog] at h
    have hlo : 2 ^ Nat.log2 m ≤ m := Nat.log2_self_le hm
    refine le_trans ?_ (hge _)
    rw [Nat.le_div_iff_mul_le (Nat.two_pow_pos _), ← pow_add]
    refine le_trans (Nat.pow_le_pow_right (by norm_num) ?_) hlo
    unfold spacingLog at *
    omega

/-- The fields of a pattern below the infinity's. -/
theorem magUnits_ofFields (neg : Bool) (b : Nat) (hb : b < 2047 * 2 ^ 52) :
    (⟨BitVec.ofNat 64 ((if neg then 2 ^ 63 else 0) + b)⟩ : F64).sign = neg ∧
    (⟨BitVec.ofNat 64 ((if neg then 2 ^ 63 else 0) + b)⟩ : F64).isFinite = true ∧
    (⟨BitVec.ofNat 64 ((if neg then 2 ^ 63 else 0) + b)⟩ : F64).magUnits =
      (if b / 2 ^ 52 = 0 then b % 2 ^ 52 else 2 ^ 52 + b % 2 ^ 52) * 2 ^ (b / 2 ^ 52 - 1) := by
  have h1 : (BitVec.ofNat 64 ((if neg then 2 ^ 63 else 0) + b)).toNat = (if neg then 2 ^ 63 else 0) + b := by
    rw [BitVec.toNat_ofNat, Nat.mod_eq_of_lt]
    cases neg <;> simp <;> omega
  have h2 : ((if neg then 2 ^ 63 else 0) + b) / 2 ^ 52 % 2 ^ 11 = b / 2 ^ 52 := by
    cases neg <;> simp <;> omega
  have h3 : ((if neg then 2 ^ 63 else 0) + b) % 2 ^ 52 = b % 2 ^ 52 := by
    cases neg <;> simp
    omega
  refine ⟨?_, ?_, ?_⟩
  · simp only [F64.sign, h1]
    cases neg <;> simp
    omega
  · simp only [F64.isFinite, F64.expField, h1, h2]
    simp
    omega
  · simp only [F64.magUnits, F64.significand, F64.expField, F64.frac, h1, h2, h3]

/-- Everything `round` can do: a finite value with the given sign whose magnitude is the rounded significand times its
spacing, or the infinity of that sign. -/
theorem round_cases (neg : Bool) (m k : Nat) :
    ((round neg m k).isFinite = true ∧ (round neg m k).sign = neg ∧
      (round neg m k).magUnits = rneShift m (k + spacingLog m k) * 2 ^ spacingLog m k) ∨
    (round neg m k = inf neg ∧ 2047 * 2 ^ 52 ≤ spacingLog m k * 2 ^ 52 + rneShift m (k + spacingLog m k)) := by
  obtain ⟨hq, hq'⟩ := rneShift_bounds m k
  unfold round
  dsimp only
  generalize rneShift m (k + spacingLog m k) = q at *
  generalize spacingLog m k = p at *
  split
  next h => exact .inr ⟨rfl, h⟩
  next h =>
    left
    obtain ⟨hs, hf, hm⟩ := magUnits_ofFields neg (p * 2 ^ 52 + q) (by omega)
    refine ⟨hf, hs, hm.trans ?_⟩
    rcases Nat.lt_or_ge q (2 ^ 52) with h52 | h52
    · have hp0 : p = 0 := by
        by_contra hne
        have := hq' (Nat.pos_of_ne_zero hne)
        omega
      subst hp0
      have e1 : (0 * 2 ^ 52 + q) / 2 ^ 52 = 0 := by omega
      have e2 : (0 * 2 ^ 52 + q) % 2 ^ 52 = q := by omega
      rw [e1, e2]
      simp
    · rcases Nat.lt_or_ge q (2 ^ 53) with h53 | h53
      · have e1 : (p * 2 ^ 52 + q) / 2 ^ 52 = p + 1 := by omega
        have e2 : (p * 2 ^ 52 + q) % 2 ^ 52 = q - 2 ^ 52 := by omega
        rw [e1, e2, if_neg (by omega), Nat.add_sub_cancel, Nat.add_sub_cancel' h52]
      · have e0 : q = 2 ^ 53 := by omega
        subst e0
        have e1 : (p * 2 ^ 52 + 2 ^ 53) / 2 ^ 52 = p + 2 := by omega
        have e2 : (p * 2 ^ 52 + 2 ^ 53) % 2 ^ 52 = 0 := by omega
        rw [e1, e2, if_neg (by omega), show p + 2 - 1 = p + 1 from rfl, pow_succ]
        ring

/-- A finite magnitude of at least 2^(52+p) units is a multiple of 2^p units: the values near a rounded one stand on its
grid. -/
theorem magUnits_grid (z : F64) (p : Nat) (h : 2 ^ (52 + p) ≤ z.magUnits) : 2 ^ p ∣ z.magUnits := by
  have hs : z.significand < 2 ^ 53 := by
    have : z.frac < 2 ^ 52 := Nat.mod_lt _ (by norm_num)
    unfold F64.significand
    split <;> omega
  unfold F64.magUnits at *
  refine Dvd.dvd.mul_left (pow_dvd_pow 2 ?_) _
  by_contra hlt
  have h1 : 2 ^ (z.expField - 1) * 2 ≤ 2 ^ p := by
    rw [← pow_succ]
    exact Nat.pow_le_pow_right (by norm_num) (by omega)
  have h2 : z.significand * 2 ^ (z.expField - 1) < 2 ^ 53 * 2 ^ (z.expField - 1) :=
    Nat.mul_lt_mul_of_pos_right hs (Nat.two_pow_pos _)
  have h3 : 2 ^ (52 + p) = 2 ^ 52 * 2 ^ p := pow_add 2 52 p
  generalize 2 ^ (z.expField - 1) = e at *
  generalize 2 ^ p = t at *
  omega

end Sys2Proof.Fp
end

