-- ==== Sys2Proof/Machine/Approx.lean ====
section
/-!
DEFINITION. Rational approximations of cos, sin and log10 rounded to binary64. They serve one purpose: to show that
functions with the properties of 00_scope.md R14 exist (Machine/Elementary.lean). Nothing the core computes uses their
values (log 4).
-/

namespace Sys2Proof.Fp

/-- The binary64 nearest to q, but for what lies below the 64th fractional bit of its least unit. -/
def nearest64 (q : ℚ) : F64 := round (decide (q < 0)) ⌊|q| * 2 ^ 1138⌋₊ 64

/-- The n-th term of the exponential series at i·x, as its real and imaginary parts. -/
def expTerm (x : ℚ) : Nat → ℚ × ℚ
  | 0 => (1, 0)
  | n + 1 => (-((expTerm x n).2 * x) / (n + 1), (expTerm x n).1 * x / (n + 1))

/-- The sum of the first n terms. -/
def expSum (x : ℚ) : Nat → ℚ × ℚ
  | 0 => (0, 0)
  | n + 1 => ((expSum x n).1 + (expTerm x n).1, (expSum x n).2 + (expTerm x n).2)

/-- Enough terms for an argument below M in magnitude. -/
def expTerms (m : Nat) : Nat := 2 * m + (2 * m * m + 1300)

/-- The exponential at i·x for a binary64 x, approximately. -/
def expi64 (x : F64) : ℚ × ℚ := expSum x.toRat (expTerms (x.magUnits / 2 ^ 1074 + 1))

/-- q kept between −1 and 1. -/
def clampUnit (q : ℚ) : ℚ := max (-1) (min 1 q)

/-- The sum of the first n terms of −log(1 − w). -/
def logSum (w : ℚ) : Nat → ℚ
  | 0 => 0
  | n + 1 => logSum w n + w ^ (n + 1) / (n + 1)

/-- The logarithm of u > 0, approximately: of its power of two and of what remains. -/
def logNat (u : Nat) : ℚ := u.log2 * logSum (1 / 2) 1400 + logSum (1 - 2 ^ u.log2 / u) 1400

/-- log10 of a positive binary64, approximately. -/
def log64 (x : F64) : ℚ := (logNat x.magUnits - 1074 * logSum (1 / 2) 1400) / logNat 10

end Sys2Proof.Fp
end

