-- ==== Sys2Proof/Laws/Approx.lean ====
section
/-!
SUPPORT. The rational approximations of Machine/Approx.lean are as close as they must be: rounding a rational, the
exponential series, the logarithm series.
-/

namespace Sys2Proof.Fp
open Finset

/-! ### Rounding a rational -/

/-- The value of a binary64 from its sign and its magnitude in units. -/
theorem toRat_eq (z : F64) : z.toRat = (if z.sign then -1 else 1) * (z.magUnits : ℚ) / 2 ^ 1074 := by
  unfold F64.toRat F64.units
  cases z.sign <;> simp

theorem toRat_zero (z : F64) (h : z.isZero = true) : z.toRat = 0 := by
  simp only [F64.isZero, Bool.and_eq_true, beq_iff_eq] at h
  rw [toRat_eq]
  simp [F64.magUnits, F64.significand, h.1, h.2]

/-- In units of 2^−1074: a value rounded to a multiple of 2^p, from an approximation of y, is within one unit in the last
place of y. -/
theorem scaled_close (n p : Nat) (z q y : ℝ) (hz : |z - q| ≤ 2 ^ p / 2 + 1 / 2 ^ 64) (hn : |z| = n * 2 ^ p)
    (hsame : |z - q| = |(|z| - |q|)|) (hq : 0 < p → 2 ^ 52 ≤ n ∧ (2 : ℝ) ^ (p + 52) ≤ |q|) (h : |q - y| ≤ 1 / 2 ^ 16) :
    ∃ p' : Nat, (p' = 0 ∨ (2 : ℝ) ^ (p' + 52) ≤ |y|) ∧ |z - y| ≤ 2 ^ p' := by
  have hzy : |z - y| ≤ |z - q| + |q - y| := abs_sub_le z q y
  have hp1 : (1 : ℝ) ≤ 2 ^ p := one_le_pow₀ (by norm_num)
  have hnum : (1 : ℝ) / 2 ^ 64 + 1 / 2 ^ 16 ≤ 1 / 2 := by norm_num
  by_cases hy : p = 0 ∨ (2 : ℝ) ^ (p + 52) ≤ |y|
  · exact ⟨p, hy, by linarith⟩
  · push Not at hy
    obtain ⟨h52, hqq⟩ := hq (Nat.pos_of_ne_zero hy.1)
    have hqy : |q| ≤ |y| + 1 / 2 ^ 16 := by
      have := abs_sub_abs_le_abs_sub q y
      linarith
    have hup : |z| ≤ |q| + |z - q| := by
      have := abs_sub_abs_le_abs_sub z q
      linarith
    have e : (2 : ℝ) ^ (p + 52) = 2 ^ 52 * 2 ^ p := by rw [pow_add, mul_comm]
    have hlt : (n : ℝ) * 2 ^ p < (2 ^ 52 + 1) * 2 ^ p := by
      rw [hn] at hup
      have := hy.2
      rw [e] at this
      linarith
    have hn' : n = 2 ^ 52 := by
      have h1 : (n : ℝ) < 2 ^ 52 + 1 := lt_of_mul_lt_mul_right hlt (by positivity)
      have h2 : n < 2 ^ 52 + 1 := by exact_mod_cast h1
      omega
    refine ⟨0, .inl rfl, ?_⟩
    have hz2 : |z| = 2 ^ (p + 52) := by rw [hn, hn', e]; norm_num
    have : |z - q| ≤ 1 / 2 ^ 16 := by
      rw [hsame, abs_le]
      constructor <;> linarith [hy.2]
    have h16 : (1 : ℝ) / 2 ^ 16 + 1 / 2 ^ 16 ≤ 2 ^ 0 := by norm_num
    linarith

/-- What `nearest64` gives for a magnitude below the overflow: its significand and spacing, and the error, in units of
2^−1074. -/
theorem nearest64_cases (q : ℚ) (hq : |q| ≤ 2 ^ 1000) :
    ∃ n p : Nat, (nearest64 q).isFinite = true ∧ (nearest64 q).sign = decide (q < 0) ∧
      (nearest64 q).magUnits = n * 2 ^ p ∧
      |(n : ℚ) * 2 ^ p - |q| * 2 ^ 1074| ≤ 2 ^ p / 2 + 1 / 2 ^ 64 ∧
      (0 < p → 2 ^ 52 ≤ n ∧ (2 : ℚ) ^ (p + 52) ≤ |q| * 2 ^ 1074) ∧
      (∀ k, p ≤ k → |q| * 2 ^ 1074 ≤ 2 ^ k → n * 2 ^ p ≤ 2 ^ k) := by
  have e1138 : (2 : ℚ) ^ 1138 = 2 ^ 1074 * 2 ^ 64 := by rw [← pow_add]
  have e2138 : (2 : ℚ) ^ 2138 = 2 ^ 1000 * 2 ^ 1138 := by rw [← pow_add]
  unfold nearest64
  generalize hm : ⌊|q| * 2 ^ 1138⌋₊ = m
  have hm1 : (m : ℚ) ≤ |q| * 2 ^ 1138 := hm ▸ Nat.floor_le (by positivity)
  have hm2 : |q| * 2 ^ 1138 < m + 1 := hm ▸ Nat.lt_floor_add_one _
  have hmb : (m : ℚ) ≤ 2 ^ 2138 := hm1.trans (by rw [e2138]; gcongr)
  rw [e1138] at hm1 hm2
  have hlog : m.log2 ≤ 2138 := by
    by_contra h
    have h0 : m ≠ 0 := by rintro h0; rw [h0] at h; simp at h
    have h1 : 2 ^ m.log2 ≤ m := Nat.log2_self_le h0
    have h2 : (2 : ℚ) ^ (2138 + 1) ≤ 2 ^ m.log2 := pow_le_pow_right₀ (by norm_num) (by omega)
    have h3 : ((2 ^ m.log2 : Nat) : ℚ) ≤ m := by exact_mod_cast h1
    have h4 : (0 : ℚ) < 2 ^ 2138 := by positivity
    push_cast at h3
    rw [pow_succ] at h2
    generalize (2 : ℚ) ^ 2138 = b at *
    generalize (2 : ℚ) ^ m.log2 = c at *
    linarith only [h2, h3, h4, hmb]
  clear hmb e2138
  have hbig : |q| * 2 ^ 1074 * 2 ^ 64 = |q| * (2 ^ 1074 * 2 ^ 64) := mul_assoc _ _ _
  rw [← hbig] at hm1 hm2
  clear hm e1138 hbig hq
  generalize |q| * 2 ^ 1074 = Q at *
  obtain ⟨hb1, hb2⟩ := rneShift_bounds m 64
  obtain ⟨hs1, hs2, -⟩ := rneShift_spec m (64 + spacingLog m 64)
  have hcases := round_cases (decide (q < 0)) m 64
  have hpe : spacingLog m 64 = m.log2 - 116 := rfl
  generalize rneShift m (64 + spacingLog m 64) = n at *
  generalize spacingLog m 64 = p at *
  have e64 : (2 : ℚ) ^ (64 + p) = 2 ^ p * 2 ^ 64 := by rw [pow_add, mul_comm]
  have h1 : (2 * m : ℚ) ≤ 2 * (n * 2 ^ (64 + p)) + 2 ^ (64 + p) := by exact_mod_cast hs1
  have h2 : (2 * (n * 2 ^ (64 + p)) : ℚ) ≤ 2 * m + 2 ^ (64 + p) := by exact_mod_cast hs2
  rw [e64] at h1 h2
  have key : ∀ A B : ℚ, A * 2 ^ 64 ≤ B * 2 ^ 64 → A ≤ B := fun A B h => le_of_mul_le_mul_right h (by positivity)
  have hfin : (round (decide (q < 0)) m 64).isFinite = true ∧ (round (decide (q < 0)) m 64).sign = decide (q < 0) ∧
      (round (decide (q < 0)) m 64).magUnits = n * 2 ^ p := by
    rcases hcases with h | ⟨-, h⟩
    · exact h
    · omega
  refine ⟨n, p, hfin.1, hfin.2.1, hfin.2.2, ?_, ?_, ?_⟩
  · rw [abs_le]
    constructor
    · apply key; linarith
    · apply key; linarith
  · intro h0
    refine ⟨hb2 h0, ?_⟩
    have h0' : m ≠ 0 := by rintro h0'; rw [h0'] at hpe; simp at hpe; omega
    have h3 : 2 ^ (p + 116) ≤ m := (Nat.pow_le_pow_right (by norm_num) (by omega)).trans (Nat.log2_self_le h0')
    have h4 : (2 : ℚ) ^ (p + 116) ≤ Q * 2 ^ 64 := le_trans (by exact_mod_cast h3) hm1
    rw [show p + 116 = p + 52 + 64 by omega, pow_add] at h4
    exact le_of_mul_le_mul_right h4 (by positivity)
  · intro k hk hQ
    by_contra hlt
    have e : 2 ^ k = 2 ^ (k - p) * 2 ^ p := by rw [← pow_add]; congr 1; omega
    have h3 : 2 ^ (k - p) + 1 ≤ n := by
      by_contra h
      have : n * 2 ^ p ≤ 2 ^ (k - p) * 2 ^ p := Nat.mul_le_mul_right _ (by omega)
      omega
    have h4 : ((2 : ℚ) ^ (k - p) + 1) * 2 ^ p ≤ n * 2 ^ p := by
      have : ((2 : ℚ) ^ (k - p) + 1) ≤ n := by exact_mod_cast h3
      gcongr
    have eq : (2 : ℚ) ^ k = 2 ^ (k - p) * 2 ^ p := by rw [← pow_add]; congr 1; omega
    rw [eq] at hQ
    have hpp : (0 : ℚ) < 2 ^ p := by positivity
    generalize (2 : ℚ) ^ (k - p) = a at *
    generalize (2 : ℚ) ^ p = t at *
    linarith

/-- The binary64 nearest to a close approximation of y is within 1 ulp of y. -/
theorem nearest64_close (q : ℚ) (y : ℝ) (hq : |q| ≤ 2 ^ 1000) (h : |(q : ℝ) - y| * 2 ^ 1074 ≤ 1 / 2 ^ 16) :
    Config.WithinOneUlp y (nearest64 q) := by
  obtain ⟨n, p, hf, hs, hm, he, hp, -⟩ := nearest64_cases q hq
  refine ⟨hf, ?_⟩
  have hz : (nearest64 q).toRat * 2 ^ 1074 = (if q < 0 then -1 else 1) * ((n : ℚ) * 2 ^ p) := by
    rw [toRat_eq, hs, hm, div_mul_cancel₀ _ (by positivity)]
    push_cast
    simp only [decide_eq_true_eq]
  obtain ⟨U, hU, hU0⟩ : ∃ U : ℚ, U = 2 ^ 1074 ∧ 0 < U := ⟨_, rfl, by positivity⟩
  have hUR : (U : ℝ) = 2 ^ 1074 := by rw [hU]; push_cast; rfl
  have hU0R : (0 : ℝ) < U := by exact_mod_cast hU0
  rw [← hU] at hz he hp
  rw [← hUR] at h
  have hqU : |(q : ℝ) * U| = |(q : ℝ)| * U := by rw [abs_mul, abs_of_pos hU0R]
  have hT : (0 : ℝ) ≤ (n : ℝ) * 2 ^ p := by positivity
  have hzR : ((nearest64 q).toRat : ℝ) * U = (if q < 0 then -1 else 1) * ((n : ℝ) * 2 ^ p) := by
    have := congrArg (Rat.cast (K := ℝ)) hz
    push_cast at this
    rw [this]
    split <;> simp
  have hqs : (q : ℝ) * U = (if q < 0 then -1 else 1) * |(q : ℝ) * U| := by
    rw [hqU]
    by_cases hneg : q < 0
    · rw [if_pos hneg, abs_of_neg (by exact_mod_cast hneg)]; ring
    · rw [if_neg hneg, abs_of_nonneg (by exact_mod_cast not_lt.mp hneg)]; ring
  have habs : |((nearest64 q).toRat : ℝ) * U| = n * 2 ^ p := by
    rw [hzR, abs_mul, abs_of_nonneg hT]
    split <;> simp
  have hsame : |((nearest64 q).toRat : ℝ) * U - q * U| = |(|((nearest64 q).toRat : ℝ) * U| - |(q : ℝ) * U|)| := by
    rw [habs]
    conv_lhs => rw [hzR, hqs, ← mul_sub, abs_mul]
    rw [show |(if q < 0 then -1 else 1 : ℝ)| = 1 by split <;> simp, one_mul]
  have heR : |(n : ℝ) * 2 ^ p - |(q : ℝ)| * U| ≤ 2 ^ p / 2 + 1 / 2 ^ 64 := by
    have := (Rat.cast_le (K := ℝ)).mpr he
    push_cast at this
    exact this
  obtain ⟨p', h1, h2⟩ := scaled_close n p _ ((q : ℝ) * U) (y * U) (by rw [hsame, habs, hqU]; exact heR) habs hsame
    (by
      intro h0
      refine ⟨(hp h0).1, ?_⟩
      rw [hqU]
      have := (Rat.cast_le (K := ℝ)).mpr (hp h0).2
      push_cast at this
      exact this)
    (by rw [← sub_mul, abs_mul, abs_of_pos hU0R]; exact h)
  have hpow : ∀ k : Nat, (2 : ℝ) ^ ((k : ℤ) - 1074) * U = 2 ^ k := by
    intro k
    rw [hUR, zpow_sub₀ (by norm_num), zpow_natCast, show (1074 : ℤ) = ((1074 : Nat) : ℤ) from rfl, zpow_natCast,
      div_mul_cancel₀ _ (by positivity)]
  refine ⟨(p' : ℤ) - 1074, by omega, ?_, ?_⟩
  · rcases h1 with h1 | h1
    · left; omega
    · right
      rw [abs_mul, abs_of_pos hU0R, ← hpow] at h1
      have := le_of_mul_le_mul_right h1 hU0R
      rwa [show ((p' + 52 : Nat) : ℤ) - 1074 = (p' : ℤ) - 1074 + 52 by push_cast; ring] at this
  · rw [← sub_mul, abs_mul, abs_of_pos hU0R, ← hpow] at h2
    exact le_of_mul_le_mul_right h2 hU0R

/-- A value of magnitude at most 1 rounds to one. -/
theorem nearest64_unit (q : ℚ) (hq : |q| ≤ 1) : |(nearest64 q).toRat| ≤ 1 := by
  obtain ⟨n, p, -, hs, hm, -, hp, hle⟩ := nearest64_cases q (hq.trans (one_le_pow₀ (by norm_num)))
  have hQ : |q| * 2 ^ 1074 ≤ 2 ^ 1074 := by
    have : (0 : ℚ) < 2 ^ 1074 := by positivity
    generalize (2 : ℚ) ^ 1074 = U at *
    nlinarith
  have hpk : p ≤ 1074 := by
    by_contra h
    have h1 := (hp (by omega)).2.trans hQ
    have h2 : (2 : ℚ) ^ 1074 < 2 ^ (p + 52) := pow_lt_pow_right₀ (by norm_num) (by omega)
    exact absurd h1 (not_le.mpr h2)
  have h := hle 1074 hpk hQ
  have h' : ((n * 2 ^ p : Nat) : ℚ) ≤ 2 ^ 1074 := by exact_mod_cast h
  rw [toRat_eq, hm, abs_div, abs_mul, abs_of_nonneg (Nat.cast_nonneg (α := ℚ) (n * 2 ^ p)),
    abs_of_pos (show (0 : ℚ) < 2 ^ 1074 by positivity), div_le_one (by positivity)]
  rw [show |(if (nearest64 q).sign then -1 else 1 : ℚ)| = 1 by split <;> simp, one_mul]
  exact h'

/-! ### The exponential series -/

theorem expTerm_eq (x : ℚ) (n : Nat) :
    (((expTerm x n).1 : ℂ) + ((expTerm x n).2 : ℂ) * Complex.I) = ((x : ℂ) * Complex.I) ^ n / n.factorial := by
  induction n with
  | zero => simp [expTerm]
  | succ n ih =>
    have hn : ((n : ℂ) + 1) ≠ 0 := by exact_mod_cast Nat.succ_ne_zero n
    have hf : ((n.factorial : ℕ) : ℂ) ≠ 0 := by exact_mod_cast n.factorial_ne_zero
    rw [Nat.factorial_succ, pow_succ, Nat.cast_mul, Nat.cast_succ]
    have : ((x : ℂ) * Complex.I) ^ n * ((x : ℂ) * Complex.I) / (((n : ℂ) + 1) * n.factorial) =
        (((x : ℂ) * Complex.I) ^ n / n.factorial) * ((x : ℂ) * Complex.I) / ((n : ℂ) + 1) := by
      field_simp
    rw [this, ← ih]
    simp only [expTerm]
    push_cast
    field_simp
    linear_combination (-(((expTerm x n).2 : ℂ) * x)) * Complex.I_sq

theorem expSum_eq (x : ℚ) (n : Nat) :
    (((expSum x n).1 : ℂ) + ((expSum x n).2 : ℂ) * Complex.I) =
      ∑ m ∈ range n, ((x : ℂ) * Complex.I) ^ m / m.factorial := by
  induction n with
  | zero => simp [expSum]
  | succ n ih =>
    rw [sum_range_succ, ← ih, ← expTerm_eq]
    simp only [expSum]
    push_cast
    ring

/-- Past twice the argument every term at least halves. -/
theorem pow_div_factorial_le (r : ℝ) (m j : Nat) (h0 : 0 ≤ r) (h : r ≤ m) :
    r ^ (2 * m + j) / (2 * m + j).factorial ≤ r ^ (2 * m) / 2 ^ j := by
  induction j with
  | zero =>
    simp only [Nat.add_zero, pow_zero, div_one]
    exact div_le_self (by positivity) (by exact_mod_cast Nat.one_le_iff_ne_zero.mpr (Nat.factorial_ne_zero _))
  | succ j ih =>
    rw [← Nat.add_assoc, Nat.factorial_succ, pow_succ, Nat.cast_mul]
    have hpos : (0 : ℝ) < ((2 * m + j + 1 : Nat) : ℝ) := by positivity
    have hhalf : r / ((2 * m + j + 1 : Nat) : ℝ) ≤ 1 / 2 := by
      rw [div_le_div_iff₀ hpos (by norm_num)]
      push_cast
      have : (0 : ℝ) ≤ j := by positivity
      linarith
    calc r ^ (2 * m + j) * r / (((2 * m + j + 1 : Nat) : ℝ) * ((2 * m + j).factorial : ℝ))
        = (r ^ (2 * m + j) / (2 * m + j).factorial) * (r / ((2 * m + j + 1 : Nat) : ℝ)) := by
          rw [mul_comm ((2 * m + j + 1 : Nat) : ℝ), mul_div_mul_comm]
      _ ≤ (r ^ (2 * m) / 2 ^ j) * (1 / 2) := by gcongr
      _ = r ^ (2 * m) / 2 ^ (j + 1) := by rw [pow_succ]; ring

/-- The partial sum of `expTerms` terms is within 2^−1299 of the exponential. -/
theorem expSum_close (x : ℚ) (m : Nat) (h : |(x : ℝ)| ≤ m) :
    ‖Complex.exp ((x : ℂ) * Complex.I) -
      (((expSum x (expTerms m)).1 : ℂ) + ((expSum x (expTerms m)).2 : ℂ) * Complex.I)‖ ≤ 1 / 2 ^ 1299 := by
  have hnorm : ‖(x : ℂ) * Complex.I‖ = |(x : ℝ)| := by
    rw [norm_mul, Complex.norm_I, mul_one, ← Complex.ofReal_ratCast, Complex.norm_real, Real.norm_eq_abs]
  rw [expSum_eq]
  refine (Complex.exp_bound' ?_).trans ?_
  · rw [hnorm, div_le_div_iff₀ (by positivity) (by norm_num)]
    unfold expTerms
    push_cast
    have : (0 : ℝ) ≤ 2 * m * m := by positivity
    linarith
  · rw [hnorm]
    have h1 := pow_div_factorial_le |(x : ℝ)| m (2 * m * m + 1300) (abs_nonneg _) h
    have h2 : |(x : ℝ)| ^ (2 * m) ≤ 2 ^ (2 * m * m) := by
      calc |(x : ℝ)| ^ (2 * m) ≤ (m : ℝ) ^ (2 * m) := by gcongr
        _ ≤ (2 ^ m : ℝ) ^ (2 * m) := by
          gcongr
          exact_mod_cast (Nat.lt_two_pow_self (n := m)).le
        _ = 2 ^ (2 * m * m) := by rw [← pow_mul]; congr 1; ring
    have h3 : |(x : ℝ)| ^ (2 * m) / 2 ^ (2 * m * m + 1300) ≤ 1 / 2 ^ 1300 := by
      rw [pow_add, ← div_div]
      have : |(x : ℝ)| ^ (2 * m) / 2 ^ (2 * m * m) ≤ 1 := (div_le_one (by positivity)).mpr h2
      gcongr
    have e : (1 : ℝ) / 2 ^ 1299 = 1 / 2 ^ 1300 * 2 := by rw [pow_succ 2 1299]; field_simp
    unfold expTerms
    rw [e]
    exact mul_le_mul_of_nonneg_right (h1.trans h3) (by norm_num)

/-! ### The logarithm series -/

theorem logSum_eq (w : ℚ) (n : Nat) : ((logSum w n : ℚ) : ℝ) = ∑ i ∈ range n, (w : ℝ) ^ (i + 1) / (i + 1) := by
  induction n with
  | zero => simp [logSum]
  | succ n ih => rw [sum_range_succ, ← ih]; simp [logSum]

theorem logSum_close (w : ℚ) (n : Nat) (h0 : 0 ≤ w) (h : w ≤ 1 / 2) :
    |(logSum w n : ℝ) + Real.log (1 - w)| ≤ 1 / 2 ^ n := by
  have h0' : (0 : ℝ) ≤ w := by exact_mod_cast h0
  have h' : (w : ℝ) ≤ 1 / 2 := by
    have := (Rat.cast_le (K := ℝ)).mpr h
    push_cast at this
    exact this
  have ha : |(w : ℝ)| = w := abs_of_nonneg h0'
  rw [logSum_eq]
  refine (Real.abs_log_sub_add_sum_range_le (by rw [ha]; linarith) n).trans ?_
  rw [ha, div_le_iff₀ (by linarith)]
  calc (w : ℝ) ^ (n + 1) ≤ (1 / 2) ^ (n + 1) := by gcongr
    _ = 1 / 2 ^ n * (1 / 2) := by rw [pow_succ, one_div_pow]
    _ ≤ 1 / 2 ^ n * (1 - w) := by gcongr; linarith

theorem logNat_close (u : Nat) (h : u ≠ 0) : |(logNat u : ℝ) - Real.log u| ≤ (u.log2 + 1) / 2 ^ 1400 := by
  have hlo : 2 ^ u.log2 ≤ u := Nat.log2_self_le h
  have hup : u < 2 ^ (u.log2 + 1) := Nat.lt_log2_self
  have hu : (0 : ℝ) < u := by exact_mod_cast Nat.pos_of_ne_zero h
  have huq : (0 : ℚ) < u := by exact_mod_cast Nat.pos_of_ne_zero h
  have h2 := logSum_close (1 / 2) 1400 (by norm_num) (by norm_num)
  have hw0 : (0 : ℚ) ≤ 1 - 2 ^ u.log2 / u := by
    rw [sub_nonneg, div_le_one huq]
    exact_mod_cast hlo
  have hw1 : (1 : ℚ) - 2 ^ u.log2 / u ≤ 1 / 2 := by
    have : (1 : ℚ) / 2 ≤ 2 ^ u.log2 / u := by
      rw [div_le_div_iff₀ (by norm_num) huq, one_mul, ← pow_succ]
      exact_mod_cast hup.le
    linarith
  have h3 := logSum_close (1 - 2 ^ u.log2 / u) 1400 hw0 hw1
  have e1 : Real.log (1 - ((1 / 2 : ℚ) : ℝ)) = -Real.log 2 := by
    rw [← Real.log_inv]; congr 1; push_cast; norm_num
  have e2 : Real.log (1 - ((1 - 2 ^ u.log2 / u : ℚ) : ℝ)) = u.log2 * Real.log 2 - Real.log u := by
    have : (1 : ℝ) - ((1 - 2 ^ u.log2 / u : ℚ) : ℝ) = 2 ^ u.log2 / u := by push_cast; ring
    rw [this, Real.log_div (by positivity) hu.ne', Real.log_pow]
  rw [e1] at h2
  rw [e2] at h3
  have e : (logNat u : ℝ) - Real.log u =
      u.log2 * ((logSum (1 / 2) 1400 : ℝ) + -Real.log 2) +
        ((logSum (1 - 2 ^ u.log2 / u) 1400 : ℝ) + (u.log2 * Real.log 2 - Real.log u)) := by
    unfold logNat
    push_cast
    ring
  rw [e]
  have hk : (0 : ℝ) ≤ u.log2 := by positivity
  calc _ ≤ |(u.log2 : ℝ) * ((logSum (1 / 2) 1400 : ℝ) + -Real.log 2)| + _ := abs_add_le _ _
    _ ≤ u.log2 * (1 / 2 ^ 1400) + 1 / 2 ^ 1400 := by
      rw [abs_mul, abs_of_nonneg hk]
      gcongr
    _ = (u.log2 + 1) * (1 / 2 ^ 1400) := (add_one_mul _ _).symm
    _ = _ := mul_one_div _ _

/-! ### The three functions -/

theorem magUnits_lt (x : F64) : x.magUnits < 2 ^ 2099 := by
  have hs : x.significand < 2 ^ 53 := by
    have : x.frac < 2 ^ 52 := Nat.mod_lt _ (by norm_num)
    unfold F64.significand
    split <;> omega
  have he : x.expField - 1 ≤ 2046 := by
    have : x.expField < 2 ^ 11 := Nat.mod_lt _ (by norm_num)
    omega
  have e : 2 ^ 2099 = 2 ^ 53 * 2 ^ 2046 := pow_add 2 53 2046
  have hle : 2 ^ (x.expField - 1) ≤ 2 ^ 2046 := Nat.pow_le_pow_right Nat.zero_lt_two he
  rw [F64.magUnits, e]
  exact (Nat.mul_lt_mul_of_pos_right hs (Nat.two_pow_pos _)).trans_le (Nat.mul_le_mul_left _ hle)

theorem abs_toRat (x : F64) : |(x.toRat : ℝ)| = x.magUnits / 2 ^ 1074 := by
  rw [toRat_eq]
  push_cast
  rw [abs_div, abs_mul, Nat.abs_cast, abs_of_pos (show (0 : ℝ) < 2 ^ 1074 by positivity)]
  rw [show |((if x.sign then -1 else 1 : ℚ) : ℝ)| = 1 by split <;> simp, one_mul]

theorem abs_toRat_le (x : F64) : |(x.toRat : ℝ)| ≤ ((x.magUnits / 2 ^ 1074 + 1 : Nat) : ℝ) := by
  rw [abs_toRat, div_le_iff₀ (by positivity)]
  have h := Nat.lt_div_mul_add (a := x.magUnits) (show 0 < 2 ^ 1074 from Nat.two_pow_pos _)
  have : x.magUnits ≤ (x.magUnits / 2 ^ 1074 + 1) * 2 ^ 1074 := by
    rw [add_one_mul]
    exact h.le
  exact_mod_cast this

/-- Both parts of `expi64` are close. -/
theorem expi64_close (x : F64) :
    |((expi64 x).1 : ℝ) - Real.cos x.toRat| ≤ 1 / 2 ^ 1299 ∧ |((expi64 x).2 : ℝ) - Real.sin x.toRat| ≤ 1 / 2 ^ 1299 := by
  have h := expSum_close x.toRat _ (abs_toRat_le x)
  have hexp : Complex.exp ((x.toRat : ℂ) * Complex.I) = (Real.cos x.toRat : ℂ) + (Real.sin x.toRat : ℂ) * Complex.I := by
    rw [← Complex.ofReal_ratCast, Complex.exp_mul_I, Complex.ofReal_cos, Complex.ofReal_sin]
  rw [hexp, ← Complex.ofReal_ratCast, ← Complex.ofReal_ratCast] at h
  have hre := (Complex.abs_re_le_norm _).trans h
  have him := (Complex.abs_im_le_norm _).trans h
  simp only [Complex.sub_re, Complex.sub_im, Complex.add_re, Complex.add_im, Complex.mul_re, Complex.mul_im, Complex.ofReal_re,
    Complex.ofReal_im, Complex.I_re, Complex.I_im, mul_zero, mul_one, sub_zero, add_zero, zero_add] at hre him
  unfold expi64
  exact ⟨by rw [abs_sub_comm]; exact hre, by rw [abs_sub_comm]; exact him⟩

theorem clampUnit_abs (q : ℚ) : |clampUnit q| ≤ 1 := by
  unfold clampUnit
  rw [abs_le]
  constructor
  · exact le_max_left _ _
  · exact max_le (by norm_num) (min_le_left _ _)

theorem clampUnit_close (q : ℚ) (y d : ℝ) (hy : |y| ≤ 1) (h : |(q : ℝ) - y| ≤ d) : |(clampUnit q : ℝ) - y| ≤ d := by
  unfold clampUnit
  push_cast
  rw [abs_le] at *
  simp only [max_def, min_def]
  split_ifs <;> constructor <;> linarith

theorem small_1299 (a : ℝ) (h : a ≤ 1 / 2 ^ 1299) : a * 2 ^ 1074 ≤ 1 / 2 ^ 16 := by
  have e : (2 : ℝ) ^ 1299 = 2 ^ 1074 * 2 ^ 225 := by rw [← pow_add]
  have h0 : (0 : ℝ) < 2 ^ 1074 := by positivity
  rw [e] at h
  generalize (2 : ℝ) ^ 1074 = U at *
  calc a * U ≤ 1 / (U * 2 ^ 225) * U := by gcongr
    _ = 1 / 2 ^ 225 := by field_simp
    _ ≤ 1 / 2 ^ 16 := by norm_num

/-- log10 of a positive finite binary64 is approximated within 2^−1385. -/
theorem log64_close (x : F64) (hp : 0 < x.toRat) :
    |(log64 x : ℝ) - Real.logb 10 x.toRat| ≤ 2 ^ 15 / 2 ^ 1400 ∧ |Real.logb 10 x.toRat| ≤ 2 ^ 12 := by
  have hx : (x.toRat : ℝ) = x.magUnits / 2 ^ 1074 := by
    rw [← abs_toRat, abs_of_pos (by exact_mod_cast hp)]
  have hu0 : x.magUnits ≠ 0 := by
    intro h0
    have : (x.toRat : ℝ) = 0 := by rw [hx, h0]; simp
    have h1 : (0 : ℝ) < x.toRat := by exact_mod_cast hp
    linarith
  have hk : x.magUnits.log2 ≤ 2098 := by
    have := (Nat.log2_lt hu0).mpr (magUnits_lt x)
    omega
  have hk' : (x.magUnits.log2 : ℝ) ≤ 2098 := by exact_mod_cast hk
  have hA := logNat_close x.magUnits hu0
  have hB := logNat_close 10 (by norm_num)
  have h2 := logSum_close (1 / 2) 1400 (by norm_num) (by norm_num)
  have e2 : Real.log (1 - ((1 / 2 : ℚ) : ℝ)) = -Real.log 2 := by
    rw [← Real.log_inv]; congr 1; push_cast; norm_num
  rw [e2] at h2
  rw [show Nat.log2 10 = 3 by decide] at hB
  push_cast at hB
  have hlog : Real.log x.toRat = Real.log x.magUnits - 1074 * Real.log 2 := by
    rw [hx, Real.log_div (by exact_mod_cast hu0) (by positivity), Real.log_pow]
    push_cast
    ring
  have hl2 : Real.log 2 ≤ 1 := by linarith [Real.log_two_lt_d9]
  have hl2' : 0.69 ≤ Real.log 2 := by linarith [Real.log_two_gt_d9]
  have hb : 2 ≤ Real.log 10 := by
    have h8 : Real.log 8 ≤ Real.log 10 := Real.log_le_log (by norm_num) (by norm_num)
    have : Real.log 8 = 3 * Real.log 2 := by
      rw [show (8 : ℝ) = 2 ^ 3 by norm_num, Real.log_pow]; norm_num
    linarith
  have hmu : Real.log x.magUnits ≤ 2099 := by
    have h1 : Real.log x.magUnits ≤ Real.log (2 ^ 2099) :=
      Real.log_le_log (by exact_mod_cast Nat.pos_of_ne_zero hu0) (by exact_mod_cast (magUnits_lt x).le)
    rw [Real.log_pow] at h1
    have : ((2099 : Nat) : ℝ) * Real.log 2 ≤ 2099 * 1 := by push_cast; gcongr
    linarith
  have hmu0 : 0 ≤ Real.log x.magUnits := Real.log_natCast_nonneg _
  have ha : |Real.log x.toRat| ≤ 2100 := by
    rw [hlog, abs_le]
    constructor <;> linarith
  have hlogb : Real.logb 10 x.toRat = Real.log x.toRat / Real.log 10 := rfl
  have ht : (0 : ℝ) < 1 / 2 ^ 1400 := by positivity
  have ht1 : (1 : ℝ) / 2 ^ 1400 ≤ 1 / 2 ^ 3 :=
    one_div_le_one_div_of_le (by positivity) (pow_le_pow_right₀ (by norm_num) (by norm_num))
  rw [div_eq_mul_one_div] at hA hB
  rw [div_eq_mul_one_div ((2 : ℝ) ^ 15)]
  unfold log64
  push_cast at *
  generalize (1 : ℝ) / 2 ^ 1400 = t at *
  generalize (logNat x.magUnits : ℝ) = A at *
  generalize (logNat 10 : ℝ) = B at *
  generalize (logSum (1 / 2) 1400 : ℝ) = L at *
  rw [hlogb, hlog] at *
  generalize Real.log x.magUnits = a at *
  generalize Real.log 10 = b at *
  generalize Real.log 2 = l at *
  have hB1 : 1 ≤ B := by
    have := (abs_le.mp hB).1
    norm_num at ht1
    linarith
  have hA' : |(A - 1074 * L) - (a - 1074 * l)| ≤ 3200 * t := by
    have e : (A - 1074 * L) - (a - 1074 * l) = (A - a) + -(1074 * (L + -l)) := by ring
    rw [e]
    refine (abs_add_le _ _).trans ?_
    rw [abs_neg, abs_mul, abs_of_pos (show (0 : ℝ) < 1074 by norm_num)]
    nlinarith
  constructor
  · generalize A - 1074 * L = P at *
    generalize a - 1074 * l = r at *
    have hBb : 0 < B * b := by nlinarith
    have e : P / B - r / b = (P - r) / B + r * (b - B) / (B * b) := by
      field_simp
      ring
    rw [e]
    refine (abs_add_le _ _).trans ?_
    have t1 : |(P - r) / B| ≤ 3200 * t := by
      rw [abs_div, abs_of_pos (by linarith : 0 < B), div_le_iff₀ (by linarith)]
      nlinarith
    have t2 : |r * (b - B) / (B * b)| ≤ 8400 * t := by
      rw [abs_div, abs_mul, abs_of_pos hBb, div_le_iff₀ hBb, abs_sub_comm b B]
      have hb4 : |B - b| ≤ 4 * t := by linarith
      have h1 : |r| * |B - b| ≤ 2100 * (4 * t) := by gcongr
      have h2 : 1 ≤ B * b := by nlinarith
      nlinarith
    linarith
  · rw [abs_div, abs_of_pos (by linarith : 0 < b), div_le_iff₀ (by linarith)]
    linarith

end Sys2Proof.Fp
end

