-- ==== Sys2Proof/Machine/Elementary.lean ====
section
/-!
DEFINITION. The configuration functions COS, SIN and LOG10 (00_scope.md R14), and that functions with the properties
that rule names exist.
-/

namespace Sys2Proof

open Sys2Proof.Fp

/-- A cosine with the properties of 00_scope.md R14. -/
def cos64 (x : F64) : F64 := if x.isZero then Config.one else nearest64 (clampUnit (expi64 x).1)

/-- A sine with the properties of 00_scope.md R14. -/
def sin64 (x : F64) : F64 := if x.isZero then x else nearest64 (clampUnit (expi64 x).2)

/-- A base-10 logarithm with the properties of 00_scope.md R14. -/
def log10At (x : F64) : F64 := if x = Config.one then Config.zero else nearest64 (log64 x)

theorem withinOneUlp_self (z : F64) (hf : z.isFinite = true) (y : ℝ) (h : (z.toRat : ℝ) = y) : Config.WithinOneUlp y z :=
  ⟨hf, -1074, le_refl _, .inl rfl, by rw [h, sub_self, abs_zero]; positivity⟩

theorem one_toRat : Config.one.toRat = 1 := by
  have hs : Config.one.sign = false := by decide
  have hm : Config.one.magUnits = 2 ^ 1074 := by decide +kernel
  rw [toRat_eq, hs, hm, if_neg (by decide), Nat.cast_pow, Nat.cast_ofNat, one_mul, div_self (by positivity)]

theorem isFinite_of_isZero (x : F64) (h : x.isZero = true) : x.isFinite = true := by
  simp only [F64.isZero, Bool.and_eq_true, beq_iff_eq] at h
  simp [F64.isFinite, h.1]

theorem cos64_close (x : F64) : Config.WithinOneUlp (Real.cos x.toRat) (cos64 x) := by
  unfold cos64
  by_cases h : x.isZero = true
  · rw [if_pos h]
    exact withinOneUlp_self _ (by decide) _ (by rw [one_toRat, toRat_zero x h]; simp)
  · rw [if_neg h]
    refine nearest64_close _ _ ((clampUnit_abs _).trans (one_le_pow₀ (by norm_num))) (small_1299 _ ?_)
    exact clampUnit_close _ _ _ (Real.abs_cos_le_one _) (expi64_close x).1

theorem sin64_close (x : F64) : Config.WithinOneUlp (Real.sin x.toRat) (sin64 x) := by
  unfold sin64
  by_cases h : x.isZero = true
  · rw [if_pos h]
    exact withinOneUlp_self _ (isFinite_of_isZero x h) _ (by rw [toRat_zero x h]; simp)
  · rw [if_neg h]
    refine nearest64_close _ _ ((clampUnit_abs _).trans (one_le_pow₀ (by norm_num))) (small_1299 _ ?_)
    exact clampUnit_close _ _ _ (Real.abs_sin_le_one _) (expi64_close x).2

theorem log10At_close (x : F64) (hp : 0 < x.toRat) : Config.WithinOneUlp (Real.logb 10 x.toRat) (log10At x) := by
  unfold log10At
  by_cases h : x = Config.one
  · rw [if_pos h]
    exact withinOneUlp_self _ (by decide) _ (by rw [h, one_toRat, toRat_zero _ (by decide)]; simp)
  · rw [if_neg h]
    obtain ⟨hc, hb⟩ := log64_close x hp
    have e : (2 : ℝ) ^ 1400 = 2 ^ 1074 * 2 ^ 326 := by rw [← pow_add]
    have h0 : (0 : ℝ) < 2 ^ 1074 := by positivity
    have hsmall : |(log64 x : ℝ) - Real.logb 10 x.toRat| * 2 ^ 1074 ≤ 1 / 2 ^ 16 := by
      rw [e] at hc
      generalize (2 : ℝ) ^ 1074 = U at *
      calc _ ≤ 2 ^ 15 / (U * 2 ^ 326) * U := by gcongr
        _ = 2 ^ 15 / 2 ^ 326 := by field_simp
        _ ≤ 1 / 2 ^ 16 := by
          rw [div_le_div_iff₀ (by positivity) (by positivity), one_mul, ← pow_add]
          exact pow_le_pow_right₀ (by norm_num) (by norm_num)
    refine nearest64_close _ _ ?_ hsmall
    have h1 : (2 : ℝ) ^ 15 / 2 ^ 1400 ≤ 1 :=
      (div_le_one (by positivity)).mpr (pow_le_pow_right₀ (by norm_num) (by norm_num))
    have h2 : |(log64 x : ℝ)| ≤ 2 ^ 13 := by
      have := abs_sub_abs_le_abs_sub (log64 x : ℝ) (Real.logb 10 x.toRat)
      have h3 : (2 : ℝ) ^ 12 + 1 ≤ 2 ^ 13 := by norm_num
      linarith only [this, h1, h3, hb, hc]
    have h3 : |log64 x| ≤ 2 ^ 13 := by exact_mod_cast h2
    exact h3.trans (pow_le_pow_right₀ (by norm_num) (by norm_num))

theorem abs_toRat_cos64 (x : F64) : |(cos64 x).toRat| ≤ 1 := by
  unfold cos64
  by_cases h : x.isZero = true
  · rw [if_pos h, one_toRat, abs_one]
  · rw [if_neg h]
    exact nearest64_unit _ (clampUnit_abs _)

theorem abs_toRat_sin64 (x : F64) : |(sin64 x).toRat| ≤ 1 := by
  unfold sin64
  by_cases h : x.isZero = true
  · rw [if_pos h, toRat_zero x h, abs_zero]
    exact zero_le_one
  · rw [if_neg h]
    exact nearest64_unit _ (clampUnit_abs _)

/-- Three functions with the properties of 00_scope.md R14. Only that there are some matters: which functions the core
has is the free value `Config.elementary`. -/
def someElementary : Elementary where
  cos := cos64
  sin := sin64
  log10 := log10At
  cos_zero _ h := if_pos h
  sin_zero _ h := if_pos h
  log10_one := if_pos rfl
  cos_close x _ := cos64_close x
  sin_close x _ := sin64_close x
  log10_close x _ h := log10At_close x h
  cos_unit x _ := abs_toRat_cos64 x
  sin_unit x _ := abs_toRat_sin64 x

/-- The core's elementary functions: any with the properties of 00_scope.md R14 (log 4). -/
def Config.functions : Elementary := @Config.elementary ⟨someElementary⟩

/-- `COS` (00_scope.md R14); at ±0.0 it is 1.0 by P1, said here so that it computes. -/
def Config.cos (x : F64) : F64 := if x.isZero then Config.one else Config.functions.cos x

/-- `SIN` (00_scope.md R14); at ±0.0 it is ±0.0 by P1. -/
def Config.sin (x : F64) : F64 := if x.isZero then x else Config.functions.sin x

/-- `LOG10` (00_scope.md R14); at 1.0 it is +0.0 by P1. -/
def Config.log10 (x : F64) : F64 := if x = Config.one then Config.zero else Config.functions.log10 x

end Sys2Proof
end

