-- ==== Sys2Proof/Machine/Operands.lean ====
section
/-!
DEFINITION. Operands: buffers with their alignment, range and overlap tests (20_memory.md R83-R85), operand assembly
(30_encoding.md R112, R113), and element access (20_memory.md R81).
-/

namespace Sys2Proof.Machine

open Sys2Proof.Fp

/-! ### Buffers -/

/-- The bytes of an element (10_state.md R43). -/
def elemBytes (f : Fmt) : Nat :=
  match f with
  | .real64 => 8
  | .pcm16 => 2
  | .cplx128 => 16

/-- The alignment a base of the format needs (20_memory.md R83). -/
def elemAlign (f : Fmt) : Nat :=
  match f with
  | .real64 => 8
  | .pcm16 => 2
  | .cplx128 => 8

/-- A buffer: a base address, a format and an element count (10_state.md R43). -/
structure Buffer where
  base : Nat
  fmt : Fmt
  count : Nat
deriving DecidableEq, Repr

/-- Its length in bytes. -/
def Buffer.bytes (b : Buffer) : Nat := elemBytes b.fmt * b.count

/-- 20_memory.md R83. -/
def Buffer.aligned (b : Buffer) : Bool := decide (b.base % elemAlign b.fmt = 0)

/-- 20_memory.md R84, on unbounded integers; a zero-length buffer is in range for every base. -/
def Buffer.inRange (size : Nat) (b : Buffer) : Bool := decide (b.count = 0) || decide (b.base + b.bytes ≤ size)

/-- 20_memory.md R85. -/
def Buffer.overlaps (b c : Buffer) : Bool :=
  decide (0 < b.bytes) && decide (0 < c.bytes) && decide (b.base < c.base + c.bytes) && decide (c.base < b.base + b.bytes)

/-- Overlap with identity (same base, same byte length) permitted (20_memory.md R85). -/
def Buffer.overlapsUnlessSame (b c : Buffer) : Bool :=
  Buffer.overlaps b c && !(decide (b.base = c.base) && decide (b.bytes = c.bytes))

/-- Whether the buffer holds the address. -/
def Buffer.holds (b : Buffer) (a : Nat) : Bool := decide (b.base ≤ a) && decide (a < b.base + b.bytes)

/-- Classes (6) ALIGN, (7) RANGE, (8) OVERLAP of the check order (60_exceptions.md R303), on a command's buffers. -/
def bufferErrors (size : Nat) (bufs : List Buffer) (clash : Bool) : Option ErrCode :=
  if !(bufs.all Buffer.aligned) then some .align
  else if !(bufs.all (Buffer.inRange size)) then some .range
  else if clash then some .overlap
  else none

/-! ### Operand assembly (30_encoding.md R113) -/

/-- LOG2N, always in ARG1. -/
def State.log2n (s : State) : Nat := s.args.a1.toNat

/-- N = 2^LOG2N; only used once LOG2N is known to be legal. -/
def State.points (s : State) : Nat := 2 ^ s.log2n

/-- LOG2N above `LOG2N_MAX`: BAD_ARG. -/
def State.log2nBad (s : State) : Bool := decide (s.config.log2nMax < s.log2n)

/-- A count or a rate of 2^32 or more: BAD_ARG. -/
def countBad (w : Word) : Bool := decide (2 ^ 32 ≤ w.toNat)

/-- A binary64 operand: the register's bits. -/
def f64bits (w : Word) : F64 := ⟨w⟩

/-! ### Element reads (20_memory.md R81) -/

/-- `MemRead(a, 8)` as a binary64. -/
def readF64 (m : Memory) (a : Nat) : F64 := ⟨BitVec.ofNat 64 (Memory.memRead m a 8)⟩

/-- The signed 16-bit sample at a. -/
def readPcm (m : Memory) (a : Nat) : Int := (BitVec.ofNat 16 (Memory.memRead m a 2)).toInt

/-- `ReadReal(fmt, b, i)`; a PCM16 sample is divided by `PCM_IN_SCALE`. -/
def readReal (c : Config) (fmt : Fmt) (m : Memory) (b i : Nat) : F64 :=
  match fmt with
  | .real64 => readF64 m (b + 8 * i)
  | .pcm16 => div (ofInt (readPcm m (b + 2 * i))) c.pcmInScale
  | .cplx128 => readF64 m (b + 16 * i)

/-- `ReadCplx(b, i)`. -/
def readCplx (m : Memory) (b i : Nat) : Cplx := ⟨readF64 m (b + 16 * i), readF64 m (b + 16 * i + 8)⟩

/-- The n elements of a buffer read as reals, from index 0. -/
def readReals (c : Config) (fmt : Fmt) (m : Memory) (b n : Nat) : List F64 := (List.range n).map (readReal c fmt m b)

/-- The n elements of a CPLX128 buffer, from index 0. -/
def readCplxs (m : Memory) (b n : Nat) : List Cplx := (List.range n).map (readCplx m b)

/-! ### Element writes (20_memory.md R81)

A body writes element 0, 1, 2, … of a buffer, each once; the elements are contiguous with no padding (10_state.md
R43), so this is one write of their bytes. -/

/-- The 8 bytes of `bits64(x)`. -/
def realBytes (x : F64) : List Byte := leBytes 8 x.bits.toNat

/-- The 16 bytes of a complex element, re first. -/
def cplxBytes (z : Cplx) : List Byte := realBytes z.re ++ realBytes z.im

/-- The 2 bytes of `s & 0xFFFF`. -/
def pcmBytes (v : Int) : List Byte := leBytes 2 (BitVec.ofInt 16 v).toNat

/-- `WriteReal(b, i, x_i)` for every element of the list. -/
def writeReals (m : Memory) (b : Nat) (xs : List F64) : Memory := Memory.writeBytes m b (xs.flatMap realBytes)

/-- `WriteCplx(b, i, z_i)` for every element of the list. -/
def writeCplxs (m : Memory) (b : Nat) (zs : List Cplx) : Memory := Memory.writeBytes m b (zs.flatMap cplxBytes)

/-- `WritePcm(b, i, v_i)` for every element of the list. -/
def writePcms (m : Memory) (b : Nat) (vs : List Int) : Memory := Memory.writeBytes m b (vs.flatMap pcmBytes)

end Sys2Proof.Machine
end

