-- ==== Sys2Proof/Machine/Decay.lean ====
section
/-!
DEFINITION. The decay analyzer: SCHROEDER and DECAY_FIT (44_decay.md R260-R270).
-/

namespace Sys2Proof.Machine

open Sys2Proof.Fp

/-! ### SCHROEDER -/

/-- The backward cumulative energies: E[i] = E[i+1] + v[i]², accumulated from the last sample (44_decay.md R260). -/
def energies : List F64 → List F64
  | [] => []
  | v :: vs => add ((energies vs).headD Config.zero) (mul v v) :: energies vs

/-- The total energy E[0]. -/
def totalEnergy (vs : List F64) : F64 := (energies vs).headD Config.zero

/-- The dB value of an energy, with `DB_FLOOR` for an energy of zero (44_decay.md R260). -/
def decibel (floor emax e : F64) : F64 :=
  if eq e Config.zero then floor
  else if eq (div e emax) Config.zero then Config.negInf
  else mul Config.ten (Config.log10 (div e emax))

/-- The decay curve. -/
def decayCurve (floor : F64) (vs : List F64) : List F64 := (energies vs).map (decibel floor (totalEnergy vs))

/-- dst: REAL64 ×L at ARG0. -/
def State.schroederDst (s : State) : Buffer := ⟨s.args.a0.toNat, .real64, s.args.a1.toNat⟩

/-- src: FMT ×L at ARG2. -/
def State.schroederSrc (fmt : Fmt) (s : State) : Buffer := ⟨s.args.a2.toNat, fmt, s.args.a1.toNat⟩

/-- The checks of SCHROEDER: dst identical to src is allowed when FMT = REAL64 (44_decay.md R260). -/
def schroederCheck (fmt : Fmt) (s : State) : Option ErrCode :=
  if countBad s.args.a1 then some .badArg
  else if s.args.a1.toNat = 0 then some .empty
  else bufferErrors s.config.dmemSize [s.schroederDst, s.schroederSrc fmt]
    (if fmt = .real64 then Buffer.overlapsUnlessSame s.schroederDst (s.schroederSrc fmt)
      else Buffer.overlaps s.schroederDst (s.schroederSrc fmt))

/-- The body of SCHROEDER: NONFINITE on a non-finite sample or an overflowing sum, before any write; RES0 the total
energy (44_decay.md R260). -/
def schroederFinish (fmt : Fmt) (s : State) : Finish :=
  let vs := readReals s.config fmt s.dmem s.args.a2.toNat s.args.a1.toNat
  if !(vs.all F64.isFinite) then s.raise .nonfinite
  else if (totalEnergy vs).isInf then s.raise .nonfinite
  else ⟨.ok, { s.res with r0 := (totalEnergy vs).bits }, writeReals s.dmem s.args.a0.toNat (decayCurve s.config.dbFloor vs)⟩

/-- SCHROEDER (44_decay.md R260). -/
def execSchroeder (fmt : Fmt) (s : State) : Host.Outcome State Fault Refusal :=
  s.runCommand (schroederCheck fmt s) (schroederFinish fmt)

/-! ### DECAY_FIT -/

/-- The start of the window: the first index whose value is at or below start_db and still at or above end_db
(44_decay.md R265). -/
def scanStart (startDb endDb : F64) (c : List F64) : Option Nat := firstIndex (fun v => le endDb v && le v startDb) 0 c

/-- The end of the window: the first index after the start whose value is at or below end_db (44_decay.md R265). -/
def scanEnd (endDb : F64) (c : List F64) (start : Nat) : Option Nat :=
  firstIndex (fun v => le v endDb) (start + 1) (c.drop (start + 1))

/-- The four sums of the regression (44_decay.md R266). -/
structure Sums where
  st : F64
  sy : F64
  stt : F64
  sty : F64
deriving DecidableEq, Repr

/-- One point (t, y) added to the sums. -/
def Sums.point (p : Sums) (t y : F64) : Sums :=
  ⟨add p.st t, add p.sy y, add p.stt (mul t t), add p.sty (mul t y)⟩

/-- The sums over the indices start..fin, in order, with t = i / fs (44_decay.md R266). -/
def regressionSums (fs : Nat) (c : List F64) (start fin : Nat) : Sums :=
  (List.range (fin - start + 1)).foldl
    (fun p k => p.point (div (ofNat (start + k)) (ofNat fs)) (c.getD (start + k) Config.zero))
    ⟨Config.zero, Config.zero, Config.zero, Config.zero⟩

/-- den = n·Stt − St² (44_decay.md R266). -/
def denominator (n : F64) (p : Sums) : F64 := sub (mul n p.stt) (mul p.st p.st)

/-- slope = (n·Sty − St·Sy) / den (44_decay.md R266). -/
def slope (n : F64) (p : Sums) : F64 := div (sub (mul n p.sty) (mul p.st p.sy)) (denominator n p)

/-- The fitted slope over start..fin, `none` where the fit is singular or not decaying (44_decay.md R266). -/
def fitSlope (singEps : F64) (fs : Nat) (c : List F64) (start fin : Nat) : Option F64 :=
  let n := ofNat (fin - start + 1)
  let p := regressionSums fs c start fin
  if lt (abs (denominator n p)) singEps then none
  else if lt (slope n p) Config.zero then some (slope n p)
  else none

/-- T = (end_db − start_db) / slope (44_decay.md R268). -/
def decayTime (startDb endDb sl : F64) : F64 := div (sub endDb startDb) sl

/-- RT60 = T × (60 / (start_db − end_db)) (44_decay.md R268). -/
def rt60 (startDb endDb t : F64) : F64 := mul t (div Config.sixty (sub startDb endDb))

/-- An index in a RES register; one not found is −1 (44_decay.md R269). -/
def indexWord (i : Option Nat) : Word :=
  match i with
  | some n => BitVec.ofNat 64 n
  | none => 0xFFFFFFFFFFFFFFFF#64

/-- `FAIL(s, e)`: the sentinels and the indices found so far (44_decay.md R269). -/
def State.decayFail (s : State) (start fin : Option Nat) : Finish :=
  ⟨.decayNotDetected, ⟨Config.minusOne.bits, Config.minusOne.bits, indexWord start, indexWord fin⟩, s.dmem⟩

/-- curve: REAL64 ×L at ARG2. -/
def State.decayCurveBuf (s : State) : Buffer := ⟨s.args.a2.toNat, .real64, s.args.a1.toNat⟩

/-- The window start_db = ARG4, end_db = ARG5 is finite and decreasing (30_encoding.md R113). -/
def windowBad (startDb endDb : F64) : Bool := !startDb.isFinite || !endDb.isFinite || le startDb endDb

/-- The checks of DECAY_FIT (44_decay.md R264). -/
def decayFitCheck (s : State) : Option ErrCode :=
  if countBad s.args.a1 || decide (s.args.a3.toNat = 0) || countBad s.args.a3 ||
      windowBad (f64bits s.args.a4) (f64bits s.args.a5) then some .badArg
  else if s.args.a1.toNat = 0 then some .empty
  else bufferErrors s.config.dmemSize [s.decayCurveBuf] false

/-- The body of DECAY_FIT (44_decay.md R265, R266, R268, R269). The DOC's third failure, end ≤ start, cannot occur
with this scan (R265). -/
def decayFitFinish (s : State) : Finish :=
  let startDb := f64bits s.args.a4
  let endDb := f64bits s.args.a5
  let c := readReals s.config .real64 s.dmem s.args.a2.toNat s.args.a1.toNat
  match scanStart startDb endDb c with
  | none => s.decayFail none none
  | some start =>
    match scanEnd endDb c start with
    | none => s.decayFail (some start) none
    | some fin =>
      match fitSlope s.config.singEps s.args.a3.toNat c start fin with
      | none => s.decayFail (some start) (some fin)
      | some sl =>
        let t := decayTime startDb endDb sl
        ⟨.ok, ⟨t.bits, (rt60 startDb endDb t).bits, BitVec.ofNat 64 start, BitVec.ofNat 64 fin⟩, s.dmem⟩

/-- DECAY_FIT (44_decay.md R264). -/
def execDecayFit (s : State) : Host.Outcome State Fault Refusal := s.runCommand (decayFitCheck s) decayFitFinish

end Sys2Proof.Machine
end

