-- ==== Sys2Proof/Machine/Norm.lean ====
section
/-!
DEFINITION. NORMQ: normalize to 0.9 of full scale and quantize (42_deconv.md R203); its body is also the last step of
TSPGEN and DECONV.
-/

namespace Sys2Proof.Machine

open Sys2Proof.Fp

/-- The gain `PEAK_FRAC × FULL_SCALE` (42_deconv.md R203). -/
def gain (c : Config) : F64 := mul c.peakFrac c.fullScale

/-- The peak: the running maximum of |v[i]| from +0.0 (42_deconv.md R203). -/
def peakOf (vs : List F64) : F64 := vs.foldl (fun peak v => if lt peak (abs v) then abs v else peak) Config.zero

/-- A sample of the output for a nonzero peak (42_deconv.md R203). -/
def quantize (c : Config) (peak v : F64) : Int := q16 c.qround (mul (div v peak) (gain c))

/-- The output samples: all 0 for a zero peak, no division (42_deconv.md R203). -/
def normalized (c : Config) (vs : List F64) : List Int :=
  if eq (peakOf vs) Config.zero then vs.map fun _ => 0 else vs.map (quantize c (peakOf vs))

/-- `NORMQ_BODY(dst, L, fmt, src)`: `none` where it raises NONFINITE, before any write; else DMEM and the peak
(42_deconv.md R203). -/
def normqBody (c : Config) (m : Memory) (dst n : Nat) (fmt : Fmt) (src : Nat) : Option (Memory × F64) :=
  let vs := readReals c fmt m src n
  if vs.all F64.isFinite then some (writePcms m dst (normalized c vs), peakOf vs) else none

/-- dst: PCM16 ×L at ARG0. -/
def State.normqDst (s : State) : Buffer := ⟨s.args.a0.toNat, .pcm16, s.args.a1.toNat⟩

/-- src: FMT ×L at ARG2. -/
def State.normqSrc (fmt : Fmt) (s : State) : Buffer := ⟨s.args.a2.toNat, fmt, s.args.a1.toNat⟩

/-- The checks of NORMQ (42_deconv.md R203). -/
def normqCheck (fmt : Fmt) (s : State) : Option ErrCode :=
  if countBad s.args.a1 then some .badArg
  else if s.args.a1.toNat = 0 then some .empty
  else bufferErrors s.config.dmemSize [s.normqDst, s.normqSrc fmt] (Buffer.overlaps s.normqDst (s.normqSrc fmt))

/-- The body of NORMQ: RES0 the peak's bits (42_deconv.md R203). -/
def normqFinish (fmt : Fmt) (s : State) : Finish :=
  match normqBody s.config s.dmem s.args.a0.toNat s.args.a1.toNat fmt s.args.a2.toNat with
  | none => s.raise .nonfinite
  | some (m, peak) => ⟨.ok, { s.res with r0 := peak.bits }, m⟩

/-- NORMQ (42_deconv.md R203). -/
def execNormq (fmt : Fmt) (s : State) : Host.Outcome State Fault Refusal := s.runCommand (normqCheck fmt s) (normqFinish fmt)

end Sys2Proof.Machine
end

