-- ==== Sys2Proof/Machine/Transform.lean ====
section
/-!
DEFINITION. The spectral transform: FFT and IFFT (40_transform.md R140-R147).
-/

namespace Sys2Proof.Machine

open Sys2Proof.Fp

/-- `bitrev_m(i)`: the m-bit integer whose bit t is bit m−1−t of i (40_transform.md R140). -/
def bitrev : Nat → Nat → Nat
  | 0, _ => 0
  | m + 1, i => i % 2 * 2 ^ m + bitrev m (i / 2)

/-- a[i] and a[j] exchanged. -/
def swap (a : List Cplx) (i j : Nat) : List Cplx := (a.set i (a.getD j czero)).set j (a.getD i czero)

/-- The bit-reversal permutation step (40_transform.md R140). -/
def permute (m : Nat) (a : List Cplx) : List Cplx :=
  forUp (2 ^ m) (fun i a => if i < bitrev m i then swap a i (bitrev m i) else a) a

/-- The sign s of the twiddle exponent: `FWD_SIGN` forward, −`FWD_SIGN` inverse (40_transform.md R141). -/
def twiddleSign (f : FwdSign) (inverse : Bool) : Int :=
  match f, inverse with
  | .plus, false => 1
  | .plus, true => -1
  | .minus, false => -1
  | .minus, true => 1

/-- The base twiddle of the stage of length len (40_transform.md R141). -/
def stageTwiddle (s : Int) (len : Nat) : Cplx :=
  let ang := div (mul Config.twoPi (ofInt s)) (ofNat len)
  ⟨Config.cos ang, Config.sin ang⟩

/-- One butterfly on a[i] and a[i+h] with the running twiddle w, which advances (40_transform.md R142). -/
def butterfly (wl : Cplx) (h i : Nat) (st : List Cplx × Cplx) : List Cplx × Cplx :=
  let u := st.1.getD i czero
  let v := cmul (st.1.getD (i + h) czero) st.2
  ((st.1.set i (cadd u v)).set (i + h) (csub u v), cmul st.2 wl)

/-- The block of butterflies from element i on, h = len / 2, starting at w = ONE (40_transform.md R142). -/
def block (wl : Cplx) (h i : Nat) (a : List Cplx) : List Cplx :=
  (forUp h (fun j st => butterfly wl h (i + j) st) (a, cone)).1

/-- The stage of length len over the N elements (40_transform.md R142). -/
def stage (s : Int) (n len : Nat) (a : List Cplx) : List Cplx :=
  forUp (n / len) (fun blk a => block (stageTwiddle s len) (len / 2) (blk * len) a) a

/-- `FFT_CORE` on the N = 2^m elements of the list: permutation, stages 2, 4, …, N, and on the inverse the division by N
(40_transform.md R142). -/
def transform (f : FwdSign) (m : Nat) (inverse : Bool) (a : List Cplx) : List Cplx :=
  let r := forUp m (fun t a => stage (twiddleSign f inverse) (2 ^ m) (2 ^ (t + 1)) a) (permute m a)
  if inverse then r.map fun z => cscale z (ofNat (2 ^ m)) else r

/-- `FFT_CORE(b, m, inverse)`, in place on the CPLX128 buffer at b (40_transform.md R142). -/
def fftCore (f : FwdSign) (mem : Memory) (b m : Nat) (inverse : Bool) : Memory :=
  writeCplxs mem b (transform f m inverse (readCplxs mem b (2 ^ m)))

/-- The CPLX128 ×N buffer at ARG0: buf of FFT and IFFT, dst of TSP_UP, TSP_DOWN and LOAD16, z of DECONV_MUL
(30_encoding.md R112). -/
def State.fftBuf (s : State) : Buffer := ⟨s.args.a0.toNat, .cplx128, s.points⟩

/-- The checks of FFT (40_transform.md R143). -/
def fftCheck (s : State) : Option ErrCode :=
  if s.log2nBad then some .badArg else bufferErrors s.config.dmemSize [s.fftBuf] false

/-- The body of FFT (40_transform.md R143). -/
def fftFinish (s : State) : Finish :=
  s.succeed (fftCore s.config.fwdSign s.dmem s.args.a0.toNat s.log2n false)

/-- FFT: forward transform, no scaling (40_transform.md R143). -/
def execFft (s : State) : Host.Outcome State Fault Refusal := s.runCommand (fftCheck s) fftFinish

/-- The checks of IFFT: as FFT (40_transform.md R144). -/
def ifftCheck (s : State) : Option ErrCode :=
  if s.log2nBad then some .badArg else bufferErrors s.config.dmemSize [s.fftBuf] false

/-- The body of IFFT (40_transform.md R144). -/
def ifftFinish (s : State) : Finish :=
  s.succeed (fftCore s.config.fwdSign s.dmem s.args.a0.toNat s.log2n true)

/-- IFFT: inverse transform with division by N (40_transform.md R144). -/
def execIfft (s : State) : Host.Outcome State Fault Refusal := s.runCommand (ifftCheck s) ifftFinish

end Sys2Proof.Machine
end

