-- ==== Sys2Proof/Machine/Tsp.lean ====
section
/-!
DEFINITION. The TSP synthesis engine: phase laws, conjugate symmetry, TSP_UP, TSP_DOWN, TSPGEN (41_tsp.md R170-R177).
-/

namespace Sys2Proof.Machine

open Sys2Proof.Fp

/-- (k / N)², both operations exact (41_tsp.md R170, R171). -/
def binSquare (n k : Nat) : F64 := mul (div (ofNat k) (ofNat n)) (div (ofNat k) (ofNat n))

/-- `theta_up(k, N)` with J = N >> 1 and n0 = N >> 2 (41_tsp.md R170, 00_scope.md R7). -/
def thetaUp (n k : Nat) : F64 :=
  sub (mul (mul Config.negTwoPi (ofNat (n / 2))) (binSquare n k))
    (div (mul (mul Config.twoPi (ofNat k)) (ofNat (n / 4))) (ofNat n))

/-- `phi_down(k, N, J)` (41_tsp.md R171). -/
def phiDown (n j k : Nat) : F64 := mul (mul Config.twoPi (ofNat j)) (binSquare n k)

/-- exp(i · phase) of a bin. -/
def expi (phase : F64) : Cplx := ⟨Config.cos phase, Config.sin phase⟩

/-- Bin k of the spectrum of N bins (41_tsp.md R172): below the Nyquist bin H = N >> 1 it is exp(i · phase); the
Nyquist bin keeps its re part with im +0.0; above it the conjugate of bin N − k. -/
def spectrumBin (n : Nat) (phase : Nat → F64) (k : Nat) : Cplx :=
  if k < n / 2 then expi (phase k)
  else if k = n / 2 then ⟨(expi (phase k)).re, Config.zero⟩
  else conj (expi (phase (n - k)))

/-- The N bins, in order. -/
def spectrum (n : Nat) (phase : Nat → F64) : List Cplx := (List.range n).map (spectrumBin n phase)

/-- `TSP_SYNTH(b, m, phase)` (41_tsp.md R172). -/
def tspSynth (mem : Memory) (b m : Nat) (phase : Nat → F64) : Memory := writeCplxs mem b (spectrum (2 ^ m) phase)

/-- The checks of TSP_UP (41_tsp.md R173). -/
def tspUpCheck (s : State) : Option ErrCode :=
  if s.log2nBad then some .badArg else bufferErrors s.config.dmemSize [s.fftBuf] false

/-- The body of TSP_UP (41_tsp.md R173). -/
def tspUpFinish (s : State) : Finish := s.succeed (tspSynth s.dmem s.args.a0.toNat s.log2n (thetaUp s.points))

/-- TSP_UP: the excitation spectrum H (41_tsp.md R173). -/
def execTspUp (s : State) : Host.Outcome State Fault Refusal := s.runCommand (tspUpCheck s) tspUpFinish

/-- The checks of TSP_DOWN (41_tsp.md R174). -/
def tspDownCheck (s : State) : Option ErrCode :=
  if s.log2nBad || countBad s.args.a2 then some .badArg else bufferErrors s.config.dmemSize [s.fftBuf] false

/-- The body of TSP_DOWN, J = ARG2 (41_tsp.md R174). -/
def tspDownFinish (s : State) : Finish :=
  s.succeed (tspSynth s.dmem s.args.a0.toNat s.log2n (phiDown s.points s.args.a2.toNat))

/-- TSP_DOWN: the inverse-filter spectrum G (41_tsp.md R174). -/
def execTspDown (s : State) : Host.Outcome State Fault Refusal := s.runCommand (tspDownCheck s) tspDownFinish

/-- dst: PCM16 ×N at ARG0. -/
def State.tspgenDst (s : State) : Buffer := ⟨s.args.a0.toNat, .pcm16, s.points⟩

/-- work: CPLX128 ×N at ARG2. -/
def State.tspgenWork (s : State) : Buffer := ⟨s.args.a2.toNat, .cplx128, s.points⟩

/-- The checks of TSPGEN (41_tsp.md R175). -/
def tspgenCheck (s : State) : Option ErrCode :=
  if s.log2nBad then some .badArg
  else bufferErrors s.config.dmemSize [s.tspgenDst, s.tspgenWork] (Buffer.overlaps s.tspgenDst s.tspgenWork)

/-- The work buffer's DMEM after the synthesis and the inverse transform (41_tsp.md R175). -/
def tspgenWorkMem (s : State) : Memory :=
  fftCore s.config.fwdSign (tspSynth s.dmem s.args.a2.toNat s.log2n (thetaUp s.points)) s.args.a2.toNat s.log2n true

/-- The body of TSPGEN (41_tsp.md R175). In a legal configuration NORMQ_BODY does not raise here (`tspgenSignal_finite`); a
raise would end the command with the earlier steps' writes kept (60_exceptions.md R300, log 16). -/
def tspgenFinish (s : State) : Finish :=
  match normqBody s.config (tspgenWorkMem s) s.args.a0.toNat s.points .cplx128 s.args.a2.toNat with
  | none => ⟨.nonfinite, s.res, tspgenWorkMem s⟩
  | some (m, peak) => ⟨.ok, { s.res with r0 := peak.bits, r1 := BitVec.ofNat 64 s.points }, m⟩

/-- TSPGEN: the time-domain excitation as PCM16 (41_tsp.md R175). -/
def execTspgen (s : State) : Host.Outcome State Fault Refusal := s.runCommand (tspgenCheck s) tspgenFinish

end Sys2Proof.Machine
end

