-- ==== Sys2Proof/Machine/Deconv.lean ====
section
/-!
DEFINITION. The deconvolution engine and its data path: LOAD16, DECONV_MUL, DECONV (42_deconv.md R200-R210). NORMQ is
in Norm.lean.
-/

namespace Sys2Proof.Machine

open Sys2Proof.Fp

/-! ### LOAD16 -/

/-- Element i of LOAD16's output: sample i as a real, +0.0 past the samples; im +0.0 (42_deconv.md R200). -/
def loadedElem (c : Config) (m : Memory) (src cnt i : Nat) : Cplx :=
  ⟨if i < cnt then readReal c .pcm16 m src i else Config.zero, Config.zero⟩

/-- `LOAD16_BODY(dst, N, src, CNT)` (42_deconv.md R200). -/
def load16Body (c : Config) (m : Memory) (dst n src cnt : Nat) : Memory :=
  writeCplxs m dst ((List.range n).map (loadedElem c m src cnt))

/-- src: PCM16 ×CNT at ARG2, CNT = ARG3. -/
def State.load16Src (s : State) : Buffer := ⟨s.args.a2.toNat, .pcm16, s.args.a3.toNat⟩

/-- The checks of LOAD16 (42_deconv.md R200). With CNT = 0 src is in range wherever it points (20_memory.md R84, log 10). -/
def load16Check (s : State) : Option ErrCode :=
  if s.log2nBad || countBad s.args.a3 then some .badArg
  else if s.points < s.args.a3.toNat then some .tooLong
  else bufferErrors s.config.dmemSize [s.fftBuf, s.load16Src] (Buffer.overlaps s.fftBuf s.load16Src)

/-- The body of LOAD16 (42_deconv.md R200). -/
def load16Finish (s : State) : Finish :=
  s.succeed (load16Body s.config s.dmem s.args.a0.toNat s.points s.args.a2.toNat s.args.a3.toNat)

/-- LOAD16: PCM16 to complex with zero padding (42_deconv.md R200). -/
def execLoad16 (s : State) : Host.Outcome State Fault Refusal := s.runCommand (load16Check s) load16Finish

/-! ### DECONV_MUL -/

/-- The guarded product of a bin: zeroed when the excitation's magnitude is below the floor (42_deconv.md R201, R202,
R209). -/
def guardedBin (c : Config) (x y g : Cplx) : Cplx := if lt (mag x) c.magFloor then czero else cmul y g

/-- `DECONV_MUL_BODY(z, N, x, y, g)`: bin k is read completely before it is written, and z may only coincide with
x, y or g, so every bin reads the operands' values from before the command (42_deconv.md R202). -/
def deconvMulBody (c : Config) (m : Memory) (z n x y g : Nat) : Memory :=
  writeCplxs m z ((List.range n).map fun k => guardedBin c (readCplx m x k) (readCplx m y k) (readCplx m g k))

/-- x: CPLX128 ×N at ARG2. -/
def State.mulX (s : State) : Buffer := ⟨s.args.a2.toNat, .cplx128, s.points⟩

/-- y: CPLX128 ×N at ARG3. -/
def State.mulY (s : State) : Buffer := ⟨s.args.a3.toNat, .cplx128, s.points⟩

/-- g: CPLX128 ×N at ARG4. -/
def State.mulG (s : State) : Buffer := ⟨s.args.a4.toNat, .cplx128, s.points⟩

/-- The checks of DECONV_MUL (42_deconv.md R202); z is the buffer at ARG0. -/
def deconvMulCheck (s : State) : Option ErrCode :=
  if s.log2nBad then some .badArg
  else bufferErrors s.config.dmemSize [s.fftBuf, s.mulX, s.mulY, s.mulG]
    (Buffer.overlapsUnlessSame s.fftBuf s.mulX || Buffer.overlapsUnlessSame s.fftBuf s.mulY ||
      Buffer.overlapsUnlessSame s.fftBuf s.mulG)

/-- The body of DECONV_MUL (42_deconv.md R202). -/
def deconvMulFinish (s : State) : Finish :=
  s.succeed (deconvMulBody s.config s.dmem s.args.a0.toNat s.points s.args.a2.toNat s.args.a3.toNat s.args.a4.toNat)

/-- DECONV_MUL: the deconvolution divider (42_deconv.md R202). -/
def execDeconvMul (s : State) : Host.Outcome State Fault Refusal := s.runCommand (deconvMulCheck s) deconvMulFinish

/-! ### DECONV -/

/-- log2 of the smallest power of two that is at least n (42_deconv.md R205); 0 for n = 1. -/
def ceilLog2 (n : Nat) : Nat := if n ≤ 1 then 0 else Nat.log2 (n - 1) + 1

/-- E = ARG1, the excitation's sample count. -/
def State.excCount (s : State) : Nat := s.args.a1.toNat

/-- M = ARG3, the response's sample count. -/
def State.respCount (s : State) : Nat := s.args.a3.toNat

/-- fs_e = ARG5[31:0]. -/
def State.excRate (s : State) : Nat := s.args.a5.toNat % 2 ^ 32

/-- fs_r = ARG5[63:32]. -/
def State.respRate (s : State) : Nat := s.args.a5.toNat / 2 ^ 32

/-- m = log2 N, from the full response count (42_deconv.md R205). -/
def State.deconvLog (s : State) : Nat := ceilLog2 (max s.excCount s.respCount)

/-- N, the transform size (42_deconv.md R205). -/
def State.deconvSize (s : State) : Nat := 2 ^ s.deconvLog

/-- The two-period rule applies: M ≥ 2·E (42_deconv.md R206). -/
def State.twoPeriod (s : State) : Bool := decide (2 * s.excCount ≤ s.respCount)

/-- dst: PCM16 ×N at ARG0. -/
def State.deconvDst (s : State) : Buffer := ⟨s.args.a0.toNat, .pcm16, s.deconvSize⟩

/-- exc: PCM16 ×E at ARG2. -/
def State.deconvExc (s : State) : Buffer := ⟨s.args.a2.toNat, .pcm16, s.excCount⟩

/-- resp: PCM16 ×M at ARG4. -/
def State.deconvResp (s : State) : Buffer := ⟨s.args.a4.toNat, .pcm16, s.respCount⟩

/-- work: CPLX128 ×3N at ARG6. -/
def State.deconvWork (s : State) : Buffer := ⟨s.args.a6.toNat, .cplx128, 3 * s.deconvSize⟩

/-- The checks of DECONV, in order (42_deconv.md R204). -/
def deconvCheck (s : State) : Option ErrCode :=
  if countBad s.args.a1 || countBad s.args.a3 || decide (s.excRate = 0) || decide (s.respRate = 0) then some .badArg
  else if s.excCount = 0 ∨ s.respCount = 0 then some .empty
  else if s.excRate ≠ s.respRate then some .rateMismatch
  else if s.config.log2nMax < s.deconvLog then some .tooLong
  else bufferErrors s.config.dmemSize [s.deconvDst, s.deconvExc, s.deconvResp, s.deconvWork]
    (Buffer.overlaps s.deconvWork s.deconvDst || Buffer.overlaps s.deconvWork s.deconvExc ||
      Buffer.overlaps s.deconvWork s.deconvResp || Buffer.overlaps s.deconvDst s.deconvExc ||
      Buffer.overlaps s.deconvDst s.deconvResp)

/-- Step 3: the response loaded at wy, from sample E on when the two-period rule applies (42_deconv.md R206, R207). -/
def loadResponse (c : Config) (m : Memory) (wy n resp e cnt : Nat) (two : Bool) : Memory :=
  if two then load16Body c m wy n (resp + 2 * e) (cnt - e) else load16Body c m wy n resp cnt

/-- DMEM after steps 2 to 7 of DECONV: WX the excitation spectrum, WY the complex time-domain impulse response, WG the
inverse-filter spectrum (42_deconv.md R207, R208). -/
def deconvWorkMem (s : State) : Memory :=
  let f := s.config.fwdSign
  let m := s.deconvLog
  let n := s.deconvSize
  let wx := s.args.a6.toNat
  let wy := wx + 16 * n
  let wg := wx + 32 * n
  let m2 := load16Body s.config s.dmem wx n s.args.a2.toNat s.excCount
  let m3 := loadResponse s.config m2 wy n s.args.a4.toNat s.excCount s.respCount s.twoPeriod
  let m4 := fftCore f (fftCore f m3 wx m false) wy m false
  let m5 := tspSynth m4 wg m (phiDown n (s.excCount / 2))
  let m6 := deconvMulBody s.config m5 wy n wx wy wg
  fftCore f m6 wy m true

/-- The body of DECONV (42_deconv.md R207). As in TSPGEN, NORMQ_BODY does not raise here in a legal
configuration with the DOC's literals (`deconvResponse_finite`, log 16). -/
def deconvFinish (s : State) : Finish :=
  match normqBody s.config (deconvWorkMem s) s.args.a0.toNat s.deconvSize .cplx128
      (s.args.a6.toNat + 16 * s.deconvSize) with
  | none => ⟨.nonfinite, s.res, deconvWorkMem s⟩
  | some (m, peak) =>
    ⟨.ok, ⟨peak.bits, BitVec.ofNat 64 s.deconvSize, BitVec.ofNat 64 s.excRate, if s.twoPeriod then 1#64 else 0#64⟩, m⟩

/-- DECONV (42_deconv.md R204, R207). -/
def execDeconv (s : State) : Host.Outcome State Fault Refusal := s.runCommand (deconvCheck s) deconvFinish

end Sys2Proof.Machine
end

