-- ==== Sys2Proof/Machine/Nlms.lean ====
section
/-!
DEFINITION. The adaptive estimator: NLMS (43_nlms.md R240-R243).
-/

namespace Sys2Proof.Machine

open Sys2Proof.Fp

/-- Σ a[i] × b[i] from +0.0, in index order, each operation rounded (43_nlms.md R242). -/
def dot (a b : List F64) : F64 := (a.zip b).foldl (fun acc p => add acc (mul p.1 p.2)) Config.zero

/-- The coefficient vector and the delay line. -/
structure Filter where
  h : List F64
  xb : List F64
deriving DecidableEq, Repr

/-- The delay line shifted by one with the newest sample at index 0 (43_nlms.md R241). -/
def shiftIn (x : F64) (xb : List F64) : List F64 := x :: xb.dropLast

/-- One sample (43_nlms.md R242): shift, predict, error, input power, and the update when the power exceeds
`NLMS_EPS`. -/
def nlmsSample (eps mu beta : F64) (x y : F64) (f : Filter) : Filter :=
  let xb := shiftIn x f.xb
  let e := sub y (dot f.h xb)
  let p := add beta (dot xb xb)
  if lt eps p then
    let ge := mul (div mu p) e
    ⟨List.zipWith (fun hi xi => add hi (mul ge xi)) f.h xb, xb⟩
  else ⟨f.h, xb⟩

/-- The whole run from zero coefficients and a zero delay line (43_nlms.md R242). -/
def nlmsRun (eps mu beta : F64) (lf : Nat) (xs ys : List F64) : Filter :=
  (xs.zip ys).foldl (fun f p => nlmsSample eps mu beta p.1 p.2 f)
    ⟨List.replicate lf Config.zero, List.replicate lf Config.zero⟩

/-- h: REAL64 ×Lf at ARG0, Lf = ARG4. -/
def State.nlmsH (s : State) : Buffer := ⟨s.args.a0.toNat, .real64, s.args.a4.toNat⟩

/-- x: FMT ×Ns at ARG2, Ns = ARG1. -/
def State.nlmsX (fmt : Fmt) (s : State) : Buffer := ⟨s.args.a2.toNat, fmt, s.args.a1.toNat⟩

/-- y: FMT ×Ns at ARG3. -/
def State.nlmsY (fmt : Fmt) (s : State) : Buffer := ⟨s.args.a3.toNat, fmt, s.args.a1.toNat⟩

/-- dline: REAL64 ×Lf at ARG7. -/
def State.nlmsLine (s : State) : Buffer := ⟨s.args.a7.toNat, .real64, s.args.a4.toNat⟩

/-- The checks of NLMS (43_nlms.md R240, R242); without HAS_NLMS its command words are illegal. -/
def nlmsCheck (fmt : Fmt) (s : State) : Option ErrCode :=
  if !s.config.hasNlms then some .illegalCmd
  else if countBad s.args.a1 || countBad s.args.a4 then some .badArg
  else if s.args.a1.toNat = 0 ∨ s.args.a4.toNat = 0 then some .empty
  else bufferErrors s.config.dmemSize [s.nlmsH, s.nlmsLine, s.nlmsX fmt, s.nlmsY fmt]
    (Buffer.overlaps s.nlmsH s.nlmsLine || Buffer.overlaps s.nlmsH (s.nlmsX fmt) ||
      Buffer.overlaps s.nlmsH (s.nlmsY fmt) || Buffer.overlaps s.nlmsLine (s.nlmsX fmt) ||
      Buffer.overlaps s.nlmsLine (s.nlmsY fmt))

/-- The estimate NLMS computes: mu = ARG5, beta = ARG6 (43_nlms.md R242). -/
def nlmsResult (fmt : Fmt) (s : State) : Filter :=
  nlmsRun s.config.nlmsEps (f64bits s.args.a5) (f64bits s.args.a6) s.args.a4.toNat
    (readReals s.config fmt s.dmem s.args.a2.toNat s.args.a1.toNat) (readReals s.config fmt s.dmem s.args.a3.toNat s.args.a1.toNat)

/-- The body of NLMS: h and the final delay line are written (43_nlms.md R242). -/
def nlmsFinish (fmt : Fmt) (s : State) : Finish :=
  let f := nlmsResult fmt s
  s.succeed (writeReals (writeReals s.dmem s.args.a0.toNat f.h) s.args.a7.toNat f.xb)

/-- NLMS (43_nlms.md R242). -/
def execNlms (fmt : Fmt) (s : State) : Host.Outcome State Fault Refusal := s.runCommand (nlmsCheck fmt s) (nlmsFinish fmt)

end Sys2Proof.Machine
end

