-- ==== Sys2Proof/Machine/Dispatch.lean ====
section
/-!
DEFINITION. The dispatch: one arm per command of the opcode table.
-/

namespace Sys2Proof.Machine

def exec (i : Instr) (s : State) : Host.Outcome State Fault Refusal :=
  match i with
  | .nop => Sys2Proof.Machine.execNop s
  | .fft => Sys2Proof.Machine.execFft s
  | .ifft => Sys2Proof.Machine.execIfft s
  | .tspUp => Sys2Proof.Machine.execTspUp s
  | .tspDown => Sys2Proof.Machine.execTspDown s
  | .tspgen => Sys2Proof.Machine.execTspgen s
  | .load16 => Sys2Proof.Machine.execLoad16 s
  | .deconvMul => Sys2Proof.Machine.execDeconvMul s
  | .normq fmt => Sys2Proof.Machine.execNormq fmt s
  | .deconv => Sys2Proof.Machine.execDeconv s
  | .nlms fmt => Sys2Proof.Machine.execNlms fmt s
  | .schroeder fmt => Sys2Proof.Machine.execSchroeder fmt s
  | .decayFit => Sys2Proof.Machine.execDecayFit s

end Sys2Proof.Machine
end

