-- ==== Sys2Proof/WellFormed.lean ====
section
/-!
DEFINITION. Which commands a configuration has (30_encoding.md R115, 43_nlms.md R240). FMT = 3 and a FMT on a command
without one cannot be written as an `Instr`; what is left to check is HAS_NLMS.
-/

namespace Sys2Proof

/-- The command exists on a core of this configuration: NLMS only when HAS_NLMS is true. -/
def Instr.wellFormed (c : Config) (i : Instr) : Bool :=
  match i with
  | .nop => true
  | .fft => true
  | .ifft => true
  | .tspUp => true
  | .tspDown => true
  | .tspgen => true
  | .load16 => true
  | .deconvMul => true
  | .normq _ => true
  | .deconv => true
  | .nlms _ => c.hasNlms
  | .schroeder _ => true
  | .decayFit => true

end Sys2Proof
end

