-- ==== Sys2Proof/Decode.lean ====
section
/-!
DEFINITION. The command decoder and encoder (30_encoding.md R110-R117).
-/

namespace Sys2Proof

/-- The FMT field's legal values (30_encoding.md R111); 3 is reserved. -/
def decodeFmt (f : Nat) : Option Fmt :=
  match f with
  | 0 => some .real64
  | 1 => some .pcm16
  | 2 => some .cplx128
  | _ => none

/-- Why a command word is illegal (30_encoding.md R115, R116). -/
inductive Illegal where
  | reservedBits     -- a nonzero RSV bit
  | reservedOpcode   -- OP 0x0D to 0xFF
  | nlmsAbsent       -- OP 0x0A with HAS_NLMS false
  | reservedFmt      -- FMT = 3
  | fmtNotAllowed    -- FMT nonzero on a command without one
deriving DecidableEq, Repr

/-- The command an opcode and a legal format name, where the opcode takes that format (30_encoding.md R114). -/
def decodeOp (op : Nat) (fmt : Fmt) : Except Illegal Instr :=
  match op, fmt with
  | 0x08, f => .ok (.normq f)
  | 0x0A, f => .ok (.nlms f)
  | 0x0B, f => .ok (.schroeder f)
  | 0x00, .real64 => .ok .nop
  | 0x01, .real64 => .ok .fft
  | 0x02, .real64 => .ok .ifft
  | 0x03, .real64 => .ok .tspUp
  | 0x04, .real64 => .ok .tspDown
  | 0x05, .real64 => .ok .tspgen
  | 0x06, .real64 => .ok .load16
  | 0x07, .real64 => .ok .deconvMul
  | 0x09, .real64 => .ok .deconv
  | 0x0C, .real64 => .ok .decayFit
  | _, _ => .error .fmtNotAllowed

/-- Decode of CMD[31:0], with the tests in the order of 30_encoding.md R115. -/
def decodeCmd (c : Config) (w : BitVec 32) : Except Illegal Instr :=
  if (w.extractLsb' 10 22).toNat ≠ 0 then .error .reservedBits
  else
    let op := (w.extractLsb' 0 8).toNat
    if 0x0C < op then .error .reservedOpcode
    else if op = 0x0A ∧ c.hasNlms = false then .error .nlmsAbsent
    else
      match decodeFmt (w.extractLsb' 8 2).toNat with
      | none => .error .reservedFmt
      | some fmt => decodeOp op fmt

/-- The command of a legal word, `none` for an illegal one. -/
def decode (c : Config) (w : BitVec 32) : Option Instr :=
  match decodeCmd c w with
  | .ok i => some i
  | .error _ => none

/-- The value of the FMT field (30_encoding.md R111). -/
def encodeFmt (f : Fmt) : Nat :=
  match f with
  | .real64 => 0
  | .pcm16 => 1
  | .cplx128 => 2

/-- The opcode of a command (30_encoding.md R114). -/
def Instr.opcode (i : Instr) : Nat :=
  match i with
  | .nop => 0x00
  | .fft => 0x01
  | .ifft => 0x02
  | .tspUp => 0x03
  | .tspDown => 0x04
  | .tspgen => 0x05
  | .load16 => 0x06
  | .deconvMul => 0x07
  | .normq _ => 0x08
  | .deconv => 0x09
  | .nlms _ => 0x0A
  | .schroeder _ => 0x0B
  | .decayFit => 0x0C

/-- The format field of a command; 0 for a command without one. -/
def Instr.fmtField (i : Instr) : Nat :=
  match i with
  | .normq f => encodeFmt f
  | .nlms f => encodeFmt f
  | .schroeder f => encodeFmt f
  | .nop => 0
  | .fft => 0
  | .ifft => 0
  | .tspUp => 0
  | .tspDown => 0
  | .tspgen => 0
  | .load16 => 0
  | .deconvMul => 0
  | .deconv => 0
  | .decayFit => 0

/-- The command word `(FMT << 8) | OP` (30_encoding.md R117). -/
def encode (i : Instr) : BitVec 32 := BitVec.ofNat 32 (i.fmtField * 256 + i.opcode)

/-- What the decoder reads from a word whose bits are w, on a core with this hardware's parameters. A command word is
one 32-bit word; the bits above nbits are 0. -/
def decodeTableWord (nbits w : Nat) : Option Instr :=
  decode Config.thisHardware (BitVec.ofNat 32 (w % 2 ^ nbits))

end Sys2Proof
end

