-- ==== Sys2Proof/Machine/Flags.lean ====
section
/-!
DEFINITION. The register block as the host reads and writes it: ID, CTRL, STATUS, CMD, ARG, RES (10_state.md R31-R41),
and the interrupt output (10_state.md R46, 60_exceptions.md R307).
-/

namespace Sys2Proof.Machine

/-- The ID register, a constant of the configuration (10_state.md R33). DMEM_KIB is 32 bits wide (log 9). -/
def idWord (c : Config) : Word :=
  BitVec.ofNat 32 (c.dmemSize / 1024) ++ 0#5 ++ BitVec.ofBool (decide (c.qround = .nearestEven)) ++
    BitVec.ofBool (decide (c.fwdSign = .minus)) ++ BitVec.ofBool c.hasNlms ++ BitVec.ofNat 8 c.log2nMax ++ 0x0001#16

/-- CTRL: START reads 0, IE is bit 1 (10_state.md R34). -/
def State.ctrlWord (s : State) : Word := 0#62 ++ BitVec.ofBool s.ie ++ 0#1

/-- STATUS (10_state.md R35). -/
def State.statusWord (s : State) : Word :=
  0#40 ++ s.lastOp ++ s.errCode.code ++ 0#5 ++ BitVec.ofBool s.err ++ BitVec.ofBool s.done ++
    BitVec.ofBool (decide (s.phase = .busy))

/-- CMD: bits 63:32 read 0 (10_state.md R37). -/
def State.cmdWord (s : State) : Word := 0#32 ++ s.cmd

/-- The interrupt output: the level DONE and IE (10_state.md R46). -/
def State.irq (s : State) : Bool := s.done && s.ie

/-- ARGn. -/
def Args.get (a : Args) (n : Fin 8) : Word :=
  match n with
  | 0 => a.a0
  | 1 => a.a1
  | 2 => a.a2
  | 3 => a.a3
  | 4 => a.a4
  | 5 => a.a5
  | 6 => a.a6
  | 7 => a.a7

/-- ARGn replaced. -/
def Args.set (a : Args) (n : Fin 8) (v : Word) : Args :=
  match n with
  | 0 => { a with a0 := v }
  | 1 => { a with a1 := v }
  | 2 => { a with a2 := v }
  | 3 => { a with a3 := v }
  | 4 => { a with a4 := v }
  | 5 => { a with a5 := v }
  | 6 => { a with a6 := v }
  | 7 => { a with a7 := v }

/-- RESn. -/
def Results.get (r : Results) (n : Fin 4) : Word :=
  match n with
  | 0 => r.r0
  | 1 => r.r1
  | 2 => r.r2
  | 3 => r.r3

/-- The registers of the block (10_state.md R31). -/
inductive Reg where
  | id
  | ctrl
  | status
  | cmd
  | arg (n : Fin 8)
  | res (n : Fin 4)
  | reserved
deriving DecidableEq, Repr

/-- The register at an 8-byte-aligned offset below 256 (10_state.md R31); 0x80 to 0xF8 are reserved. -/
def regAt (off : Nat) : Reg :=
  match off / 8 with
  | 0 => .id
  | 1 => .ctrl
  | 2 => .status
  | 3 => .cmd
  | 4 => .arg 0
  | 5 => .arg 1
  | 6 => .arg 2
  | 7 => .arg 3
  | 8 => .arg 4
  | 9 => .arg 5
  | 10 => .arg 6
  | 11 => .arg 7
  | 12 => .res 0
  | 13 => .res 1
  | 14 => .res 2
  | 15 => .res 3
  | _ => .reserved

/-- What a register reads as; no read has a side effect (10_state.md R32). -/
def State.readRegister (s : State) (r : Reg) : Word :=
  match r with
  | .id => idWord s.config
  | .ctrl => s.ctrlWord
  | .status => s.statusWord
  | .cmd => s.cmdWord
  | .arg n => s.args.get n
  | .res n => s.res.get n
  | .reserved => 0#64

/-- A write of CTRL sets IE first, then starts if START is 1 and the phase is IDLE; START while BUSY is dropped
(10_state.md R34). -/
def State.writeCtrl (s : State) (v : Word) : State :=
  let t := { s with ie := v.getLsbD 1 }
  if v.getLsbD 0 ∧ s.phase = .idle then t.acceptStart else t

/-- A write of STATUS clears DONE when its bit 1 is 1, with no effect while BUSY (10_state.md R36). -/
def State.writeStatus (s : State) (v : Word) : State :=
  if v.getLsbD 1 ∧ s.phase = .idle then { s with done := false } else s

/-- A register write: CMD and ARG writes while BUSY are ignored; ID, RES and reserved offsets ignore every write
(10_state.md R33, R37-R40). -/
def State.writeRegister (s : State) (r : Reg) (v : Word) : State :=
  match r with
  | .id => s
  | .ctrl => s.writeCtrl v
  | .status => s.writeStatus v
  | .cmd => if s.phase = .busy then s else { s with cmd := v.setWidth 32 }
  | .arg n => if s.phase = .busy then s else { s with args := s.args.set n v }
  | .res _ => s
  | .reserved => s

end Sys2Proof.Machine
end

