-- ==== Sys2Proof/Machine/Footprint.lean ====
section
/-!
DEFINITION. What a command checks and which buffers it writes, by command (30_encoding.md R112, 20_memory.md R95); what a
reset while BUSY leaves of them (70_reset_and_hazards.md R341).
-/

namespace Sys2Proof.Machine

/-- The checks of a command after decode (60_exceptions.md R302, R303): the first failing one's code. -/
def commandCheck (i : Instr) (s : State) : Option ErrCode :=
  match i with
  | .nop => none
  | .fft => fftCheck s
  | .ifft => ifftCheck s
  | .tspUp => tspUpCheck s
  | .tspDown => tspDownCheck s
  | .tspgen => tspgenCheck s
  | .load16 => load16Check s
  | .deconvMul => deconvMulCheck s
  | .normq fmt => normqCheck fmt s
  | .deconv => deconvCheck s
  | .nlms fmt => nlmsCheck fmt s
  | .schroeder fmt => schroederCheck fmt s
  | .decayFit => decayFitCheck s

/-- What a command leaves once its checks have passed. -/
def commandFinish (i : Instr) (s : State) : Finish :=
  match i with
  | .nop => nopFinish s
  | .fft => fftFinish s
  | .ifft => ifftFinish s
  | .tspUp => tspUpFinish s
  | .tspDown => tspDownFinish s
  | .tspgen => tspgenFinish s
  | .load16 => load16Finish s
  | .deconvMul => deconvMulFinish s
  | .normq fmt => normqFinish fmt s
  | .deconv => deconvFinish s
  | .nlms fmt => nlmsFinish fmt s
  | .schroeder fmt => schroederFinish fmt s
  | .decayFit => decayFitFinish s

/-- The buffers a command writes: its destinations and, for TSPGEN and DECONV, its work buffer. -/
def writtenBuffers (i : Instr) (s : State) : List Buffer :=
  match i with
  | .nop => []
  | .fft => [s.fftBuf]
  | .ifft => [s.fftBuf]
  | .tspUp => [s.fftBuf]
  | .tspDown => [s.fftBuf]
  | .tspgen => [s.tspgenDst, s.tspgenWork]
  | .load16 => [s.fftBuf]
  | .deconvMul => [s.fftBuf]
  | .normq _ => [s.normqDst]
  | .deconv => [s.deconvDst, s.deconvWork]
  | .nlms _ => [s.nlmsH, s.nlmsLine]
  | .schroeder _ => [s.schroederDst]
  | .decayFit => []

/-- The address lies in a buffer the command writes. -/
def writes (i : Instr) (s : State) (a : Nat) : Bool := (writtenBuffers i s).any fun b => b.holds a

/-- The buffers the command of a word writes; none for an illegal word or a command that fails its checks, which write
nothing (60_exceptions.md R304). -/
def outputBuffers (i : Option Instr) (s : State) : List Buffer :=
  match i with
  | some i => if commandCheck i s = none then writtenBuffers i s else []
  | none => []

/-- The buffers a reset leaves unspecified: those the running command writes; none when IDLE
(70_reset_and_hazards.md R341). -/
def abandonedBuffers (i : Option Instr) (s : State) : List Buffer :=
  match s.phase with
  | .busy => outputBuffers i s
  | .idle => []

/-- Every byte of the buffers replaced by a free value of the n-th draw (70_reset_and_hazards.md R341). -/
def scramble (n : Nat) (bufs : List Buffer) (m : Memory) : Memory :=
  bufs.foldl
    (fun m b => Memory.writeBytes m b.base ((List.range b.bytes).map fun j => Config.abandonedByte n (b.base + j))) m

end Sys2Proof.Machine
end

