-- ==== Sys2Proof/Machine/HostPort.lean ====
section
/-!
DEFINITION. The host's turns: register and DMEM accesses, WAIT and CHECK, and the platform's reset (10_state.md R32,
20_memory.md R86, R96, 30_encoding.md R119, 70_reset_and_hazards.md R340, R341, R345).
-/

namespace Sys2Proof.Machine

/-- Duty H1: 8 bytes wide, 8-byte aligned, inside the 256-byte block (70_reset_and_hazards.md R345). -/
def registerAccessOk (off width : Nat) : Bool := decide (width = 8) && decide (off % 8 = 0) && decide (off < 256)

/-- Duty H2: 1, 2, 4 or 8 bytes, naturally aligned, below DMEM_SIZE (70_reset_and_hazards.md R345). -/
def portAccessOk (size addr width : Nat) : Bool :=
  (decide (width = 1) || decide (width = 2) || decide (width = 4) || decide (width = 8)) &&
    decide (addr % width = 0) && decide (addr + width ≤ size)

/-- Why a host-port DMEM access is refused, if it is: duties H2 and H3. -/
def portRefusal (s : State) (addr width : Nat) : Option Refusal :=
  if !portAccessOk s.config.dmemSize addr width then some .portAccess
  else if s.phase = .busy then some .portWhileBusy
  else none

/-! Duty H6 (70_reset_and_hazards.md R345, log 7): once a command has completed, its results, the RES registers and the
buffers it writes, are not the host's to read before it has read STATUS with DONE = 1; a START in between is no such read
(20_memory.md R91). While BUSY a RES read is legal (R344) and a DMEM access is against duty H3. -/

/-- The byte has been written over since the command completed, by the host or by the draws of a reset. -/
def Unread.overwritten (p : Unread) (a : Nat) : Bool := p.rewritten.any fun b => decide (b.1 ≤ a) && decide (a < b.1 + b.2)

/-- The host writes n bytes from address a: they are no results any more. -/
def Unread.overwrite (a n : Nat) (p : Unread) : Unread := { p with rewritten := (a, n) :: p.rewritten }

/-- The state with the word and the operands of another command. -/
def State.startedAs (s : State) (p : Unread) : State := { s with cmd := p.cmd, args := p.args }

/-- The byte at a is a result of an unread command: it lies in a buffer the command writes. -/
def State.unreadByte (s : State) (a : Nat) : Bool :=
  s.unread.any fun p =>
    !p.overwritten a && (outputBuffers (decode s.config p.cmd) (s.startedAs p)).any fun b => b.holds a

/-- One of the n bytes from addr on is. -/
def State.unreadBytes (s : State) (addr n : Nat) : Bool := (List.range n).any fun j => s.unreadByte (addr + j)

/-- The read of a register is against duty H6. -/
def State.unreadRegister (s : State) (r : Reg) : Bool :=
  match r with
  | .res _ => s.unread.any Unread.res && decide (s.phase = .idle)
  | _ => false

/-- What a reset leaves unread: the buffers of completed commands, but for the bytes that an abandoned one writes too, which
are draws now; not the abandoned command, the newest while BUSY; and no RES register. DEDUCED (log 7). -/
def State.unreadAfterReset (s : State) : List Unread :=
  let drawn := (abandonedBuffers (decode s.config s.cmd) s).map fun b => (b.base, b.bytes)
  (if s.phase = .busy then s.unread.tail else s.unread).map fun p =>
    { p with res := false, rewritten := drawn ++ p.rewritten }

/-- A word for the host. -/
def State.answer (s : State) (w : Word) : State := { s with readData := w }

/-- A read of STATUS: with DONE = 1 the results are the host's to read from now on. -/
def State.answerStatus (s : State) : State := { s.answer s.statusWord with unread := if s.done then [] else s.unread }

/-- What the read of a register leaves in a state that duty H6 does not speak against: the core itself is unchanged, no
read has a side effect (10_state.md R32). -/
def State.answerRegister (s : State) (r : Reg) : State :=
  if r = .status then s.answerStatus else s.answer (s.readRegister r)

/-- A register-block read: the word goes to the host (10_state.md R32). -/
def State.hostReadReg (s : State) (off width : Nat) : Host.Outcome State Fault Refusal :=
  if !registerAccessOk off width then .refused .registerAccess
  else if s.unreadRegister (regAt off) then .refused .resultBeforeDone
  else .next (s.answerRegister (regAt off))

/-- A register-block write (10_state.md R32). -/
def State.hostWriteReg (s : State) (off width : Nat) (v : Word) : Host.Outcome State Fault Refusal :=
  if registerAccessOk off width then .next (s.writeRegister (regAt off) v) else .refused .registerAccess

/-- A DMEM read through the host port (20_memory.md R86). -/
def State.hostReadMem (s : State) (addr width : Nat) : Host.Outcome State Fault Refusal :=
  match portRefusal s addr width with
  | some r => .refused r
  | none =>
    if s.unreadBytes addr width then .refused .resultBeforeDone
    else .next (s.answer (BitVec.ofNat 64 (Memory.memRead s.dmem addr width)))

/-- A DMEM write through the host port (20_memory.md R86); the bytes written are the host's own from now on. -/
def State.hostWriteMem (s : State) (addr width : Nat) (v : Word) : Host.Outcome State Fault Refusal :=
  match portRefusal s addr width with
  | some r => .refused r
  | none =>
    .next { s with
      dmem := Memory.memWrite s.dmem addr width v.toNat
      unread := s.unread.map (Unread.overwrite addr width) }

/-- CHECK: read STATUS; the program fails if ERR = 1 (30_encoding.md R119). The failure is recorded and the accesses go
on, as in program P4 of 95_test_vectors.md (log 15). -/
def State.hostCheck (s : State) : State := { s.answerStatus with checkFailed := s.checkFailed || s.err }

/-- Reset with power held (70_reset_and_hazards.md R340, R341): every register at its reset value, the engine IDLE with
nothing hidden left, DMEM unchanged but for the abandoned command's written buffers. -/
def State.resetHeld (s : State) : State :=
  { s with
    ie := false
    phase := .idle
    done := false
    err := false
    errCode := .ok
    lastOp := 0#8
    cmd := 0#32
    args := Args.zero
    res := Results.zero
    dmem := scramble s.draws (abandonedBuffers (decode s.config s.cmd) s) s.dmem
    delay := 0
    draws := s.draws + 1
    unread := s.unreadAfterReset }

/-- One access, on the state it finds. -/
def State.perform (s : State) (a : HostAction) : Host.Outcome State Fault Refusal :=
  match a with
  | .readReg off width => s.hostReadReg off width
  | .writeReg off width v => s.hostWriteReg off width v
  | .readMem addr width => s.hostReadMem addr width
  | .writeMem addr width v => s.hostWriteMem addr width v
  | .waitDone => .next s.answerStatus
  | .check => .next s.hostCheck
  | .reset => .next s.resetHeld

/-- WAIT goes on polling until it reads DONE = 1; every other access is done once (30_encoding.md R119). -/
def State.repeats (s : State) (a : HostAction) : Bool := decide (a = .waitDone) && !s.done

/-- The host's turn: its next access, which also uses up one turn of a running command; nothing when it has none left. -/
def State.hostTurn (s : State) : Host.Outcome State Fault Refusal :=
  match s.host with
  | [] => .next s
  | a :: rest => ({ s with host := if s.repeats a then s.host else rest, delay := s.delay - 1 } : State).perform a

/-- Whether the engine moves next while BUSY: the running command's duration is over, the host has nothing left to do
(00_scope.md R17, 70_reset_and_hazards.md R348), or the word is illegal, which completes at once (30_encoding.md R115,
log 14). -/
def State.engineTurn (s : State) : Bool :=
  decide (s.phase = .busy) && (decide (s.delay = 0) || s.host.isEmpty || (decode s.config s.cmd).isNone)

/-- An illegal command word completes at once with ILLEGAL_CMD and no other effect (30_encoding.md R115). -/
def execIllegal (s : State) : Host.Outcome State Fault Refusal := s.runCommand (some .illegalCmd) fun t => t.succeed t.dmem

end Sys2Proof.Machine
end

