-- ==== Sys2Proof/Machine/Step.lean ====
section
/-!
DEFINITION. One step of the core: the engine runs the command in CMD as one atomic step, or the host has its turn
(00_scope.md R16, R17, 20_memory.md R90).
-/

namespace Sys2Proof.Machine

/-- The engine's step: decode CMD and run the command (10_state.md R47). -/
def engineStep (s : State) : Host.Outcome State Fault Refusal :=
  match decode s.config s.cmd with
  | some i => exec i s
  | none => execIllegal s

/-- One step. -/
def step (s : State) : Host.Outcome State Fault Refusal := if s.engineTurn then engineStep s else s.hostTurn

/-- s with the command word in CMD and START accepted, the command lasting no host turn, so that the next step runs it
(log 11). -/
def State.withFetchWord (s : State) (nbits w : Nat) : State :=
  ({ s with cmd := BitVec.ofNat 32 (w % 2 ^ nbits), delays := 0 :: s.delays } : State).acceptStart

end Sys2Proof.Machine
end

