-- ==== Sys2Proof/Machine/Assembler.lean ====
section
/-!
DEFINITION. The assembly syntax and the pseudo-instructions: a line is the list of host accesses it assembles to
(30_encoding.md R118, R119). The lexical details R118 and R119 leave open are DESIGN CHOICE, listed in log 13.
-/

namespace Sys2Proof.Machine

/-- The operand names of 30_encoding.md R118. -/
inductive OperandName where
  | buf | log2n | dst | j | work | src | cnt | z | x | y | g | len | e | exc | m | resp | fsE | fsR
  | h | ns | lf | mu | beta | dline | curve | fs | startDb | endDb
deriving DecidableEq, Repr

/-- The ARG register of a command's operand (30_encoding.md R112, R118); `none` for a name the command does not have. -/
def operandArg (i : Instr) (o : OperandName) : Option (Fin 8) :=
  match i, o with
  | .fft, .buf => some 0
  | .fft, .log2n => some 1
  | .ifft, .buf => some 0
  | .ifft, .log2n => some 1
  | .tspUp, .dst => some 0
  | .tspUp, .log2n => some 1
  | .tspDown, .dst => some 0
  | .tspDown, .log2n => some 1
  | .tspDown, .j => some 2
  | .tspgen, .dst => some 0
  | .tspgen, .log2n => some 1
  | .tspgen, .work => some 2
  | .load16, .dst => some 0
  | .load16, .log2n => some 1
  | .load16, .src => some 2
  | .load16, .cnt => some 3
  | .deconvMul, .z => some 0
  | .deconvMul, .log2n => some 1
  | .deconvMul, .x => some 2
  | .deconvMul, .y => some 3
  | .deconvMul, .g => some 4
  | .normq _, .dst => some 0
  | .normq _, .len => some 1
  | .normq _, .src => some 2
  | .deconv, .dst => some 0
  | .deconv, .e => some 1
  | .deconv, .exc => some 2
  | .deconv, .m => some 3
  | .deconv, .resp => some 4
  | .deconv, .fsE => some 5
  | .deconv, .fsR => some 5
  | .deconv, .work => some 6
  | .nlms _, .h => some 0
  | .nlms _, .ns => some 1
  | .nlms _, .x => some 2
  | .nlms _, .y => some 3
  | .nlms _, .lf => some 4
  | .nlms _, .mu => some 5
  | .nlms _, .beta => some 6
  | .nlms _, .dline => some 7
  | .schroeder _, .dst => some 0
  | .schroeder _, .len => some 1
  | .schroeder _, .src => some 2
  | .decayFit, .len => some 1
  | .decayFit, .curve => some 2
  | .decayFit, .fs => some 3
  | .decayFit, .startDb => some 4
  | .decayFit, .endDb => some 5
  | _, _ => none

/-- A command line: the command and its operands as they are given. -/
structure AsmLine where
  instr : Instr
  operands : List (OperandName × Word)
deriving DecidableEq, Repr

/-- A statement: a command line or a pseudo-instruction (30_encoding.md R119). -/
inductive Stmt where
  | line (l : AsmLine)
  | wait
  | clrDone
  | ie (on : Bool)
  | check
  | t10 (fmt : Fmt) (dst len src fs : Word)
  | t20 (fmt : Fmt) (dst len src fs : Word)
  | mov (n : Fin 8) (v : Word)
deriving DecidableEq, Repr

/-! ### Expansion -/

/-- `ARGn <- v`. -/
def writeArg (n : Fin 8) (v : Word) : HostAction := .writeReg (0x20 + 8 * n.val) 8 v

/-- The value of an operand in the list, if it is given. -/
def operandValue (o : OperandName) (ops : List (OperandName × Word)) : Option Word :=
  (ops.find? fun p => decide (p.1 = o)).map Prod.snd

/-- The write of one operand: DECONV's two rates make one write of ARG5, at the place of fs_e, and need both; an
operand the command does not have is an error (log 13). -/
def operandWrites (i : Instr) (ops : List (OperandName × Word)) (o : OperandName) (v : Word) : Option (List HostAction) :=
  match operandArg i o with
  | none => none
  | some n =>
    match o with
    | .fsE => (operandValue .fsR ops).map fun (r : Word) => [writeArg n (v ||| (r <<< (32 : Nat)))]
    | .fsR => (operandValue .fsE ops).map fun _ => []
    | _ => some [writeArg n v]

/-- The writes of a list of operands, in the order given. -/
def operandsWrites (i : Instr) (all : List (OperandName × Word)) : List (OperandName × Word) → Option (List HostAction)
  | [] => some []
  | (o, v) :: rest =>
    match operandWrites i all o v, operandsWrites i all rest with
    | some a, some b => some (a ++ b)
    | _, _ => none

/-- The value a line writes to CTRL: `0x1 | (IE << 1)` (30_encoding.md R118). -/
def startWord (ie : Bool) : Word := if ie then 0x3#64 else 0x1#64

/-- A command line (30_encoding.md R118): the operand writes, CMD, CTRL, then WAIT. -/
def assembleLine (ie : Bool) (l : AsmLine) : Option (List HostAction) :=
  (operandsWrites l.instr l.operands l.operands).map fun ws =>
    ws ++ [.writeReg 0x18 8 ((encode l.instr).setWidth 64), .writeReg 0x08 8 (startWord ie), .waitDone]

/-- −5.0, −15.0 and −25.0, the window values of T10 and T20 (30_encoding.md R119). -/
def minusFive : Word := 0xC014000000000000#64
def minusFifteen : Word := 0xC02E000000000000#64
def minusTwentyFive : Word := 0xC039000000000000#64

/-- T10 and T20: the SCHROEDER and DECAY_FIT lines they expand to (30_encoding.md R119). -/
def decayLines (fmt : Fmt) (dst len src fs stop : Word) : List AsmLine :=
  [⟨.schroeder fmt, [(.dst, dst), (.len, len), (.src, src)]⟩,
   ⟨.decayFit, [(.len, len), (.curve, dst), (.fs, fs), (.startDb, minusFive), (.endDb, stop)]⟩]

/-- Lines one after another. -/
def assembleLines (ie : Bool) : List AsmLine → Option (List HostAction)
  | [] => some []
  | l :: ls =>
    match assembleLine ie l, assembleLines ie ls with
    | some a, some b => some (a ++ b)
    | _, _ => none

/-- One statement under the current IE choice (30_encoding.md R119). -/
def assembleStmt (ie : Bool) (t : Stmt) : Option (List HostAction) :=
  match t with
  | .line l => assembleLine ie l
  | .wait => some [.waitDone]
  | .clrDone => some [.writeReg 0x10 8 0x2#64]
  | .ie on => some [.writeReg 0x08 8 (if on then 0x2#64 else 0x0#64)]
  | .check => some [.check]
  | .t10 fmt dst len src fs => assembleLines ie (decayLines fmt dst len src fs minusFifteen)
  | .t20 fmt dst len src fs => assembleLines ie (decayLines fmt dst len src fs minusTwentyFive)
  | .mov n v => some [writeArg n v]

/-- The IE choice after a statement. -/
def nextIe (ie : Bool) (t : Stmt) : Bool :=
  match t with
  | .ie on => on
  | _ => ie

/-- A program: its statements' accesses, with the IE choice carried along (0 until the program sets it). -/
def assemble (ie : Bool) : List Stmt → Option (List HostAction)
  | [] => some []
  | t :: ts =>
    match assembleStmt ie t, assemble (nextIe ie t) ts with
    | some a, some b => some (a ++ b)
    | _, _ => none

/-! ### Text -/

/-- The pieces of a text between separators. -/
def splitAtChar (c : Char) : List Char → List (List Char)
  | [] => [[]]
  | d :: ds =>
    if d = c then [] :: splitAtChar c ds
    else
      match splitAtChar c ds with
      | [] => [[d]]
      | p :: ps => (d :: p) :: ps

/-- Leading and trailing spaces removed. -/
def trim (t : List Char) : List Char :=
  ((t.dropWhile fun c => c == ' ').reverse.dropWhile fun c => c == ' ').reverse

/-- The value of a digit in a base, if it is one. -/
def digitValue (base : Nat) (c : Char) : Option Nat :=
  let v :=
    if '0'.toNat ≤ c.toNat ∧ c.toNat ≤ '9'.toNat then c.toNat - '0'.toNat
    else if 'a'.toNat ≤ c.toNat ∧ c.toNat ≤ 'f'.toNat then c.toNat - 'a'.toNat + 10
    else if 'A'.toNat ≤ c.toNat ∧ c.toNat ≤ 'F'.toNat then c.toNat - 'A'.toNat + 10
    else base
  if v < base then some v else none

/-- The number of a digit string, from an accumulated value. -/
def digits (base : Nat) : Nat → List Char → Option Nat
  | acc, [] => some acc
  | acc, c :: cs =>
    match digitValue base c with
    | some v => digits base (acc * base + v) cs
    | none => none

/-- A nonempty digit string. -/
def number (base : Nat) (t : List Char) : Option Nat := if t.isEmpty then none else digits base 0 t

/-- The binary64 nearest to n × 10^up / 10^down, the bits of a decimal literal (30_encoding.md R118). -/
def decimal64 (neg : Bool) (n up down : Nat) : F64 :=
  let a := n * 10 ^ up * 2 ^ 1075
  Fp.round neg (2 * (a / 10 ^ down) + (if a % 10 ^ down = 0 then 0 else 1)) 2

/-- The exponent part of a decimal literal: (up, down), one of them 0. -/
def exponentPart (t : List Char) : Option (Nat × Nat) :=
  match t with
  | '-' :: ds => (number 10 ds).map fun k => (0, k)
  | '+' :: ds => (number 10 ds).map fun k => (k, 0)
  | ds => (number 10 ds).map fun k => (k, 0)

/-- The digits of a decimal literal before its exponent: the number without its point, and its fraction's length. -/
def mantissaPart (t : List Char) : Option (Nat × Nat) :=
  match splitAtChar '.' t with
  | [a] => (number 10 a).map fun n => (n, 0)
  | [a, b] => (number 10 (a ++ b)).map fun n => (n, b.length)
  | _ => none

/-- An unsigned binary64 literal, decimal with a point or an exponent (30_encoding.md R118). -/
def floatLiteral (neg : Bool) (t : List Char) : Option F64 :=
  match splitAtChar 'e' t with
  | [a] => (mantissaPart a).map fun p => decimal64 neg p.1 0 p.2
  | [a, b] =>
    match mantissaPart a, exponentPart b with
    | some p, some x => some (decimal64 neg p.1 x.1 (p.2 + x.2))
    | _, _ => none
  | _ => none

/-- An operand value: a 0x-hex or decimal integer below 2^64, or a binary64 literal (30_encoding.md R118). DESIGN CHOICE
(log 13): a minus sign stands only before a binary64 literal, so the integer `-1` is an error; hexadecimal digits are of
either case, after a lower-case `0x`. -/
def valueOf (t : List Char) : Option Word :=
  let int (n : Option Nat) : Option Word :=
    match n with
    | some v => if v < 2 ^ 64 then some (BitVec.ofNat 64 v) else none
    | none => none
  match t with
  | '0' :: 'x' :: ds => int (number 16 ds)
  | '-' :: ds => if ds.contains '.' || ds.contains 'e' then (floatLiteral true ds).map F64.bits else none
  | ds => if ds.contains '.' || ds.contains 'e' then (floatLiteral false ds).map F64.bits else int (number 10 ds)

/-- The operand names as they are spelled (30_encoding.md R118). -/
def operandNames : List (List Char × OperandName) :=
  [("buf".toList, .buf), ("log2n".toList, .log2n), ("dst".toList, .dst), ("j".toList, .j), ("work".toList, .work),
   ("src".toList, .src), ("cnt".toList, .cnt), ("z".toList, .z), ("x".toList, .x), ("y".toList, .y), ("g".toList, .g),
   ("len".toList, .len), ("e".toList, .e), ("exc".toList, .exc), ("m".toList, .m), ("resp".toList, .resp),
   ("fs_e".toList, .fsE), ("fs_r".toList, .fsR), ("h".toList, .h), ("ns".toList, .ns), ("lf".toList, .lf),
   ("mu".toList, .mu), ("beta".toList, .beta), ("dline".toList, .dline), ("curve".toList, .curve), ("fs".toList, .fs),
   ("start_db".toList, .startDb), ("end_db".toList, .endDb)]

/-- The entry of a spelling in a list. -/
def spelled {α : Type} (t : List Char) (l : List (List Char × α)) : Option α :=
  (l.find? fun p => decide (p.1 = t)).map Prod.snd

/-- `operand := name "=" value`. -/
def parseOperand (t : List Char) : Option (OperandName × Word) :=
  match splitAtChar '=' t with
  | [a, b] =>
    match spelled (trim a) operandNames, valueOf (trim b) with
    | some o, some v => some (o, v)
    | _, _ => none
  | _ => none

/-- A comma-separated operand list; an empty text has none. -/
def parseOperands (t : List Char) : Option (List (OperandName × Word)) :=
  if (trim t).isEmpty then some [] else (splitAtChar ',' t).mapM parseOperand

/-- `suffix := ".R64" | ".P16" | ".C128"`, the text after the point (30_encoding.md R118). A bare point is an error: the
grammar has no empty suffix. -/
def parseSuffix (t : List Char) : Option Fmt :=
  spelled t [("R64".toList, .real64), ("P16".toList, .pcm16), ("C128".toList, .cplx128)]

/-- A mnemonic with its format; a format other than FMT 0 only where the command has one (30_encoding.md R114). DESIGN
CHOICE (log 13): the suffix `.R64`, FMT 0, may stand after every command's mnemonic. -/
def parseMnemonic (t : List Char) (fmt : Fmt) : Option Instr :=
  match spelled t [("NORMQ".toList, .normq fmt), ("NLMS".toList, .nlms fmt), ("SCHROEDER".toList, .schroeder fmt)] with
  | some i => some i
  | none =>
    if fmt = .real64 then
      spelled t [("NOP".toList, .nop), ("FFT".toList, .fft), ("IFFT".toList, .ifft), ("TSP_UP".toList, .tspUp),
        ("TSP_DOWN".toList, .tspDown), ("TSPGEN".toList, .tspgen), ("LOAD16".toList, .load16),
        ("DECONV_MUL".toList, .deconvMul), ("DECONV".toList, .deconv), ("DECAY_FIT".toList, .decayFit)]
    else none

/-- The operands of T10 and T20: dst, len, src and fs (30_encoding.md R119). DESIGN CHOICE (log 13): each must be given
once, in any order, and nothing else. -/
def decayOperands (ops : List (OperandName × Word)) : Option (Word × Word × Word × Word) :=
  match operandValue .dst ops, operandValue .len ops, operandValue .src ops, operandValue .fs ops with
  | some d, some l, some s, some f => if ops.length = 4 then some (d, l, s, f) else none
  | _, _, _, _ => none

/-- The register of `MOV argN, v`. -/
def parseArgName (t : List Char) : Option (Fin 8) :=
  match t with
  | ['a', 'r', 'g', c] => (digitValue 8 c).map fun v => Fin.ofNat 8 v
  | _ => none

/-- `MOV argN, v` (30_encoding.md R119). -/
def parseMov (t : List Char) : Option Stmt :=
  match splitAtChar ',' t with
  | [a, b] =>
    match parseArgName (trim a), valueOf (trim b) with
    | some n, some v => some (.mov n v)
    | _, _ => none
  | _ => none

/-- `IE on` and `IE off` (30_encoding.md R119). -/
def parseIe (t : List Char) : Option Stmt :=
  spelled (trim t) [("on".toList, .ie true), ("off".toList, .ie false)]

/-- A statement, given its mnemonic, its suffix's format if it has a suffix, and the text of its operands; without a
suffix the format is FMT 0 (30_encoding.md R118). DESIGN CHOICE (log 13): of the pseudo-instructions only T10 and T20 may
have a suffix. -/
def parseBody (name : List Char) (suffix : Option Fmt) (rest : List Char) : Option Stmt :=
  let fmt := suffix.getD .real64
  let plain (t : Option Stmt) : Option Stmt := if suffix.isNone then t else none
  let bare (t : Stmt) : Option Stmt := plain (if (trim rest).isEmpty then some t else none)
  let decay (f : Word → Word → Word → Word → Stmt) : Option Stmt :=
    match parseOperands rest with
    | some ops => (decayOperands ops).map fun p => f p.1 p.2.1 p.2.2.1 p.2.2.2
    | none => none
  if name = "WAIT".toList then bare .wait
  else if name = "CLRDONE".toList then bare .clrDone
  else if name = "CHECK".toList then bare .check
  else if name = "IE".toList then plain (parseIe rest)
  else if name = "MOV".toList then plain (parseMov rest)
  else if name = "T10".toList then decay (.t10 fmt)
  else if name = "T20".toList then decay (.t20 fmt)
  else
    match parseMnemonic name fmt, parseOperands rest with
    | some i, some ops => some (.line ⟨i, ops⟩)
    | _, _ => none

/-- The text of a line without its comment and its label (30_encoding.md R118). -/
def lineCode (t : List Char) : List Char :=
  match splitAtChar ':' (t.takeWhile fun c => c != ';') with
  | [_, b] => trim b
  | [a] => trim a
  | _ => trim t

/-- One line of assembly text; a line of only a label or a comment has no statement. `none` is an error. -/
def parseLine (t : List Char) : Option (List Stmt) :=
  let code := lineCode t
  if code.isEmpty then some []
  else
    let head := code.takeWhile fun c => c != ' '
    let rest := code.dropWhile fun c => c != ' '
    match splitAtChar '.' head with
    | [name] => (parseBody name none rest).map fun s => [s]
    | [name, suffix] =>
      match parseSuffix suffix with
      | some fmt => (parseBody name (some fmt) rest).map fun s => [s]
      | none => none
    | _ => none

/-- The accesses of a program given as lines of text, IE off at the start (30_encoding.md R118). -/
def assembleText (lines : List String) : Option (List HostAction) :=
  match lines.mapM fun l => parseLine l.toList with
  | some ts => assemble false ts.flatten
  | none => none

end Sys2Proof.Machine
end

