-- ==== Sys2Proof/Safety.lean ====
section
/-!
DEFINITION. What counts as a good state of the core, and the vocabulary the claims use: frames, completion, correct
rounding, the recursive form of the transform, and what DECONV and TSPGEN compute as plain lists.
-/

namespace Sys2Proof.Machine

open Sys2Proof.Fp

/-! ### States -/

/-- The states the core keeps to: a legal configuration (00_scope.md R6); DMEM in canonical form and inside DMEM_SIZE
(10_state.md R42); STATUS.ERR set exactly with a nonzero ERRCODE (60_exceptions.md R306); and, while BUSY, what START
acceptance left (10_state.md R35, R47, 70_reset_and_hazards.md R344): DONE and ERR 0, RES0 to RES3 0, LASTOP the opcode
of CMD, and the running command the newest whose results are unread (log 7). -/
structure State.Inv (s : State) : Prop where
  configLegal : s.config.legal = true
  memWf : Memory.wf s.dmem = true
  memBelow : Memory.below s.config.dmemSize s.dmem = true
  errAgrees : s.err = decide (s.errCode ≠ .ok)
  busyFresh : s.phase = .busy →
    s.done = false ∧ s.err = false ∧ s.res = Results.zero ∧ s.lastOp = s.cmd.extractLsb' 0 8 ∧
      s.unread.head? = some ⟨s.cmd, s.args, true, []⟩

/-- Everything a command never writes (10_state.md R41): the configuration, CTRL.IE, CMD, ARG0 to ARG7, LASTOP, and the
model's own fields. -/
structure SameOutside (s t : State) : Prop where
  config : t.config = s.config
  ie : t.ie = s.ie
  lastOp : t.lastOp = s.lastOp
  cmd : t.cmd = s.cmd
  args : t.args = s.args
  readData : t.readData = s.readData
  host : t.host = s.host
  delay : t.delay = s.delay
  delays : t.delays = s.delays
  draws : t.draws = s.draws
  unread : t.unread = s.unread
  checkFailed : t.checkFailed = s.checkFailed

/-- STATUS right after a completion with code c (60_exceptions.md R306). -/
structure CompletedWith (c : ErrCode) (t : State) : Prop where
  phase : t.phase = .idle
  done : t.done = true
  err : t.err = decide (c ≠ .ok)
  errCode : t.errCode = c

/-- Every byte outside the n bytes from address b reads as before. -/
def SameMemoryBut (s t : State) (b n : Nat) : Prop :=
  ∀ a, (a < b ∨ b + n ≤ a) → Memory.read t.dmem a = Memory.read s.dmem a

/-- Every byte outside both of two blocks reads as before. -/
def SameMemoryButTwo (s t : State) (b n c k : Nat) : Prop :=
  ∀ a, (a < b ∨ b + n ≤ a) → (a < c ∨ c + k ≤ a) → Memory.read t.dmem a = Memory.read s.dmem a

/-- Every byte reads as before. -/
def SameMemory (s t : State) : Prop := ∀ a, Memory.read t.dmem a = Memory.read s.dmem a

/-- A block of n bytes at b, n > 0, is aligned and inside DMEM (20_memory.md R83, R84). -/
abbrev Placed (s : State) (align b n : Nat) : Prop := b % align = 0 ∧ b + n ≤ s.config.dmemSize

/-- Two blocks share no byte (20_memory.md R85). -/
abbrev Apart (b n c k : Nat) : Prop := n = 0 ∨ k = 0 ∨ b + n ≤ c ∨ c + k ≤ b

/-! ### Rounding (00_scope.md R10) -/

/-- r is the exact value y rounded to nearest, ties to even: finite and no finite binary64 is nearer, an equally near
different one leaving r's last significand bit 0; or infinite, for a magnitude from half a spacing above the largest
finite one. A nonzero y gives its sign. -/
def RoundsTo (y : ℚ) (r : F64) : Prop :=
  ((r.isFinite = true ∧ |y| < 2 ^ 1024 - 2 ^ 970 ∧
      ∀ z : F64, z.isFinite = true → |r.toRat - y| ≤ |z.toRat - y| ∧
        (z.toRat ≠ r.toRat → |r.toRat - y| = |z.toRat - y| → r.bits.toNat % 2 = 0)) ∨
    (r.isInf = true ∧ 2 ^ 1024 - 2 ^ 970 ≤ |y|)) ∧
  (y ≠ 0 → r.sign = decide (y < 0))

/-- r is an integer nearest to v, an even one where two are equally near. -/
def NearestInteger (v : ℚ) (r : Int) : Prop :=
  ∀ n : Int, |(r : ℚ) - v| ≤ |(n : ℚ) - v| ∧ (n ≠ r → |(r : ℚ) - v| = |(n : ℚ) - v| → r % 2 = 0)

/-! ### The transform, recursively (40_transform.md R142) -/

/-- Elements 0, 2, 4, … of a list. -/
def evens : List Cplx → List Cplx
  | [] => []
  | [z] => [z]
  | z :: _ :: zs => z :: evens zs

/-- Elements 1, 3, 5, … of a list. -/
def odds (a : List Cplx) : List Cplx := evens a.tail

/-- The running twiddle after j butterflies: the j-fold rounded product (40_transform.md R141). -/
def runningTwiddle (wl : Cplx) : Nat → Cplx
  | 0 => cone
  | j + 1 => cmul (runningTwiddle wl j) wl

/-- The other twiddle sign. -/
def opposite (f : FwdSign) : FwdSign :=
  match f with
  | .plus => .minus
  | .minus => .plus

/-! ### What the composites compute -/

/-- The complex time-domain excitation TSPGEN leaves in work (41_tsp.md R175). -/
def tspgenSignal (s : State) : List Cplx :=
  transform s.config.fwdSign s.log2n true (spectrum s.points (thetaUp s.points))

/-- The first of the response samples DECONV uses (42_deconv.md R206). -/
def deconvRespStart (s : State) : Nat :=
  if 2 * s.excCount ≤ s.respCount then s.args.a4.toNat + 2 * s.excCount else s.args.a4.toNat

/-- How many response samples DECONV uses (42_deconv.md R206). -/
def deconvRespUsed (s : State) : Nat :=
  if 2 * s.excCount ≤ s.respCount then s.respCount - s.excCount else s.respCount

/-- X, the excitation spectrum (42_deconv.md R207 steps 2 and 4). -/
def deconvX (s : State) : List Cplx :=
  transform s.config.fwdSign s.deconvLog false
    ((List.range s.deconvSize).map (loadedElem s.config s.dmem s.args.a2.toNat s.excCount))

/-- Y, the response spectrum (42_deconv.md R207 steps 2, 3 and 4). -/
def deconvY (s : State) : List Cplx :=
  transform s.config.fwdSign s.deconvLog false
    ((List.range s.deconvSize).map (loadedElem s.config s.dmem (deconvRespStart s) (deconvRespUsed s)))

/-- G, the inverse-filter spectrum (42_deconv.md R207 step 5). -/
def deconvG (s : State) : List Cplx := spectrum s.deconvSize (phiDown s.deconvSize (s.excCount / 2))

/-- The complex impulse response (42_deconv.md R207 steps 6 and 7). -/
def deconvResponse (s : State) : List Cplx :=
  transform s.config.fwdSign s.deconvLog true
    ((List.range s.deconvSize).map fun k =>
      guardedBin s.config ((deconvX s).getD k czero) ((deconvY s).getD k czero) ((deconvG s).getD k czero))

/-- The window scan found start and fin (44_decay.md R265), on the values of curve. -/
def WindowFound (curve : Nat → F64) (count : Nat) (startDb endDb : F64) (start fin : Nat) : Prop :=
  start < fin ∧ fin < count ∧
  (le endDb (curve start) = true ∧ le (curve start) startDb = true) ∧
  (∀ i, i < start → ¬ (le endDb (curve i) = true ∧ le (curve i) startDb = true)) ∧
  le (curve fin) endDb = true ∧
  (∀ i, start < i → i < fin → le (curve i) endDb = false)

end Sys2Proof.Machine
end

