-- ==== Sys2Proof/Certificates/Slice0/Obligations.lean ====
section
/-!
DEFINITION. The statements for the provers. Each docstring names the rules of spec/ it formalises.
-/

open Sys2Proof Sys2Proof.Machine Sys2Proof.Fp

/-! ### Encoding -/

/-- 30_encoding.md R110, R115, R117: decode of encode is the command, for every command of every configuration that has
it. -/
def Obligations.DecodeOfEncode : Prop :=
  ∀ (c : Config) (i : Instr), i.wellFormed c = true → decode c (encode i) = some i

/-- 30_encoding.md R115, R116: a word decodes to one command, whose word it is, and which the configuration has: no bit
of a legal word is dropped and no other word means it. -/
def Obligations.EncodeOfDecode : Prop :=
  ∀ (c : Config) (w : BitVec 32) (i : Instr), decode c w = some i → encode i = w ∧ i.wellFormed c = true

/-- 30_encoding.md R115: exactly which words are legal; and an illegal word in CMD completes with ILLEGAL_CMD and no other
effect. That it does so in the very next step, before any further access of the host and whatever duration was drawn, is
the model's reading of "at once" (log 14). -/
def Obligations.LegalWordsAndIllegalCompletion : Prop :=
  (∀ (c : Config) (w : BitVec 32),
    ((decode c w).isSome = true ↔
      w.toNat / 2 ^ 10 = 0 ∧ w.toNat % 2 ^ 8 ≤ 0x0C ∧ (w.toNat % 2 ^ 8 = 0x0A → c.hasNlms = true) ∧
      w.toNat / 2 ^ 8 % 4 ≠ 3 ∧
      (w.toNat / 2 ^ 8 % 4 = 0 ∨ w.toNat % 2 ^ 8 = 0x08 ∨ w.toNat % 2 ^ 8 = 0x0A ∨ w.toNat % 2 ^ 8 = 0x0B))) ∧
  ∀ s : State, s.phase = .busy → decode s.config s.cmd = none →
    step s = .next { s with errCode := .illegalCmd, err := true, done := true, phase := .idle }

/-- 30_encoding.md R117: the words the rule itself gives as examples. -/
def Obligations.ExampleWords : Prop :=
  decode Config.thisHardware 0x00000001#32 = some .fft ∧ decode Config.thisHardware 0x0000000C#32 = some .decayFit ∧
  decode Config.thisHardware 0x0000010B#32 = some (.schroeder .pcm16) ∧
  decode Config.thisHardware 0x00000208#32 = some (.normq .cplx128)

/-! ### The step -/

/-- 10_state.md R47, 00_scope.md R17: while BUSY, when the command's duration is over or the host has nothing left to do,
a step is `exec` of the command in CMD; nothing is added around it. -/
def Obligations.StepRunsDecodedCommand : Prop :=
  ∀ (s : State) (i : Instr), s.phase = .busy → (s.delay = 0 ∨ s.host = []) → decode s.config s.cmd = some i →
    step s = exec i s

/-- 70_reset_and_hazards.md R348, 30_encoding.md R119: a host that waits reads BUSY = 1 as often as the command lasts, for
every duration; then the command completes; and the next poll reads DONE = 1, which ends WAIT (and makes the results the
host's to read, log 7). -/
def Obligations.WaitingHostSeesCompletion : Prop :=
  ∀ (s : State) (i : Instr) (rest : List HostAction), s.phase = .busy → s.done = false →
    s.host = .waitDone :: rest → decode s.config s.cmd = some i →
    (∀ k, 0 < k → k ≤ s.delay →
      core.run k s = .next { s with delay := s.delay - k, readData := s.statusWord }) ∧
    ∃ t : State, core.run (s.delay + 1) s = .next t ∧ t.phase = .idle ∧ t.done = true ∧ t.host = s.host ∧
      t.statusWord.getLsbD 0 = false ∧ t.statusWord.getLsbD 1 = true ∧
      core.run (s.delay + 2) s = .next { t with readData := t.statusWord, host := rest, unread := [] }

/-! ### Invariants and whole-machine rules -/

/-- Every step, of the engine or of the host, keeps the invariant. -/
def Obligations.StepKeepsInvariant : Prop :=
  ∀ s t : State, s.Inv → step s = .next t → t.Inv

/-- 70_reset_and_hazards.md R340: the invariant holds right after reset. -/
def Obligations.InvariantAtReset : Prop := State.reset.Inv

/-- 10_state.md R41, 60_exceptions.md R300, R306: every command ends in exactly one completion, with one code of the
table, and the engine writes nothing of CTRL, CMD, ARG0 to ARG7 and LASTOP. -/
def Obligations.EveryCommandCompletesOnce : Prop :=
  ∀ (i : Instr) (s : State), ∃ (t : State) (c : ErrCode), exec i s = .next t ∧ CompletedWith c t ∧ SameOutside s t ∧
    c.code.toNat ≤ 0x0A

/-- 60_exceptions.md R304: a command that fails a check has read no DMEM (its outcome is the same whatever DMEM holds) and
written no DMEM and no RES register. -/
def Obligations.FailedCheckReadsAndWritesNothing : Prop :=
  ∀ (i : Instr) (s t : State), exec i s = .next t → t.errCode.code.toNat ∈ [1, 2, 3, 4, 5, 6, 7, 8] →
    t.dmem = s.dmem ∧ t.res = s.res ∧
    ∀ m : Memory, exec i { s with dmem := m } = .next { t with dmem := m }

/-- 60_exceptions.md R305: NONFINITE from NORMQ or SCHROEDER leaves DMEM and RES unchanged; DECAY_NOT_DETECTED is
DECAY_FIT's only execution error and writes no DMEM; no other command ends with an execution error, the composites TSPGEN
(41_tsp.md R175) and DECONV in every legal configuration, DECONV's with the DOC's literals (00_scope.md R6). -/
def Obligations.ExecutionErrorsWriteNoMemory : Prop :=
  (∀ (fmt : Fmt) (s t : State), (exec (.normq fmt) s = .next t ∨ exec (.schroeder fmt) s = .next t) →
    t.errCode ≠ .decayNotDetected ∧ (t.errCode = .nonfinite → t.dmem = s.dmem ∧ t.res = s.res)) ∧
  (∀ s t : State, exec .decayFit s = .next t → t.dmem = s.dmem ∧ t.errCode ≠ .nonfinite) ∧
  (∀ (i : Instr) (s t : State),
    (i = .nop ∨ i = .fft ∨ i = .ifft ∨ i = .tspUp ∨ i = .tspDown ∨ i = .load16 ∨ i = .deconvMul ∨
      (∃ fmt, i = .nlms fmt) ∨ (s.config.legal = true ∧ i = .tspgen) ∨
      (s.config.legal = true ∧ s.config.docLiterals = true ∧ i = .deconv)) →
    exec i s = .next t → t.errCode ≠ .nonfinite ∧ t.errCode ≠ .decayNotDetected)

/-! ### Frames (20_memory.md R95, 10_state.md R39, R41) -/

/-- The commands that store one CPLX128 ×N buffer at ARG0: FFT, IFFT, TSP_UP, TSP_DOWN, LOAD16, DECONV_MUL. -/
def Obligations.SpectralCommandsFrame : Prop :=
  ∀ (i : Instr) (s t : State),
    (i = .fft ∨ i = .ifft ∨ i = .tspUp ∨ i = .tspDown ∨ i = .load16 ∨ i = .deconvMul) → exec i s = .next t →
    SameOutside s t ∧ t.res = s.res ∧ SameMemoryBut s t s.args.a0.toNat (16 * 2 ^ s.args.a1.toNat)

/-- The commands that store PCM16 samples at ARG0: NORMQ; and the composites TSPGEN and DECONV, which also store their
work buffer. NORMQ names RES0 only, TSPGEN RES0 and RES1. -/
def Obligations.SampleCommandsFrame : Prop :=
  (∀ (fmt : Fmt) (s t : State), exec (.normq fmt) s = .next t →
    SameOutside s t ∧ t.res = { s.res with r0 := t.res.r0 } ∧
    SameMemoryBut s t s.args.a0.toNat (2 * s.args.a1.toNat)) ∧
  (∀ s t : State, exec .tspgen s = .next t →
    SameOutside s t ∧ t.res = { s.res with r0 := t.res.r0, r1 := t.res.r1 } ∧
    SameMemoryButTwo s t s.args.a0.toNat (2 * 2 ^ s.args.a1.toNat) s.args.a2.toNat (16 * 2 ^ s.args.a1.toNat)) ∧
  (∀ s t : State, exec .deconv s = .next t →
    SameOutside s t ∧
    SameMemoryButTwo s t s.args.a0.toNat (2 * s.deconvSize) s.args.a6.toNat (48 * s.deconvSize))

/-- The commands that store REAL64 values: NLMS stores h at ARG0 and dline at ARG7 and names no RES register; SCHROEDER
stores the curve at ARG0 and names RES0 only. -/
def Obligations.RealCommandsFrame : Prop :=
  (∀ (fmt : Fmt) (s t : State), exec (.nlms fmt) s = .next t →
    SameOutside s t ∧ t.res = s.res ∧
    SameMemoryButTwo s t s.args.a0.toNat (8 * s.args.a4.toNat) s.args.a7.toNat (8 * s.args.a4.toNat)) ∧
  (∀ (fmt : Fmt) (s t : State), exec (.schroeder fmt) s = .next t →
    SameOutside s t ∧ t.res = { s.res with r0 := t.res.r0 } ∧
    SameMemoryBut s t s.args.a0.toNat (8 * s.args.a1.toNat))

/-- The commands that store nothing: NOP, which also leaves RES, and DECAY_FIT. -/
def Obligations.StorelessCommandsFrame : Prop :=
  (∀ s t : State, exec .nop s = .next t → SameOutside s t ∧ t.res = s.res ∧ SameMemory s t) ∧
  (∀ s t : State, exec .decayFit s = .next t → SameOutside s t ∧ SameMemory s t)

/-! ### Check order -/

/-- 60_exceptions.md R302, R303, with the checks of 40_transform.md R143, R144, 41_tsp.md R173, R174, R175, 42_deconv.md R200,
R202, R203, R204, 43_nlms.md R242 and 44_decay.md R260, R264: for every command and all operands, the code of the first
failing class, and past the classes the codes its body can end with. LOAD16 with CNT = 0 is in range for every src
(20_memory.md R84, log 10). DECONV's body ends with OK in every legal configuration with the DOC's literals (00_scope.md R6). -/
def Obligations.CheckOrder : Prop :=
  (∀ (i : Instr) (s t : State), (i = .fft ∨ i = .ifft ∨ i = .tspUp) → exec i s = .next t →
    t.errCode =
      (if s.config.log2nMax < s.args.a1.toNat then .badArg
      else if s.args.a0.toNat % 8 ≠ 0 then .align
      else if s.config.dmemSize < s.args.a0.toNat + 16 * 2 ^ s.args.a1.toNat then .range
      else .ok)) ∧
  (∀ s t : State, exec .tspDown s = .next t →
    t.errCode =
      (if s.config.log2nMax < s.args.a1.toNat ∨ 2 ^ 32 ≤ s.args.a2.toNat then .badArg
      else if s.args.a0.toNat % 8 ≠ 0 then .align
      else if s.config.dmemSize < s.args.a0.toNat + 16 * 2 ^ s.args.a1.toNat then .range
      else .ok)) ∧
  (∀ s t : State, exec .tspgen s = .next t →
    let n := 2 ^ s.args.a1.toNat
    let d := s.args.a0.toNat
    let w := s.args.a2.toNat
    if s.config.log2nMax < s.args.a1.toNat then t.errCode = .badArg
    else if d % 2 ≠ 0 ∨ w % 8 ≠ 0 then t.errCode = .align
    else if s.config.dmemSize < d + 2 * n ∨ s.config.dmemSize < w + 16 * n then t.errCode = .range
    else if ¬ Apart d (2 * n) w (16 * n) then t.errCode = .overlap
    else s.config.legal = true → t.errCode = .ok) ∧
  (∀ s t : State, exec .load16 s = .next t →
    let n := 2 ^ s.args.a1.toNat
    let d := s.args.a0.toNat
    let c := s.args.a2.toNat
    let cnt := s.args.a3.toNat
    t.errCode =
      (if s.config.log2nMax < s.args.a1.toNat ∨ 2 ^ 32 ≤ cnt then .badArg
      else if n < cnt then .tooLong
      else if d % 8 ≠ 0 ∨ c % 2 ≠ 0 then .align
      else if s.config.dmemSize < d + 16 * n ∨ (0 < cnt ∧ s.config.dmemSize < c + 2 * cnt) then .range
      else if ¬ Apart d (16 * n) c (2 * cnt) then .overlap
      else .ok)) ∧
  (∀ s t : State, exec .deconvMul s = .next t →
    let n := 2 ^ s.args.a1.toNat
    let z := s.args.a0.toNat
    let x := s.args.a2.toNat
    let y := s.args.a3.toNat
    let g := s.args.a4.toNat
    t.errCode =
      (if s.config.log2nMax < s.args.a1.toNat then .badArg
      else if z % 8 ≠ 0 ∨ x % 8 ≠ 0 ∨ y % 8 ≠ 0 ∨ g % 8 ≠ 0 then .align
      else if s.config.dmemSize < z + 16 * n ∨ s.config.dmemSize < x + 16 * n ∨ s.config.dmemSize < y + 16 * n ∨
          s.config.dmemSize < g + 16 * n then .range
      else if (z ≠ x ∧ ¬ Apart z (16 * n) x (16 * n)) ∨ (z ≠ y ∧ ¬ Apart z (16 * n) y (16 * n)) ∨
          (z ≠ g ∧ ¬ Apart z (16 * n) g (16 * n)) then .overlap
      else .ok)) ∧
  (∀ (fmt : Fmt) (s t : State), exec (.normq fmt) s = .next t →
    let l := s.args.a1.toNat
    let d := s.args.a0.toNat
    let c := s.args.a2.toNat
    if 2 ^ 32 ≤ l then t.errCode = .badArg
    else if l = 0 then t.errCode = .empty
    else if d % 2 ≠ 0 ∨ c % elemAlign fmt ≠ 0 then t.errCode = .align
    else if s.config.dmemSize < d + 2 * l ∨ s.config.dmemSize < c + elemBytes fmt * l then t.errCode = .range
    else if ¬ Apart d (2 * l) c (elemBytes fmt * l) then t.errCode = .overlap
    else t.errCode = .ok ∨ t.errCode = .nonfinite) ∧
  (∀ s t : State, exec .deconv s = .next t →
    let e := s.args.a1.toNat
    let m := s.args.a3.toNat
    let n := 2 ^ ceilLog2 (max e m)
    let d := s.args.a0.toNat
    let x := s.args.a2.toNat
    let r := s.args.a4.toNat
    let w := s.args.a6.toNat
    if 2 ^ 32 ≤ e ∨ 2 ^ 32 ≤ m ∨ s.args.a5.toNat % 2 ^ 32 = 0 ∨ s.args.a5.toNat / 2 ^ 32 = 0 then t.errCode = .badArg
    else if e = 0 ∨ m = 0 then t.errCode = .empty
    else if s.args.a5.toNat % 2 ^ 32 ≠ s.args.a5.toNat / 2 ^ 32 then t.errCode = .rateMismatch
    else if 2 ^ s.config.log2nMax < n then t.errCode = .tooLong
    else if d % 2 ≠ 0 ∨ x % 2 ≠ 0 ∨ r % 2 ≠ 0 ∨ w % 8 ≠ 0 then t.errCode = .align
    else if s.config.dmemSize < d + 2 * n ∨ s.config.dmemSize < x + 2 * e ∨ s.config.dmemSize < r + 2 * m ∨
        s.config.dmemSize < w + 48 * n then t.errCode = .range
    else if ¬ (Apart w (48 * n) d (2 * n) ∧ Apart w (48 * n) x (2 * e) ∧ Apart w (48 * n) r (2 * m) ∧
        Apart d (2 * n) x (2 * e) ∧ Apart d (2 * n) r (2 * m)) then t.errCode = .overlap
    else s.config.legal = true → s.config.docLiterals = true → t.errCode = .ok) ∧
  (∀ (fmt : Fmt) (s t : State), exec (.nlms fmt) s = .next t →
    let ns := s.args.a1.toNat
    let lf := s.args.a4.toNat
    let k := elemBytes fmt
    let h := s.args.a0.toNat
    let x := s.args.a2.toNat
    let y := s.args.a3.toNat
    let l := s.args.a7.toNat
    t.errCode =
      (if s.config.hasNlms = false then .illegalCmd
      else if 2 ^ 32 ≤ ns ∨ 2 ^ 32 ≤ lf then .badArg
      else if ns = 0 ∨ lf = 0 then .empty
      else if h % 8 ≠ 0 ∨ l % 8 ≠ 0 ∨ x % elemAlign fmt ≠ 0 ∨ y % elemAlign fmt ≠ 0 then .align
      else if s.config.dmemSize < h + 8 * lf ∨ s.config.dmemSize < l + 8 * lf ∨ s.config.dmemSize < x + k * ns ∨
          s.config.dmemSize < y + k * ns then .range
      else if ¬ (Apart h (8 * lf) l (8 * lf) ∧ Apart h (8 * lf) x (k * ns) ∧ Apart h (8 * lf) y (k * ns) ∧
          Apart l (8 * lf) x (k * ns) ∧ Apart l (8 * lf) y (k * ns)) then .overlap
      else .ok)) ∧
  (∀ (fmt : Fmt) (s t : State), exec (.schroeder fmt) s = .next t →
    let l := s.args.a1.toNat
    let d := s.args.a0.toNat
    let c := s.args.a2.toNat
    if 2 ^ 32 ≤ l then t.errCode = .badArg
    else if l = 0 then t.errCode = .empty
    else if d % 8 ≠ 0 ∨ c % elemAlign fmt ≠ 0 then t.errCode = .align
    else if s.config.dmemSize < d + 8 * l ∨ s.config.dmemSize < c + elemBytes fmt * l then t.errCode = .range
    else if ¬ (Apart d (8 * l) c (elemBytes fmt * l) ∨ (fmt = .real64 ∧ d = c)) then t.errCode = .overlap
    else t.errCode = .ok ∨ t.errCode = .nonfinite) ∧
  (∀ s t : State, exec .decayFit s = .next t →
    let l := s.args.a1.toNat
    let fs := s.args.a3.toNat
    let sdb : F64 := ⟨s.args.a4⟩
    let edb : F64 := ⟨s.args.a5⟩
    if 2 ^ 32 ≤ l ∨ fs = 0 ∨ 2 ^ 32 ≤ fs ∨ sdb.isFinite = false ∨ edb.isFinite = false ∨ sdb.units ≤ edb.units then
      t.errCode = .badArg
    else if l = 0 then t.errCode = .empty
    else if s.args.a2.toNat % 8 ≠ 0 then t.errCode = .align
    else if s.config.dmemSize < s.args.a2.toNat + 8 * l then t.errCode = .range
    else t.errCode = .ok ∨ t.errCode = .decayNotDetected)

/-- 20_memory.md R85: two buffers overlap exactly when some byte lies in both. -/
def Obligations.OverlapIsASharedByte : Prop :=
  ∀ b c : Buffer, b.overlaps c = true ↔ ∃ a, b.holds a = true ∧ c.holds a = true

/-! ### Control -/

/-- 45_control.md R290: NOP answers the same state with STATUS completed; started right after reset it ends with STATUS
0x2. -/
def Obligations.NopCompletes : Prop :=
  (∀ s : State, exec .nop s = .next { s with errCode := .ok, err := false, done := true, phase := .idle }) ∧
  ∃ t : State, core.run 2 { State.reset with host := [.writeReg 0x08 8 0x1#64] } = .next t ∧
    t.statusWord = 0x2#64 ∧ t.res = Results.zero ∧ SameMemory State.reset t

/-! ### The spectral transform -/

/-- 40_transform.md R143, R142: FFT leaves the forward transform of the buffer's elements in the buffer, with code OK. -/
def Obligations.FftStoresTransform : Prop :=
  ∀ s : State, s.args.a1.toNat ≤ s.config.log2nMax → Placed s 8 s.args.a0.toNat (16 * 2 ^ s.args.a1.toNat) →
    ∃ t : State, exec .fft s = .next t ∧ CompletedWith .ok t ∧
      ∀ k, k < 2 ^ s.args.a1.toNat → readCplx t.dmem s.args.a0.toNat k =
        (transform s.config.fwdSign s.args.a1.toNat false
          (readCplxs s.dmem s.args.a0.toNat (2 ^ s.args.a1.toNat))).getD k czero

/-- 40_transform.md R144, R142: IFFT leaves the inverse transform, every element of which is the same butterflies' under
the other sign, divided by N. -/
def Obligations.IfftStoresScaledTransform : Prop :=
  ∀ s : State, s.args.a1.toNat ≤ s.config.log2nMax → Placed s 8 s.args.a0.toNat (16 * 2 ^ s.args.a1.toNat) →
    ∃ t : State, exec .ifft s = .next t ∧ CompletedWith .ok t ∧
      ∀ k, k < 2 ^ s.args.a1.toNat → readCplx t.dmem s.args.a0.toNat k =
        cscale ((transform (opposite s.config.fwdSign) s.args.a1.toNat false
          (readCplxs s.dmem s.args.a0.toNat (2 ^ s.args.a1.toNat))).getD k czero) (ofNat (2 ^ s.args.a1.toNat))

/-- 40_transform.md R141, R142: the in-place loops compute the recursive radix-2 transform, bit for bit: one element is
left alone, and len = 2N elements are the butterflies of the transforms of the even and the odd elements, with the running
twiddle of the base twiddle (COS ang, SIN ang), ang = (TWO_PI × f64(s)) / f64(len), s = +1 or −1 by FWD_SIGN. -/
def Obligations.TransformIsRecursiveRadixTwo : Prop :=
  (∀ (f : FwdSign) (z : Cplx), transform f 0 false [z] = [z]) ∧
  ∀ (f : FwdSign) (m : Nat) (a : List Cplx), a.length = 2 ^ (m + 1) →
    ∀ j, j < 2 ^ m →
      let sgn : Int := match f with
        | .plus => 1
        | .minus => -1
      let ang := div (mul Config.twoPi (ofInt sgn)) (ofNat (2 ^ (m + 1)))
      let e := (transform f m false (evens a)).getD j czero
      let v := cmul ((transform f m false (odds a)).getD j czero)
        (runningTwiddle ⟨Config.cos ang, Config.sin ang⟩ j)
      (transform f (m + 1) false a).getD j czero = cadd e v ∧
      (transform f (m + 1) false a).getD (j + 2 ^ m) czero = csub e v

/-- 40_transform.md R140: bit t of bitrev_m(i) is bit m−1−t of i, and after the permutation element i is the one that was
at bitrev_m(i). -/
def Obligations.BitReversalPermutes : Prop :=
  bitrev 0 0 = 0 ∧ (∀ m i t, t < m → (bitrev m i).testBit t = i.testBit (m - 1 - t)) ∧
  ∀ (m : Nat) (a : List Cplx), a.length = 2 ^ m →
    ∀ i, i < 2 ^ m → (permute m a).getD i czero = a.getD (bitrev m i) czero

/-! ### TSP synthesis -/

/-- 41_tsp.md R170, R172, R173: the bins TSP_UP leaves, with theta_up as R170 writes it. -/
def Obligations.TspUpStoresExcitationSpectrum : Prop :=
  ∀ s : State, s.args.a1.toNat ≤ s.config.log2nMax → Placed s 8 s.args.a0.toNat (16 * 2 ^ s.args.a1.toNat) →
    ∃ t : State, exec .tspUp s = .next t ∧ CompletedWith .ok t ∧
      ∀ k, k < 2 ^ s.args.a1.toNat →
        let n := 2 ^ s.args.a1.toNat
        let r := fun k => div (ofNat k) (ofNat n)
        let q := fun k => mul (r k) (r k)
        let θ := fun k => sub (mul (mul (neg Config.twoPi) (ofNat (n / 2))) (q k))
          (div (mul (mul Config.twoPi (ofNat k)) (ofNat (n / 4))) (ofNat n))
        readCplx t.dmem s.args.a0.toNat k =
          if k < n / 2 then ⟨Config.cos (θ k), Config.sin (θ k)⟩
          else if k = n / 2 then ⟨Config.cos (θ k), Config.zero⟩
          else ⟨Config.cos (θ (n - k)), neg (Config.sin (θ (n - k)))⟩

/-- 41_tsp.md R171, R172, R174: the bins TSP_DOWN leaves, for every J below 2^32, with phi_down as R171 writes it. -/
def Obligations.TspDownStoresInverseFilter : Prop :=
  ∀ s : State, s.args.a1.toNat ≤ s.config.log2nMax → s.args.a2.toNat < 2 ^ 32 →
    Placed s 8 s.args.a0.toNat (16 * 2 ^ s.args.a1.toNat) →
    ∃ t : State, exec .tspDown s = .next t ∧ CompletedWith .ok t ∧
      ∀ k, k < 2 ^ s.args.a1.toNat →
        let n := 2 ^ s.args.a1.toNat
        let r := fun k => div (ofNat k) (ofNat n)
        let q := fun k => mul (r k) (r k)
        let φ := fun k => mul (mul Config.twoPi (ofNat s.args.a2.toNat)) (q k)
        readCplx t.dmem s.args.a0.toNat k =
          if k < n / 2 then ⟨Config.cos (φ k), Config.sin (φ k)⟩
          else if k = n / 2 then ⟨Config.cos (φ k), Config.zero⟩
          else ⟨Config.cos (φ (n - k)), neg (Config.sin (φ (n - k)))⟩

/-- 41_tsp.md R176: every spectrum is Hermitian bit for bit, its Nyquist bin has im +0.0, and bin 0 has re 1.0, with im −0.0
for H (N ≥ 2) and +0.0 for G. -/
def Obligations.SpectraAreHermitian : Prop :=
  (∀ (n : Nat) (phase : Nat → F64) (k : Nat), 1 ≤ k → k < n / 2 →
    (spectrum n phase).getD (n - k) czero = conj ((spectrum n phase).getD k czero)) ∧
  (∀ (n : Nat) (phase : Nat → F64), 0 < n → ((spectrum n phase).getD (n / 2) czero).im = Config.zero) ∧
  (∀ m, 1 ≤ m → m ≤ 26 →
    (spectrum (2 ^ m) (thetaUp (2 ^ m))).getD 0 czero = ⟨Config.one, neg Config.zero⟩) ∧
  (∀ m j, m ≤ 26 → j < 2 ^ 32 →
    (spectrum (2 ^ m) (phiDown (2 ^ m) j)).getD 0 czero = ⟨Config.one, Config.zero⟩)

/-- 41_tsp.md R175: TSPGEN leaves the time-domain excitation in work and its quantized re parts in dst; RES0 the peak, RES1
N; in every legal configuration, with no error in the body. -/
def Obligations.TspgenStoresExcitation : Prop :=
  ∀ s : State, s.config.legal = true → s.args.a1.toNat ≤ s.config.log2nMax →
    Placed s 2 s.args.a0.toNat (2 * 2 ^ s.args.a1.toNat) → Placed s 8 s.args.a2.toNat (16 * 2 ^ s.args.a1.toNat) →
    Apart s.args.a0.toNat (2 * 2 ^ s.args.a1.toNat) s.args.a2.toNat (16 * 2 ^ s.args.a1.toNat) →
    ∃ t : State, exec .tspgen s = .next t ∧ CompletedWith .ok t ∧
      t.res.r0 = (peakOf ((tspgenSignal s).map Cplx.re)).bits ∧ t.res.r1 = BitVec.ofNat 64 (2 ^ s.args.a1.toNat) ∧
      ∀ k, k < 2 ^ s.args.a1.toNat →
        readCplx t.dmem s.args.a2.toNat k = (tspgenSignal s).getD k czero ∧
        readPcm t.dmem (s.args.a0.toNat + 2 * k) =
          (let peak := peakOf ((tspgenSignal s).map Cplx.re)
          if peak.isZero = true then 0
          else q16 s.config.qround
            (mul (div ((tspgenSignal s).getD k czero).re peak) (mul s.config.peakFrac s.config.fullScale)))

/-! ### Deconvolution -/

/-- 42_deconv.md R200: LOAD16 leaves sample k over PCM_IN_SCALE with im +0.0, and (+0.0, +0.0) past the samples; CNT = 0 is
legal and writes N zeros, wherever src points, which is the model's reading of 20_memory.md R84 (log 10). -/
def Obligations.Load16StoresPaddedSamples : Prop :=
  ∀ s : State, s.args.a1.toNat ≤ s.config.log2nMax → s.args.a3.toNat < 2 ^ 32 →
    s.args.a3.toNat ≤ 2 ^ s.args.a1.toNat → Placed s 8 s.args.a0.toNat (16 * 2 ^ s.args.a1.toNat) →
    s.args.a2.toNat % 2 = 0 → (s.args.a3.toNat = 0 ∨ s.args.a2.toNat + 2 * s.args.a3.toNat ≤ s.config.dmemSize) →
    Apart s.args.a0.toNat (16 * 2 ^ s.args.a1.toNat) s.args.a2.toNat (2 * s.args.a3.toNat) →
    ∃ t : State, exec .load16 s = .next t ∧ CompletedWith .ok t ∧
      ∀ k, k < 2 ^ s.args.a1.toNat → readCplx t.dmem s.args.a0.toNat k =
        if k < s.args.a3.toNat then
          ⟨div (ofInt (readPcm s.dmem (s.args.a2.toNat + 2 * k))) s.config.pcmInScale, Config.zero⟩
        else ⟨Config.zero, Config.zero⟩

/-- 20_memory.md R81, 10_state.md R43: a PCM16 sample s reads as exactly s / 32768, in [−1, 0.999969482421875], with
the DOC's literals (00_scope.md R6). -/
def Obligations.PcmReadsExactly : Prop :=
  ∀ (c : Config) (m : Memory) (b i : Nat), c.docLiterals = true →
    (readReal c .pcm16 m b i).isFinite = true ∧
    (readReal c .pcm16 m b i).toRat = (readPcm m (b + 2 * i) : ℚ) / 32768 ∧
    -1 ≤ (readReal c .pcm16 m b i).toRat ∧ (readReal c .pcm16 m b i).toRat ≤ 0.999969482421875

/-- 42_deconv.md R201, R202, R209: DECONV_MUL's bins, from the operands as they were before the command, also where z is
x, y or g itself: zeroed exactly where the excitation's magnitude is below MAG_FLOOR. -/
def Obligations.DeconvMulStoresGuardedProducts : Prop :=
  ∀ s : State, s.args.a1.toNat ≤ s.config.log2nMax →
    Placed s 8 s.args.a0.toNat (16 * 2 ^ s.args.a1.toNat) →
    (∀ p ∈ [s.args.a2.toNat, s.args.a3.toNat, s.args.a4.toNat],
      Placed s 8 p (16 * 2 ^ s.args.a1.toNat) ∧
      (p = s.args.a0.toNat ∨ Apart s.args.a0.toNat (16 * 2 ^ s.args.a1.toNat) p (16 * 2 ^ s.args.a1.toNat))) →
    ∃ t : State, exec .deconvMul s = .next t ∧ CompletedWith .ok t ∧
      ∀ k, k < 2 ^ s.args.a1.toNat →
        let x := readCplx s.dmem s.args.a2.toNat k
        readCplx t.dmem s.args.a0.toNat k =
          if lt (sqrt (add (mul x.re x.re) (mul x.im x.im))) s.config.magFloor = true then ⟨Config.zero, Config.zero⟩
          else cmul (readCplx s.dmem s.args.a3.toNat k) (readCplx s.dmem s.args.a4.toNat k)

/-- 42_deconv.md R203: NORMQ on finite values leaves q16((v / peak) × (PEAK_FRAC × FULL_SCALE)) for each value v, 0 for a zero
peak, and the peak in RES0; on a non-finite value it completes with NONFINITE. -/
def Obligations.NormqStoresSamplesOrNonfinite : Prop :=
  ∀ (fmt : Fmt) (s : State), s.args.a1.toNat < 2 ^ 32 → 0 < s.args.a1.toNat →
    Placed s 2 s.args.a0.toNat (2 * s.args.a1.toNat) →
    Placed s (elemAlign fmt) s.args.a2.toNat (elemBytes fmt * s.args.a1.toNat) →
    Apart s.args.a0.toNat (2 * s.args.a1.toNat) s.args.a2.toNat (elemBytes fmt * s.args.a1.toNat) →
    ((∀ k, k < s.args.a1.toNat → (readReal s.config fmt s.dmem s.args.a2.toNat k).isFinite = true) →
      ∃ t : State, exec (.normq fmt) s = .next t ∧ CompletedWith .ok t ∧
        let peak := peakOf (readReals s.config fmt s.dmem s.args.a2.toNat s.args.a1.toNat)
        t.res.r0 = peak.bits ∧
        ∀ k, k < s.args.a1.toNat → readPcm t.dmem (s.args.a0.toNat + 2 * k) =
          if peak.isZero = true then 0
          else q16 s.config.qround
            (mul (div (readReal s.config fmt s.dmem s.args.a2.toNat k) peak) (mul s.config.peakFrac s.config.fullScale))) ∧
    ((∃ k, k < s.args.a1.toNat ∧ (readReal s.config fmt s.dmem s.args.a2.toNat k).isFinite = false) →
      ∃ t : State, exec (.normq fmt) s = .next t ∧ CompletedWith .nonfinite t ∧ t.dmem = s.dmem ∧ t.res = s.res)

/-- 42_deconv.md R203: the peak is the largest magnitude, a finite value without sign that some sample attains; an output
sample is q16((v / peak) × (PEAK_FRAC × FULL_SCALE)), 0 for a zero peak; a zero source gives zeros. With the DOC's
literals (00_scope.md R6), under both roundings, it is at most 29490 in magnitude, so the clamp never acts, and a sample
at the peak becomes ±29490 with its sign. -/
def Obligations.NormalizedPeakIs29490 : Prop :=
  ∀ (c : Config) (vs : List F64), (∀ v ∈ vs, v.isFinite = true) →
    (∀ v ∈ vs, v.magUnits ≤ (peakOf vs).magUnits) ∧
    (vs ≠ [] → ∃ v ∈ vs, v.magUnits = (peakOf vs).magUnits) ∧
    (peakOf vs).isFinite = true ∧ (peakOf vs).sign = false ∧
    (∀ k, k < vs.length → (normalized c vs).getD k 0 =
      if (peakOf vs).isZero = true then 0
      else q16 c.qround (mul (div (vs.getD k Config.zero) (peakOf vs)) (mul c.peakFrac c.fullScale))) ∧
    ((∀ v ∈ vs, v.magUnits = 0) → peakOf vs = Config.zero ∧ ∀ r ∈ normalized c vs, r = 0) ∧
    (c.docLiterals = true →
      (∀ r ∈ normalized c vs, -29490 ≤ r ∧ r ≤ 29490) ∧
      ∀ v ∈ vs, v.magUnits = (peakOf vs).magUnits → v.magUnits ≠ 0 →
        quantize c (peakOf vs) v = if v.sign = true then -29490 else 29490)

/-- 42_deconv.md R206, R207, R208: DECONV leaves X, the complex impulse response and G in the three regions of work, the
quantized re parts of the response in dst, and the peak, N, the rate and the two-period flag in RES; in
every legal configuration with the DOC's literals (00_scope.md R6), with no error in the body. -/
def Obligations.DeconvRunsThePipeline : Prop :=
  ∀ s : State,
    let e := s.args.a1.toNat
    let m := s.args.a3.toNat
    let n := 2 ^ ceilLog2 (max e m)
    let d := s.args.a0.toNat
    let x := s.args.a2.toNat
    let r := s.args.a4.toNat
    let w := s.args.a6.toNat
    s.config.legal = true → s.config.docLiterals = true → 0 < e → e < 2 ^ 32 → 0 < m → m < 2 ^ 32 →
    s.args.a5.toNat % 2 ^ 32 = s.args.a5.toNat / 2 ^ 32 → 0 < s.args.a5.toNat / 2 ^ 32 →
    n ≤ 2 ^ s.config.log2nMax →
    Placed s 2 d (2 * n) → Placed s 2 x (2 * e) → Placed s 2 r (2 * m) → Placed s 8 w (48 * n) →
    Apart w (48 * n) d (2 * n) → Apart w (48 * n) x (2 * e) → Apart w (48 * n) r (2 * m) →
    Apart d (2 * n) x (2 * e) → Apart d (2 * n) r (2 * m) →
    ∃ t : State, exec .deconv s = .next t ∧ CompletedWith .ok t ∧
      t.res = ⟨(peakOf ((deconvResponse s).map Cplx.re)).bits, BitVec.ofNat 64 n,
        BitVec.ofNat 64 (s.args.a5.toNat % 2 ^ 32), if 2 * e ≤ m then 1#64 else 0#64⟩ ∧
      ∀ k, k < n →
        readPcm t.dmem (d + 2 * k) =
          (let peak := peakOf ((deconvResponse s).map Cplx.re)
          if peak.isZero = true then 0
          else q16 s.config.qround
            (mul (div ((deconvResponse s).getD k czero).re peak) (mul s.config.peakFrac s.config.fullScale))) ∧
        readCplx t.dmem w k = (deconvX s).getD k czero ∧
        readCplx t.dmem (w + 16 * n) k = (deconvResponse s).getD k czero ∧
        readCplx t.dmem (w + 32 * n) k = (deconvG s).getD k czero

/-- 42_deconv.md R205: N is the smallest power of two that is at least max(E, M), from the full M. -/
def Obligations.TransformSizeIsLeastPowerOfTwo : Prop :=
  (∀ s : State, s.deconvSize = 2 ^ s.deconvLog ∧ max s.excCount s.respCount ≤ s.deconvSize ∧
    ∀ k, max s.excCount s.respCount ≤ 2 ^ k → s.deconvSize ≤ 2 ^ k) ∧
  ∀ s : State, s.excCount = 1 → s.respCount = 1 → s.deconvSize = 1

/-! ### The adaptive estimator -/

/-- 43_nlms.md R242: NLMS leaves the estimate at h and the final delay line at dline. -/
def Obligations.NlmsStoresEstimate : Prop :=
  ∀ (fmt : Fmt) (s : State),
    let ns := s.args.a1.toNat
    let lf := s.args.a4.toNat
    let k := elemBytes fmt
    let h := s.args.a0.toNat
    let x := s.args.a2.toNat
    let y := s.args.a3.toNat
    let l := s.args.a7.toNat
    let f := nlmsRun s.config.nlmsEps ⟨s.args.a5⟩ ⟨s.args.a6⟩ lf (readReals s.config fmt s.dmem x ns)
      (readReals s.config fmt s.dmem y ns)
    s.config.hasNlms = true → 0 < ns → ns < 2 ^ 32 → 0 < lf → lf < 2 ^ 32 →
    Placed s 8 h (8 * lf) → Placed s 8 l (8 * lf) → Placed s (elemAlign fmt) x (k * ns) →
    Placed s (elemAlign fmt) y (k * ns) →
    Apart h (8 * lf) l (8 * lf) → Apart h (8 * lf) x (k * ns) → Apart h (8 * lf) y (k * ns) →
    Apart l (8 * lf) x (k * ns) → Apart l (8 * lf) y (k * ns) →
    ∃ t : State, exec (.nlms fmt) s = .next t ∧ CompletedWith .ok t ∧
      ∀ i, i < lf → readReal s.config .real64 t.dmem h i = f.h.getD i Config.zero ∧
        readReal s.config .real64 t.dmem l i = f.xb.getD i Config.zero

/-- 43_nlms.md R241: after n samples the delay line holds the most recent ones, newest at index 0, and +0.0 past them. -/
def Obligations.DelayLineHoldsNewestFirst : Prop :=
  ∀ (eps mu beta : F64) (lf : Nat) (xs ys : List F64), xs.length = ys.length → 0 < lf →
    ∀ i, i < lf → (nlmsRun eps mu beta lf xs ys).xb.getD i Config.zero =
      if i < xs.length then xs.getD (xs.length - 1 - i) Config.zero else Config.zero

/-- 43_nlms.md R242: a run starts from +0.0 coefficients and a +0.0 delay line, and every further sample pair is one sample
step of the run so far; the sums are rounded in index order from +0.0; in a sample step a power P with NLMS_EPS < P changes
every coefficient by (mu/P)·e·xb[i], and any other power, a NaN included, leaves the coefficients alone. -/
def Obligations.NlmsUpdatesOnlyAbovePower : Prop :=
  (∀ (eps mu beta : F64) (lf : Nat),
    nlmsRun eps mu beta lf [] [] = ⟨List.replicate lf Config.zero, List.replicate lf Config.zero⟩ ∧
    ∀ (xs ys : List F64) (x y : F64), xs.length = ys.length →
      nlmsRun eps mu beta lf (xs ++ [x]) (ys ++ [y]) = nlmsSample eps mu beta x y (nlmsRun eps mu beta lf xs ys)) ∧
  (dot [] [] = Config.zero ∧ ∀ (a b : List F64) (u v : F64), a.length = b.length →
    dot (a ++ [u]) (b ++ [v]) = add (dot a b) (mul u v)) ∧
  ∀ (eps mu beta x y : F64) (f : Filter), f.h.length = f.xb.length → 0 < f.xb.length →
    let g := nlmsSample eps mu beta x y f
    let p := add beta (dot g.xb g.xb)
    let e := sub y (dot f.h g.xb)
    g.xb.getD 0 Config.zero = x ∧
    (∀ i, 0 < i → i < f.xb.length → g.xb.getD i Config.zero = f.xb.getD (i - 1) Config.zero) ∧
    (lt eps p = false → g.h = f.h) ∧
    (lt eps p = true → ∀ i, i < f.h.length →
      g.h.getD i Config.zero = add (f.h.getD i Config.zero) (mul (mul (div mu p) e) (g.xb.getD i Config.zero)))

/-! ### The decay analyzer -/

/-- 44_decay.md R260: SCHROEDER on finite values whose total energy is finite leaves the dB curve, RES0 the total energy; in
place too for REAL64. A dB value is DB_FLOOR where the energy is 0, −infinity where its ratio to the total is 0, else TEN ×
LOG10 of the ratio. Otherwise it completes with NONFINITE and writes nothing. -/
def Obligations.SchroederStoresCurveOrNonfinite : Prop :=
  ∀ (fmt : Fmt) (s : State),
    let l := s.args.a1.toNat
    let d := s.args.a0.toNat
    let c := s.args.a2.toNat
    let vs := readReals s.config fmt s.dmem c l
    l < 2 ^ 32 → 0 < l → Placed s 8 d (8 * l) → Placed s (elemAlign fmt) c (elemBytes fmt * l) →
    (Apart d (8 * l) c (elemBytes fmt * l) ∨ (fmt = .real64 ∧ d = c)) →
    (((∀ v ∈ vs, v.isFinite = true) ∧ (totalEnergy vs).isFinite = true) →
      ∃ t : State, exec (.schroeder fmt) s = .next t ∧ CompletedWith .ok t ∧ t.res.r0 = (totalEnergy vs).bits ∧
        ∀ k, k < l →
          let e := (energies vs).getD k Config.zero
          let r := div e (totalEnergy vs)
          readReal s.config .real64 t.dmem d k =
            if e.isZero = true then s.config.dbFloor
            else if r.isZero = true then Config.negInf
            else mul Config.ten (Config.log10 r)) ∧
    (((∃ v ∈ vs, v.isFinite = false) ∨ (totalEnergy vs).isInf = true) →
      ∃ t : State, exec (.schroeder fmt) s = .next t ∧ CompletedWith .nonfinite t ∧ t.dmem = s.dmem ∧ t.res = s.res)

/-- 44_decay.md R261: for every finite input the energies are non-increasing in index, exactly in binary64. -/
def Obligations.EnergiesNeverIncrease : Prop :=
  ∀ vs : List F64, (∀ v ∈ vs, v.isFinite = true) →
    ∀ i, i + 1 < vs.length →
      le ((energies vs).getD (i + 1) Config.zero) ((energies vs).getD i Config.zero) = true

/-- 44_decay.md R260: the energies are the backward sums of squares, the total the first of them; the curve is DB_FLOOR where
the energy is zero, −infinity where its ratio to the total is zero, else TEN × LOG10 of the ratio; an all-zero input
gives DB_FLOOR throughout, and a finite nonzero total gives exactly +0.0 dB at index 0. -/
def Obligations.DecayCurveCorners : Prop :=
  (∀ (v : F64) (vs : List F64), (energies (v :: vs)).getD 0 Config.zero =
      add (if vs = [] then Config.zero else (energies vs).getD 0 Config.zero) (mul v v) ∧
    ∀ i, (energies (v :: vs)).getD (i + 1) Config.zero = (energies vs).getD i Config.zero) ∧
  (∀ (floor : F64) (vs : List F64), totalEnergy vs = (energies vs).getD 0 Config.zero ∧
    ∀ k, k < vs.length →
      let e := (energies vs).getD k Config.zero
      let r := div e (totalEnergy vs)
      (decayCurve floor vs).getD k Config.zero =
        if e.isZero = true then floor
        else if r.isZero = true then ⟨0xFFF0000000000000#64⟩
        else mul ⟨0x4024000000000000#64⟩ (Config.log10 r)) ∧
  (∀ (floor : F64) (vs : List F64), (∀ v ∈ vs, v.isZero = true) → ∀ d ∈ decayCurve floor vs, d = floor) ∧
  (∀ floor emax : F64, emax.isFinite = true → emax.isZero = false → decibel floor emax emax = Config.zero)

/-- 44_decay.md R265, R266, R268, R269: the regression sums are rounded in index order from +0.0, with t = f64(i) / f64(fs);
and DECAY_FIT on a curve where the window is found and the fit is neither singular nor non-decaying leaves T, RT60, start
and end in RES. -/
def Obligations.DecayFitReportsTimes : Prop :=
  (∀ (fs : Nat) (curve : List F64) (start : Nat),
    let t := fun i => div (ofNat i) (ofNat fs)
    let y := fun i => curve.getD i Config.zero
    let plus : Sums → Nat → Sums := fun p i =>
      ⟨add p.st (t i), add p.sy (y i), add p.stt (mul (t i) (t i)), add p.sty (mul (t i) (y i))⟩
    regressionSums fs curve start start = plus ⟨Config.zero, Config.zero, Config.zero, Config.zero⟩ start ∧
    ∀ fin, start ≤ fin → regressionSums fs curve start (fin + 1) = plus (regressionSums fs curve start fin) (fin + 1)) ∧
  ∀ (s : State) (start fin : Nat),
    let l := s.args.a1.toNat
    let c := s.args.a2.toNat
    let sdb : F64 := ⟨s.args.a4⟩
    let edb : F64 := ⟨s.args.a5⟩
    let n := ofNat (fin - start + 1)
    let p := regressionSums s.args.a3.toNat (readReals s.config .real64 s.dmem c l) start fin
    let den := sub (mul n p.stt) (mul p.st p.st)
    let sl := div (sub (mul n p.sty) (mul p.st p.sy)) den
    0 < l → l < 2 ^ 32 → 0 < s.args.a3.toNat → s.args.a3.toNat < 2 ^ 32 →
    sdb.isFinite = true → edb.isFinite = true → edb.units < sdb.units → Placed s 8 c (8 * l) →
    WindowFound (readReal s.config .real64 s.dmem c) l sdb edb start fin →
    lt (abs den) s.config.singEps = false → lt sl Config.zero = true →
    exec .decayFit s = .next { s with
      errCode := .ok, err := false, done := true, phase := .idle
      res := ⟨(div (sub edb sdb) sl).bits, (mul (div (sub edb sdb) sl) (div Config.sixty (sub sdb edb))).bits,
        BitVec.ofNat 64 start, BitVec.ofNat 64 fin⟩ }

/-- 44_decay.md R265, R266, R269: the failures of DECAY_FIT: no start, no end, a denominator with |den| < SING_EPS, or a slope
that is not below 0, a NaN included; each with the sentinel −1.0 in RES0 and RES1 and −1 for an index not found. -/
def Obligations.DecayFitReportsSentinels : Prop :=
  ∀ s : State,
    let l := s.args.a1.toNat
    let c := s.args.a2.toNat
    let curve := readReal s.config .real64 s.dmem c
    let sdb : F64 := ⟨s.args.a4⟩
    let edb : F64 := ⟨s.args.a5⟩
    let fails (start fin : Word) : Prop :=
      exec .decayFit s = .next { s with
        errCode := .decayNotDetected, err := true, done := true, phase := .idle
        res := ⟨0xBFF0000000000000#64, 0xBFF0000000000000#64, start, fin⟩ }
    0 < l → l < 2 ^ 32 → 0 < s.args.a3.toNat → s.args.a3.toNat < 2 ^ 32 →
    sdb.isFinite = true → edb.isFinite = true → edb.units < sdb.units → Placed s 8 c (8 * l) →
    ((∀ i, i < l → ¬ (le edb (curve i) = true ∧ le (curve i) sdb = true)) →
      fails 0xFFFFFFFFFFFFFFFF#64 0xFFFFFFFFFFFFFFFF#64) ∧
    (∀ start, start < l → (le edb (curve start) = true ∧ le (curve start) sdb = true) →
      (∀ i, i < start → ¬ (le edb (curve i) = true ∧ le (curve i) sdb = true)) →
      (∀ i, start < i → i < l → le (curve i) edb = false) →
      fails (BitVec.ofNat 64 start) 0xFFFFFFFFFFFFFFFF#64) ∧
    (∀ start fin, WindowFound curve l sdb edb start fin →
      let n := ofNat (fin - start + 1)
      let p := regressionSums s.args.a3.toNat (readReals s.config .real64 s.dmem c l) start fin
      let den := sub (mul n p.stt) (mul p.st p.st)
      let sl := div (sub (mul n p.sty) (mul p.st p.sy)) den
      (lt (abs den) s.config.singEps = true ∨ lt sl Config.zero = false) →
      fails (BitVec.ofNat 64 start) (BitVec.ofNat 64 fin))

/-- 44_decay.md R268: for the T10 and T20 windows RT60 is exactly 6 and 3 times T, and for a finite negative slope T is
greater than zero. -/
def Obligations.DecayTimesOfTheStandardWindows : Prop :=
  let five : F64 := ⟨minusFive⟩
  let fifteen : F64 := ⟨minusFifteen⟩
  let twentyFive : F64 := ⟨minusTwentyFive⟩
  (∀ t : F64, rt60 five fifteen t = mul t (ofNat 6) ∧ rt60 five twentyFive t = mul t (ofNat 3)) ∧
  ∀ sl : F64, sl.isFinite = true → lt sl Config.zero = true →
    lt Config.zero (decayTime five fifteen sl) = true ∧ lt Config.zero (decayTime five twentyFive sl) = true

/-- 44_decay.md R269 says "Success never reports a non-positive T". In exact binary64 it fails at the bottom of the number
format: a window of one least subnormal and a slope of −2 give T = +0.0. Expected to be refuted. -/
def Obligations.EveryReportedTimeIsPositive : Prop :=
  ∀ s t : State, exec .decayFit s = .next t → t.errCode = .ok → lt Config.zero ⟨t.res.r0⟩ = true

/-! ### Registers, the host's turns, reset -/

/-- 10_state.md R34: CTRL reads START 0, IE in bit 1 and 0 above; a write sets IE, then starts if START is 1 and the phase
is IDLE; while BUSY the START is dropped and only IE is written. -/
def Obligations.CtrlReadsAndWrites : Prop :=
  State.reset.ie = false ∧
  ∀ (s : State) (v : Word),
    s.readRegister (regAt 0x08) = (if s.ie = true then 2#64 else 0#64) ∧
    (s.phase = .idle → v.getLsbD 0 = true →
      s.writeRegister (regAt 0x08) v = ({ s with ie := v.getLsbD 1 } : State).acceptStart) ∧
    (s.phase = .idle → v.getLsbD 0 = false → s.writeRegister (regAt 0x08) v = { s with ie := v.getLsbD 1 }) ∧
    (s.phase = .busy → s.writeRegister (regAt 0x08) v = { s with ie := v.getLsbD 1 })

/-- 10_state.md R47: the host's START write while IDLE, as one step: BUSY, DONE, ERR, ERRCODE, LASTOP, RES. The command's
results count as unread from then on (duty H6, log 7). -/
def Obligations.StartIsAccepted : Prop :=
  ∀ (s : State) (v : Word) (rest : List HostAction), s.phase = .idle → v.getLsbD 0 = true →
    s.host = .writeReg 0x08 8 v :: rest →
    ∃ t : State, step s = .next t ∧ t.phase = .busy ∧ t.done = false ∧ t.err = false ∧ t.errCode = .ok ∧
      t.lastOp.toNat = s.cmd.toNat % 256 ∧ t.res = ⟨0#64, 0#64, 0#64, 0#64⟩ ∧ t.ie = v.getLsbD 1 ∧
      t.cmd = s.cmd ∧ t.args = s.args ∧ t.dmem = s.dmem ∧ t.config = s.config ∧ t.host = rest ∧
      t.unread = ⟨s.cmd, s.args, true, []⟩ :: s.unread

/-- 10_state.md R35, R36: STATUS's fields, and a write of it: bit 1 clears DONE while IDLE; every other bit, and every
write while BUSY, has no effect. -/
def Obligations.StatusReadsAndWrites : Prop :=
  ∀ (s : State) (v : Word),
    let w := s.readRegister (regAt 0x10)
    (w.getLsbD 0 = decide (s.phase = .busy) ∧ w.getLsbD 1 = s.done ∧ w.getLsbD 2 = s.err ∧
      w.toNat / 2 ^ 3 % 2 ^ 5 = 0 ∧ w.toNat / 2 ^ 8 % 2 ^ 8 = s.errCode.code.toNat ∧
      w.toNat / 2 ^ 16 % 2 ^ 8 = s.lastOp.toNat ∧ w.toNat / 2 ^ 24 = 0) ∧
    (s.phase = .idle → s.writeRegister (regAt 0x10) v = { s with done := s.done && !v.getLsbD 1 }) ∧
    (s.phase = .busy → s.writeRegister (regAt 0x10) v = s)

/-- 10_state.md R33, R37, R38, R39, R40: CMD keeps 32 bits of a write, ARGn all 64, and a write of one ARG register leaves
the others; both ignore writes while BUSY; ID, RES0 to RES3 and the reserved offsets ignore every write, and the reserved
offsets read 0. R32: a register read, as a step, answers the register's word and changes nothing of the core, and a
register write, as a step, is that write; the read of a RES register while the results are unread is left to
`ForbiddenAccessesAreRefused`, and the read of STATUS with DONE = 1 makes them read (duty H6, log 7). -/
def Obligations.RegisterWrites : Prop :=
  (∀ (s : State) (v : Word),
    (∀ n : Fin 8,
      (s.phase = .busy → s.writeRegister (regAt 0x18) v = s ∧ s.writeRegister (regAt (0x20 + 8 * n.val)) v = s) ∧
      (s.phase = .idle →
        ((s.writeRegister (regAt 0x18) v).readRegister (regAt 0x18)).toNat = v.toNat % 2 ^ 32 ∧
        { s.writeRegister (regAt 0x18) v with cmd := s.cmd } = s ∧
        (s.writeRegister (regAt (0x20 + 8 * n.val)) v).readRegister (regAt (0x20 + 8 * n.val)) = v ∧
        (∀ k : Fin 8, k ≠ n → (s.writeRegister (regAt (0x20 + 8 * n.val)) v).args.get k = s.args.get k) ∧
        { s.writeRegister (regAt (0x20 + 8 * n.val)) v with args := s.args } = s)) ∧
    ∀ off : Nat, off % 8 = 0 → off < 256 →
      ((off = 0 ∨ 0x60 ≤ off) → s.writeRegister (regAt off) v = s) ∧ (0x80 ≤ off → s.readRegister (regAt off) = 0#64)) ∧
  (∀ (s : State) (n : Fin 4), s.readRegister (regAt (0x60 + 8 * n.val)) = s.res.get n) ∧
  ∀ (s : State) (off : Nat) (rest : List HostAction), s.engineTurn = false → off % 8 = 0 → off < 256 →
    (s.host = .readReg off 8 :: rest → (s.phase = .busy ∨ (∀ p ∈ s.unread, p.res = false) ∨ off < 0x60 ∨ 0x80 ≤ off) →
      step s = .next { s with
        readData := s.readRegister (regAt off), host := rest, delay := s.delay - 1
        unread := if off = 0x10 ∧ s.done = true then [] else s.unread }) ∧
    ∀ v : Word, s.host = .writeReg off 8 v :: rest →
      step s = .next (({ s with host := rest, delay := s.delay - 1 } : State).writeRegister (regAt off) v)

/-- 10_state.md R33: the fields of ID for every legal configuration with DMEM_SIZE below 2^42, its value on this hardware,
and that no step changes it. At DMEM_SIZE = 2^42 the field DMEM_KIB cannot hold the rule's value (log 9). -/
def Obligations.IdIdentifiesConfiguration : Prop :=
  (∀ s : State, s.config.legal = true → s.config.dmemSize < 2 ^ 42 →
    let w := (s.readRegister (regAt 0x00)).toNat
    w % 2 ^ 16 = 1 ∧ w / 2 ^ 16 % 2 ^ 8 = s.config.log2nMax ∧ w / 2 ^ 24 % 2 = (if s.config.hasNlms = true then 1 else 0) ∧
    w / 2 ^ 25 % 2 = (if s.config.fwdSign = .minus then 1 else 0) ∧
    w / 2 ^ 26 % 2 = (if s.config.qround = .nearestEven then 1 else 0) ∧ w / 2 ^ 27 % 2 ^ 5 = 0 ∧
    w / 2 ^ 32 = s.config.dmemSize / 1024) ∧
  State.reset.readRegister (regAt 0x00) = 0x0001000001140001#64 ∧
  ∀ s t : State, step s = .next t → t.config = s.config ∧ t.readRegister (regAt 0x00) = s.readRegister (regAt 0x00)

/-- 10_state.md R46, 60_exceptions.md R307: irq is DONE and IE; a completion raises it exactly when IE = 1, and clearing
DONE, clearing IE or an accepted START lowers it. -/
def Obligations.InterruptFollowsDoneAndEnable : Prop :=
  State.reset.irq = false ∧ (∀ s : State, s.irq = true ↔ s.done = true ∧ s.ie = true) ∧
  (∀ (i : Instr) (s t : State), exec i s = .next t → t.irq = s.ie) ∧
  (∀ (s : State) (v : Word), s.phase = .idle → v.getLsbD 1 = true → (s.writeRegister .status v).irq = false) ∧
  (∀ (s : State) (v : Word), v.getLsbD 1 = false → (s.writeRegister .ctrl v).irq = false) ∧
  (∀ (s : State) (v : Word), s.phase = .idle → v.getLsbD 0 = true → (s.writeRegister .ctrl v).irq = false) ∧
  (∀ (s : State) (v : Word), v.getLsbD 0 = false → v.getLsbD 1 = true → (s.writeRegister .ctrl v).irq = s.done)

/-- 20_memory.md R80, R86, R87: a host-port write while IDLE of 1, 2, 4 or 8 bytes, naturally aligned below DMEM_SIZE, and
then a read of the same bytes, as two steps: the byte at a + j becomes bits 8j + 7 to 8j of the value (little-endian), the
read returns the value's low bytes, and every other byte of DMEM and every register is unchanged. Bytes the host has
written are no command's results any more, so duty H6 does not forbid the read (log 7). -/
def Obligations.HostPortReadsWhatItWrote : Prop :=
  ∀ (s : State) (a n : Nat) (v : Word) (rest : List HostAction), s.phase = .idle →
    (n = 1 ∨ n = 2 ∨ n = 4 ∨ n = 8) → a % n = 0 → a + n ≤ s.config.dmemSize →
    s.host = .writeMem a n v :: .readMem a n :: rest →
    ∃ t : State, core.run 2 s = .next t ∧ t.readData.toNat = v.toNat % 256 ^ n ∧
      (∀ j, j < n → (Memory.read t.dmem (a + j)).toNat = v.toNat / 2 ^ (8 * j) % 256) ∧ SameMemoryBut s t a n ∧
      { t with dmem := s.dmem, readData := s.readData, host := s.host, delay := s.delay, unread := s.unread } = s

/-- 70_reset_and_hazards.md R345: the forbidden accesses get no move: H1 (register access not 8 bytes, not 8-aligned or
outside the block), H2 (DMEM access of another width, misaligned or past DMEM_SIZE), H3 (DMEM access while BUSY, during
the host's turn), H6 (after the completion of any command since the host last read DONE = 1, a read of a RES register, or of a
byte in a buffer the command writes that neither the host nor the draws of a reset have written over since; log 7). -/
def Obligations.ForbiddenAccessesAreRefused : Prop :=
  ∀ (s : State) (a : HostAction) (rest : List HostAction), s.host = a :: rest → s.engineTurn = false →
    (∀ off width, ¬ (width = 8 ∧ off % 8 = 0 ∧ off < 256) →
      (a = .readReg off width ∨ ∃ v, a = .writeReg off width v) → step s = .refused .registerAccess) ∧
    (∀ addr width, ¬ ((width = 1 ∨ width = 2 ∨ width = 4 ∨ width = 8) ∧ addr % width = 0 ∧ addr + width ≤ s.config.dmemSize) →
      (a = .readMem addr width ∨ ∃ v, a = .writeMem addr width v) → step s = .refused .portAccess) ∧
    (∀ addr width, s.phase = .busy →
      ((width = 1 ∨ width = 2 ∨ width = 4 ∨ width = 8) ∧ addr % width = 0 ∧ addr + width ≤ s.config.dmemSize) →
      (a = .readMem addr width ∨ ∃ v, a = .writeMem addr width v) → step s = .refused .portWhileBusy) ∧
    (∀ p ∈ s.unread, s.phase = .idle →
      (∀ off, p.res = true → off % 8 = 0 → 0x60 ≤ off → off < 0x80 → a = .readReg off 8 →
        step s = .refused .resultBeforeDone) ∧
      (∀ (i : Instr) (addr width j : Nat),
        ((width = 1 ∨ width = 2 ∨ width = 4 ∨ width = 8) ∧ addr % width = 0 ∧ addr + width ≤ s.config.dmemSize) →
        decode s.config p.cmd = some i → commandCheck i { s with cmd := p.cmd, args := p.args } = none → j < width →
        writes i { s with cmd := p.cmd, args := p.args } (addr + j) = true →
        (∀ b ∈ p.rewritten, ¬ (b.1 ≤ addr + j ∧ addr + j < b.1 + b.2)) → a = .readMem addr width →
        step s = .refused .resultBeforeDone))

/-- 70_reset_and_hazards.md R340, R341: the registers after power-on reset; and reset with power held, as a step: the
registers at their reset values; while IDLE DMEM is unchanged; while BUSY no completion happens, and every byte outside
the buffers the running command writes is unchanged. RES0 to RES3 and the bytes those buffers hold, draws now, are no results
that duty H6 keeps from the host, whichever command wrote them before (the model's reading, log 7). -/
def Obligations.ResetClearsAndAbandons : Prop :=
  let cleared (t : State) : Prop :=
    t.ctrlWord = 0#64 ∧ t.statusWord = 0#64 ∧ t.cmdWord = 0#64 ∧ (∀ n : Fin 8, t.args.get n = 0#64) ∧
      (∀ n : Fin 4, t.res.get n = 0#64) ∧ t.phase = .idle ∧ t.irq = false
  cleared State.reset ∧
  ∀ (s : State) (rest : List HostAction), s.host = .reset :: rest → s.engineTurn = false →
    ∃ t : State, step s = .next t ∧ cleared t ∧ t.config = s.config ∧ t.host = rest ∧
      (s.phase = .idle → t.dmem = s.dmem) ∧
      (∀ i, decode s.config s.cmd = some i → ∀ a, writes i s a = false → Memory.read t.dmem a = Memory.read s.dmem a) ∧
      (∀ p ∈ t.unread, p.res = false) ∧
      (s.phase = .busy → ∀ i, decode s.config s.cmd = some i → commandCheck i s = none →
        ∀ a, writes i s a = true → t.unreadByte a = false)

/-- 30_encoding.md R118, R119: the line `FFT buf=b, log2n=n` assembles to accesses that, performed from IDLE, start FFT on
those operands; DECONV's two rates make one write of ARG5; a FMT suffix stands in bits 9:8 of the command word; the
pseudo-instructions' expansions, with the IE choice carried into the later lines; and CHECK, as a step, reads STATUS and
records the program's failure exactly when STATUS.ERR = 1, the accesses after it going on (95_test_vectors.md P4, log 15): no
other step records one. That DECONV's one write stands at the place of fs_e is the
model's choice (log 13). -/
def Obligations.AssembledFftLineStarts : Prop :=
  (∀ (s : State) (b n : Word) (rest : List HostAction), s.phase = .idle →
    ∃ h : List HostAction, assembleLine false ⟨.fft, [(.buf, b), (.log2n, n)]⟩ = some h ∧
      (s.host = h ++ rest → ∃ t : State, core.run 4 s = .next t ∧ t.phase = .busy ∧ t.args.a0 = b ∧ t.args.a1 = n ∧
        decode t.config t.cmd = some .fft ∧ t.lastOp = 1#8 ∧ t.dmem = s.dmem ∧ t.host = .waitDone :: rest)) ∧
  (∀ (ie : Bool) (d e x m r w rateE rateR : Word), rateE.toNat < 2 ^ 32 → rateR.toNat < 2 ^ 32 →
    ∃ rates : Word, rates.toNat = rateR.toNat * 2 ^ 32 + rateE.toNat ∧
    assembleLine ie ⟨.deconv, [(.dst, d), (.e, e), (.exc, x), (.m, m), (.resp, r), (.fsE, rateE), (.fsR, rateR), (.work, w)]⟩ =
      some [.writeReg 0x20 8 d, .writeReg 0x28 8 e, .writeReg 0x30 8 x, .writeReg 0x38 8 m, .writeReg 0x40 8 r,
        .writeReg 0x48 8 rates, .writeReg 0x50 8 w, .writeReg 0x18 8 0x9#64,
        .writeReg 0x08 8 (if ie = true then 0x3#64 else 0x1#64), .waitDone]) ∧
  (∀ (ie : Bool) (fmt : Fmt) (d l c fs : Word),
    let f : Word := match fmt with
      | .real64 => 0x0#64
      | .pcm16 => 0x100#64
      | .cplx128 => 0x200#64
    let go : HostAction := .writeReg 0x08 8 (if ie = true then 0x3#64 else 0x1#64)
    let samples : List HostAction := [.writeReg 0x20 8 d, .writeReg 0x28 8 l, .writeReg 0x30 8 c]
    let curve : List HostAction := samples ++ [.writeReg 0x18 8 (f ||| 0xB#64), go, .waitDone]
    let fit (stop : Word) : List HostAction :=
      [.writeReg 0x28 8 l, .writeReg 0x30 8 d, .writeReg 0x38 8 fs, .writeReg 0x40 8 0xC014000000000000#64,
        .writeReg 0x48 8 stop, .writeReg 0x18 8 0xC#64, go, .waitDone]
    assembleLine ie ⟨.normq fmt, [(.dst, d), (.len, l), (.src, c)]⟩ =
      some (samples ++ [.writeReg 0x18 8 (f ||| 0x8#64), go, .waitDone]) ∧
    assembleLine ie ⟨.nlms fmt, []⟩ = some [.writeReg 0x18 8 (f ||| 0xA#64), go, .waitDone] ∧
    assembleLine ie ⟨.schroeder fmt, [(.dst, d), (.len, l), (.src, c)]⟩ = some curve ∧
    assembleStmt ie (.t10 fmt d l c fs) = some (curve ++ fit 0xC02E000000000000#64) ∧
    assembleStmt ie (.t20 fmt d l c fs) = some (curve ++ fit 0xC039000000000000#64)) ∧
  (∀ (ie on : Bool) (n : Fin 8) (v : Word) (ts : List Stmt),
    assembleStmt ie .wait = some [.waitDone] ∧ assembleStmt ie .clrDone = some [.writeReg 0x10 8 0x2#64] ∧
    assembleStmt ie .check = some [.check] ∧ assembleStmt ie (.mov n v) = some [.writeReg (0x20 + 8 * n.val) 8 v] ∧
    assemble ie (.ie on :: ts) =
      (assemble on ts).map fun h => .writeReg 0x08 8 (if on = true then 0x2#64 else 0x0#64) :: h) ∧
  (assembleText ["IE on", "NORMQ.C128 len=4", "MOV arg7, 9", "CLRDONE", "CHECK", "IE off", "SCHROEDER.P16 len=0x10"] =
    some [.writeReg 0x08 8 0x2#64, .writeReg 0x28 8 4#64, .writeReg 0x18 8 0x208#64, .writeReg 0x08 8 0x3#64, .waitDone,
      .writeReg 0x58 8 9#64, .writeReg 0x10 8 0x2#64, .check, .writeReg 0x08 8 0x0#64, .writeReg 0x28 8 16#64,
      .writeReg 0x18 8 0x10B#64, .writeReg 0x08 8 0x1#64, .waitDone]) ∧
  (∀ (s : State) (rest : List HostAction), s.engineTurn = false → s.host = .check :: rest →
    step s = .next { s with
      readData := s.statusWord, host := rest, delay := s.delay - 1
      unread := if s.done = true then [] else s.unread
      checkFailed := s.checkFailed || s.err }) ∧
  ∀ s t : State, step s = .next t → t.checkFailed ≠ s.checkFailed → s.err = true ∧ ∃ rest, s.host = .check :: rest

/-! ### Arithmetic -/

/-- 00_scope.md R10: a sum and a difference of finite values are rounded to nearest, ties to even; an exact zero is +0.0,
except −0.0 + −0.0 and −0.0 − +0.0. -/
def Obligations.AddAndSubRoundToNearest : Prop :=
  ∀ x y : F64, x.isFinite = true → y.isFinite = true →
    RoundsTo (x.toRat + y.toRat) (add x y) ∧ RoundsTo (x.toRat - y.toRat) (sub x y) ∧
    (x.toRat + y.toRat = 0 → (add x y).sign = (x.sign && y.sign)) ∧
    (x.toRat - y.toRat = 0 → (sub x y).sign = (x.sign && !y.sign))

/-- 00_scope.md R10: a product and a quotient of finite values are rounded to nearest, ties to even, with the signs'
exclusive or. -/
def Obligations.MulAndDivRoundToNearest : Prop :=
  ∀ x y : F64, x.isFinite = true → y.isFinite = true →
    RoundsTo (x.toRat * y.toRat) (mul x y) ∧ (mul x y).sign = (x.sign != y.sign) ∧
    (y.isZero = false → RoundsTo (x.toRat / y.toRat) (div x y) ∧ (div x y).sign = (x.sign != y.sign))

/-- 00_scope.md R10: the square root of a positive finite value is the nearest binary64 to the real square root. -/
def Obligations.SqrtRoundsToNearest : Prop :=
  ∀ x z : F64, x.isFinite = true → x.sign = false → z.isFinite = true →
    (sqrt x).isFinite = true ∧ (sqrt x).sign = false ∧
    |((sqrt x).toRat : ℝ) - Real.sqrt x.toRat| ≤ |(z.toRat : ℝ) - Real.sqrt x.toRat|

/-- 00_scope.md R10: the comparisons are false with a NaN, and otherwise those of the values, −0.0 equal to +0.0, −infinity
below and +infinity above every finite value, and each infinity equal to itself. -/
def Obligations.ComparisonsFollowTheValues : Prop :=
  (∀ x y : F64, (x.isNaN = true ∨ y.isNaN = true) → lt x y = false ∧ le x y = false ∧ Fp.eq x y = false) ∧
  (∀ x y : F64, x.isFinite = true → y.isFinite = true →
    (lt x y = true ↔ x.toRat < y.toRat) ∧ (le x y = true ↔ x.toRat ≤ y.toRat) ∧ (Fp.eq x y = true ↔ x.toRat = y.toRat)) ∧
  (∀ x : F64, x.isFinite = true →
    lt x (inf false) = true ∧ le x (inf false) = true ∧ lt (inf false) x = false ∧ le (inf false) x = false ∧
    lt (inf true) x = true ∧ le (inf true) x = true ∧ lt x (inf true) = false ∧ le x (inf true) = false ∧
    ∀ b : Bool, Fp.eq x (inf b) = false ∧ Fp.eq (inf b) x = false) ∧
  (∀ a b : Bool, lt (inf a) (inf b) = (a && !b) ∧ le (inf a) (inf b) = (a || !b) ∧ Fp.eq (inf a) (inf b) = (a == b)) ∧
  Fp.eq (zeroOf true) (zeroOf false) = true

/-- 00_scope.md R10: the operations that give a NaN, whichever NaN it is: a NaN operand, and each invalid operation; and the
other results with infinities, a division by zero, and the square roots of +infinity and of the zeros. -/
def Obligations.InvalidOperationsGiveNaN : Prop :=
  (∀ x y : F64, (x.isNaN = true ∨ y.isNaN = true) →
    (add x y).isNaN = true ∧ (sub x y).isNaN = true ∧ (mul x y).isNaN = true ∧ (div x y).isNaN = true) ∧
  (∀ x : F64, x.isNaN = true → (sqrt x).isNaN = true) ∧
  (∀ b : Bool, (sub (inf b) (inf b)).isNaN = true ∧ (add (inf b) (inf (!b))).isNaN = true) ∧
  (∀ a b : Bool, (mul (zeroOf a) (inf b)).isNaN = true ∧ (mul (inf b) (zeroOf a)).isNaN = true ∧
    (div (zeroOf a) (zeroOf b)).isNaN = true ∧ (div (inf a) (inf b)).isNaN = true) ∧
  (∀ x : F64, x.isFinite = true → x.isZero = false → x.sign = true → (sqrt x).isNaN = true) ∧
  (sqrt (inf true)).isNaN = true ∧ sqrt (inf false) = inf false ∧ (∀ b : Bool, sqrt (zeroOf b) = zeroOf b) ∧
  (∀ b : Bool, add (inf b) (inf b) = inf b ∧ sub (inf b) (inf (!b)) = inf b) ∧
  (∀ (x : F64) (b : Bool), x.isFinite = true →
    add (inf b) x = inf b ∧ add x (inf b) = inf b ∧ sub (inf b) x = inf b ∧ sub x (inf b) = inf (!b) ∧
    div x (inf b) = zeroOf (x.sign != b) ∧ div (inf b) x = inf (b != x.sign)) ∧
  (∀ (x : F64) (b : Bool), x.isNaN = false → x.isZero = false →
    mul (inf b) x = inf (b != x.sign) ∧ mul x (inf b) = inf (x.sign != b) ∧ div x (zeroOf b) = inf (x.sign != b))

/-- 00_scope.md R12, R13: an integer below 2^53 in magnitude converts exactly; q16 truncates toward zero or rounds to
nearest even, clamped to [−32768, 32767]. -/
def Obligations.ConversionsAreExactAndClamped : Prop :=
  (∀ i : Int, i.natAbs < 2 ^ 53 → (ofInt i).isFinite = true ∧ (ofInt i).toRat = i) ∧
  (∀ n : Nat, n < 2 ^ 53 → (ofNat n).isFinite = true ∧ (ofNat n).toRat = n) ∧
  (∀ x : F64, x.isFinite = true →
    q16 .trunc x = max (-32768) (min 32767 (if x.toRat < 0 then ⌈x.toRat⌉ else ⌊x.toRat⌋)) ∧
    ∃ r : Int, NearestInteger x.toRat r ∧ q16 .nearestEven x = max (-32768) (min 32767 r))

/-- 00_scope.md R14: properties P1, P2 and P3 of the configuration functions, as the spec states them; that the ulp is the
exact result's own is the model's reading (log 4). -/
def Obligations.ElementaryFunctionProperties : Prop :=
  Config.cos (zeroOf false) = Config.one ∧ Config.cos (zeroOf true) = Config.one ∧
  Config.sin (zeroOf false) = zeroOf false ∧ Config.sin (zeroOf true) = zeroOf true ∧
  Config.log10 Config.one = zeroOf false ∧
  (∀ x : F64, x.isFinite = true →
    (Config.cos x).isFinite = true ∧ |(Config.cos x).toRat| ≤ 1 ∧
    (Config.sin x).isFinite = true ∧ |(Config.sin x).toRat| ≤ 1 ∧
    Config.WithinOneUlp (Real.cos x.toRat) (Config.cos x) ∧ Config.WithinOneUlp (Real.sin x.toRat) (Config.sin x)) ∧
  ∀ x : F64, x.isFinite = true → 0 < x.toRat → Config.WithinOneUlp (Real.logb 10 x.toRat) (Config.log10 x)
end

