-- ==== Sys2Proof/Laws/Memory.lean ====
section
/-!
SUPPORT. Laws of DMEM: reads after block writes, and that every memory operation keeps the canonical form and the
address bound.
-/

namespace Sys2Proof.Machine

/-! ### Reads -/

@[simp] theorem Memory.get?_nil (a : Nat) : Memory.get? [] a = none := rfl

theorem Memory.get?_cons (b : Nat) (v : Byte) (m : Memory) (a : Nat) :
    Memory.get? ((b, v) :: m) a = if b = a then some v else Memory.get? m a := rfl

theorem Memory.get?_append (m n : Memory) (a : Nat) :
    Memory.get? (m ++ n) a = (Memory.get? m a).or (Memory.get? n a) := by
  induction m with
  | nil => simp
  | cons c m ih =>
    obtain ⟨b, v⟩ := c
    by_cases h : b = a
    · simp [Memory.get?_cons, h]
    · simpa [Memory.get?_cons, h] using ih

theorem Memory.get?_filter (p : Nat → Bool) (m : Memory) (a : Nat) :
    Memory.get? (m.filter fun c => p c.1) a = if p a then Memory.get? m a else none := by
  induction m with
  | nil => simp
  | cons c m ih =>
    obtain ⟨b, v⟩ := c
    by_cases hb : b = a
    · subst hb
      by_cases hp : p b = true
      · simp [hp, Memory.get?_cons]
      · simp only [List.filter_cons, hp] at ih ⊢
        simpa using ih
    · by_cases hp : p b = true
      · simpa [List.filter_cons, hp, Memory.get?_cons, hb] using ih
      · simpa [List.filter_cons, hp, Memory.get?_cons, hb] using ih

theorem Memory.get?_cells (b : Nat) (vs : List Byte) (a : Nat) :
    Memory.get? (Memory.cells b vs) a = if b ≤ a then vs[a - b]? else none := by
  induction vs generalizing b with
  | nil => simp [Memory.cells]
  | cons v vs ih =>
    rw [Memory.cells, Memory.get?_cons, ih]
    by_cases h : b = a
    · subst h; simp
    · by_cases hlt : b + 1 ≤ a
      · have e : a - b = (a - (b + 1)) + 1 := by omega
        simp [h, hlt, show b ≤ a by omega, e]
      · simp [h, hlt, show ¬ b ≤ a by omega]

/-- A block write gives the bytes written inside the block, and leaves every other address alone. -/
theorem Memory.get?_writeBytes (m : Memory) (b : Nat) (vs : List Byte) (a : Nat) :
    Memory.get? (Memory.writeBytes m b vs) a =
      if b ≤ a ∧ a < b + vs.length then vs[a - b]? else Memory.get? m a := by
  unfold Memory.writeBytes
  rw [Memory.get?_append, Memory.get?_append, Memory.get?_filter (fun k => decide (k < b)),
    Memory.get?_filter (fun k => decide (b + vs.length ≤ k)), Memory.get?_cells]
  by_cases h1 : a < b
  · simp [h1, show ¬ b ≤ a by omega, show ¬ b + vs.length ≤ a by omega]
  · by_cases h2 : a < b + vs.length
    · simp [h1, h2, show b ≤ a by omega, show ¬ b + vs.length ≤ a by omega]
    · have h3 : vs[a - b]? = none := List.getElem?_eq_none (by omega)
      simp [h1, h2, show b ≤ a by omega, h3, show b + vs.length ≤ a by omega]

theorem Memory.read_writeBytes_inside (m : Memory) (b : Nat) (vs : List Byte) (j : Nat) (h : j < vs.length) :
    Memory.read (Memory.writeBytes m b vs) (b + j) = vs[j] := by
  simp [Memory.read, Memory.get?_writeBytes, h]

theorem Memory.read_writeBytes_outside (m : Memory) (b : Nat) (vs : List Byte) (a : Nat)
    (h : a < b ∨ b + vs.length ≤ a) : Memory.read (Memory.writeBytes m b vs) a = Memory.read m a := by
  have hn : ¬ (b ≤ a ∧ a < b + vs.length) := by omega
  simp [Memory.read, Memory.get?_writeBytes, hn]

/-! ### Little-endian bytes -/

@[simp] theorem leBytes_length (n v : Nat) : (leBytes n v).length = n := by
  induction n generalizing v with
  | zero => rfl
  | succ n ih => simp [leBytes, ih]

theorem ofLeBytes_leBytes (n v : Nat) : ofLeBytes (leBytes n v) = v % 256 ^ n := by
  induction n generalizing v with
  | zero => simp [leBytes, ofLeBytes, Nat.mod_one]
  | succ n ih =>
    have h := Nat.mod_mul (x := v) (a := 256) (b := 256 ^ n)
    simp only [leBytes, ofLeBytes, ih, BitVec.toNat_ofNat, Nat.pow_succ' (n := n)]
    omega

/-! ### The canonical form -/

theorem Memory.risingFrom_mono {lo lo' : Nat} (h : lo' ≤ lo) {m : Memory} (hm : Memory.risingFrom lo m = true) :
    Memory.risingFrom lo' m = true := by
  cases m with
  | nil => rfl
  | cons c m =>
    simp only [Memory.risingFrom, Bool.and_eq_true, decide_eq_true_eq] at hm ⊢
    exact ⟨by omega, hm.2⟩

theorem Memory.risingFrom_filter (p : Host.Cell → Bool) {lo : Nat} {m : Memory} (hm : Memory.risingFrom lo m = true) :
    Memory.risingFrom lo (m.filter p) = true := by
  induction m generalizing lo with
  | nil => rfl
  | cons c m ih =>
    simp only [Memory.risingFrom, Bool.and_eq_true, decide_eq_true_eq] at hm
    by_cases hp : p c = true
    · simp [hp, Memory.risingFrom, hm.1, ih hm.2]
    · simp only [List.filter_cons, hp]
      exact Memory.risingFrom_mono (by omega) (ih hm.2)

/-- Two rising lists stay rising when appended, where every address of the first is below a bound the second starts from. -/
theorem Memory.risingFrom_append {lo mid : Nat} {m n : Memory} (hm : Memory.risingFrom lo m = true)
    (hb : ∀ c ∈ m, c.1 < mid) (hlo : lo ≤ mid) (hn : Memory.risingFrom mid n = true) :
    Memory.risingFrom lo (m ++ n) = true := by
  induction m generalizing lo with
  | nil => exact Memory.risingFrom_mono hlo hn
  | cons c m ih =>
    simp only [Memory.risingFrom, Bool.and_eq_true, decide_eq_true_eq, List.cons_append] at hm ⊢
    have hc := hb c (by simp)
    exact ⟨hm.1, ih hm.2 (fun d hd => hb d (by simp [hd])) (by omega)⟩

theorem Memory.risingFrom_cells (b : Nat) (vs : List Byte) : Memory.risingFrom b (Memory.cells b vs) = true := by
  induction vs generalizing b with
  | nil => rfl
  | cons v vs ih => simp [Memory.cells, Memory.risingFrom, ih]

theorem Memory.cells_bounds (b : Nat) (vs : List Byte) : ∀ c ∈ Memory.cells b vs, b ≤ c.1 ∧ c.1 < b + vs.length := by
  induction vs generalizing b with
  | nil => simp [Memory.cells]
  | cons v vs ih =>
    intro c hc
    simp only [Memory.cells, List.mem_cons] at hc
    rcases hc with rfl | hc
    · simp
    · have := ih (b + 1) c hc
      simp only [List.length_cons]
      omega

theorem Memory.risingFrom_above {lo mid : Nat} {m : Memory} (hm : Memory.risingFrom lo m = true)
    (hb : ∀ c ∈ m, mid ≤ c.1) : Memory.risingFrom mid m = true := by
  cases m with
  | nil => rfl
  | cons c m =>
    simp only [Memory.risingFrom, Bool.and_eq_true, decide_eq_true_eq] at hm ⊢
    exact ⟨hb c (by simp), hm.2⟩

/-- A block write keeps the canonical form. -/
theorem Memory.writeBytes_wf (m : Memory) (b : Nat) (vs : List Byte) (hm : Memory.wf m = true) :
    Memory.wf (Memory.writeBytes m b vs) = true := by
  unfold Memory.wf Memory.writeBytes at *
  have h1 := Memory.risingFrom_filter (fun c => decide (c.1 < b)) hm
  have h3 := Memory.risingFrom_above (mid := b + vs.length)
    (Memory.risingFrom_filter (fun c => decide (b + vs.length ≤ c.1)) hm)
    (by intro c hc; simpa using (List.mem_filter.mp hc).2)
  have h12 : Memory.risingFrom 0 (m.filter (fun c => decide (c.1 < b)) ++ Memory.cells b vs) = true :=
    Memory.risingFrom_append h1 (by intro c hc; simpa using (List.mem_filter.mp hc).2) (Nat.zero_le b)
      (Memory.risingFrom_cells b vs)
  refine Memory.risingFrom_append h12 ?_ (Nat.zero_le _) h3
  intro c hc
  rcases List.mem_append.mp hc with hc | hc
  · have hlt : c.1 < b := by simpa using (List.mem_filter.mp hc).2
    omega
  · exact (Memory.cells_bounds b vs c hc).2

theorem Memory.below_filter (size : Nat) (p : Host.Cell → Bool) (m : Memory) (hm : Memory.below size m = true) :
    Memory.below size (m.filter p) = true := by
  unfold Memory.below at *
  rw [List.all_eq_true] at *
  exact fun c hc => hm c (List.mem_filter.mp hc).1

/-- A block write inside DMEM keeps every listed address inside DMEM; so does an empty one anywhere. -/
theorem Memory.writeBytes_below (size : Nat) (m : Memory) (b : Nat) (vs : List Byte)
    (hm : Memory.below size m = true) (hb : vs.length = 0 ∨ b + vs.length ≤ size) :
    Memory.below size (Memory.writeBytes m b vs) = true := by
  unfold Memory.writeBytes
  have h1 := Memory.below_filter size (fun c => decide (c.1 < b)) m hm
  have h3 := Memory.below_filter size (fun c => decide (b + vs.length ≤ c.1)) m hm
  unfold Memory.below at *
  rw [List.all_append, List.all_append, h1, h3, Bool.and_true, Bool.true_and, List.all_eq_true]
  intro c hc
  have := Memory.cells_bounds b vs c hc
  simp only [decide_eq_true_eq]
  omega

/-- Blocks written one after the other, in order, are one block: an element-by-element loop over a buffer is one write
of all its bytes. -/
theorem Memory.cells_append (b : Nat) (us vs : List Byte) :
    Memory.cells b (us ++ vs) = Memory.cells b us ++ Memory.cells (b + us.length) vs := by
  induction us generalizing b with
  | nil => simp [Memory.cells]
  | cons u us ih => simp [Memory.cells, ih, Nat.add_assoc, Nat.add_comm 1]

theorem Memory.cells_filter_lt (b : Nat) (us : List Byte) (k : Nat) (h : b + us.length ≤ k) :
    (Memory.cells b us).filter (fun c => decide (c.1 < k)) = Memory.cells b us := by
  rw [List.filter_eq_self]
  intro c hc
  have := (Memory.cells_bounds b us c hc).2
  simp only [decide_eq_true_eq]
  omega

theorem Memory.cells_filter_ge (b : Nat) (us : List Byte) (k : Nat) (h : b + us.length ≤ k) :
    (Memory.cells b us).filter (fun c => decide (k ≤ c.1)) = [] := by
  rw [List.filter_eq_nil_iff]
  intro c hc
  have := (Memory.cells_bounds b us c hc).2
  simp only [decide_eq_true_eq]
  omega

theorem Memory.writeBytes_append (m : Memory) (b : Nat) (us vs : List Byte) :
    Memory.writeBytes m b (us ++ vs) = Memory.writeBytes (Memory.writeBytes m b us) (b + us.length) vs := by
  unfold Memory.writeBytes
  simp only [List.filter_append, List.filter_filter, Memory.cells_append, List.length_append]
  rw [Memory.cells_filter_lt b us _ (le_refl _), Memory.cells_filter_ge b us _ (by omega)]
  have e1 : (m.filter fun c => decide (c.1 < b + us.length) && decide (c.1 < b)) = m.filter fun c => decide (c.1 < b) := by
    congr 1; funext c; by_cases h : c.1 < b <;> simp [h]; omega
  have e2 : (m.filter fun c => decide (c.1 < b + us.length) && decide (b + us.length ≤ c.1)) = [] := by
    rw [List.filter_eq_nil_iff]; intro c _; simp
  have e3 : (m.filter fun c => decide (b + us.length + vs.length ≤ c.1) && decide (c.1 < b)) = [] := by
    rw [List.filter_eq_nil_iff]; intro c _; simp only [Bool.and_eq_true, decide_eq_true_eq]; omega
  have e4 : (m.filter fun c => decide (b + us.length + vs.length ≤ c.1) && decide (b + us.length ≤ c.1)) =
      m.filter fun c => decide (b + (us.length + vs.length) ≤ c.1) := by
    congr 1; funext c
    by_cases h : b + (us.length + vs.length) ≤ c.1
    · simp [h, show b + us.length + vs.length ≤ c.1 by omega, show b + us.length ≤ c.1 by omega]
    · simp [h, show ¬ b + us.length + vs.length ≤ c.1 by omega]
  simp [e1, e2, e3, e4, List.append_assoc]

end Sys2Proof.Machine
end

