-- ==== Sys2Proof/Laws/Elements.lean ====
section
/-!
SUPPORT. Laws of element access: what a whole-buffer write leaves at each element, and the bytes it touches.
-/

namespace Sys2Proof.Machine

@[simp] theorem realBytes_length (x : F64) : (realBytes x).length = 8 := by simp [realBytes]

@[simp] theorem cplxBytes_length (z : Fp.Cplx) : (cplxBytes z).length = 16 := by simp [cplxBytes]

@[simp] theorem pcmBytes_length (v : Int) : (pcmBytes v).length = 2 := by simp [pcmBytes]

theorem flatMap_bytes_length {α : Type} (f : α → List Byte) (k : Nat) (hf : ∀ x, (f x).length = k) (xs : List α) :
    (xs.flatMap f).length = k * xs.length := by
  induction xs with
  | nil => simp
  | cons x xs ih => simp [List.flatMap_cons, hf, ih, Nat.mul_succ, Nat.add_comm]

/-- Byte j of element i of a buffer of equal-sized elements. -/
theorem flatMap_bytes_getElem? {α : Type} (f : α → List Byte) (k : Nat) (hf : ∀ x, (f x).length = k) (xs : List α)
    (i j : Nat) (hj : j < k) : (xs.flatMap f)[k * i + j]? = (xs[i]?).bind fun x => (f x)[j]? := by
  induction xs generalizing i with
  | nil => simp
  | cons x xs ih =>
    cases i with
    | zero => simp [List.flatMap_cons, List.getElem?_append_left (show j < (f x).length by rw [hf]; exact hj)]
    | succ i =>
      rw [List.flatMap_cons, List.getElem?_append_right (by rw [hf, Nat.mul_succ]; omega)]
      have e : k * (i + 1) + j - (f x).length = k * i + j := by rw [hf, Nat.mul_succ]; omega
      rw [e, ih i]; simp

/-- A read of n bytes that all stand where a list has them is that list's little-endian number. -/
theorem Memory.memRead_eq (m : Memory) (a n : Nat) (bs : List Byte) (hl : bs.length = n)
    (h : ∀ j (hj : j < bs.length), Memory.read m (a + j) = bs[j]) : Memory.memRead m a n = ofLeBytes bs := by
  unfold Memory.memRead
  congr 1
  apply List.ext_getElem
  · simp [hl]
  · intro j h1 h2
    simp [h j h2]

/-- A block write of equal-sized elements reads back, byte by byte, as the elements. -/
theorem Memory.read_elements {α : Type} (f : α → List Byte) (k : Nat) (hf : ∀ x, (f x).length = k) (m : Memory)
    (b : Nat) (xs : List α) (i j : Nat) (hi : i < xs.length) (hj : j < k) :
    Memory.read (Memory.writeBytes m b (xs.flatMap f)) (b + k * i + j) =
      (f xs[i])[j]'(by rw [hf]; exact hj) := by
  have hlt : k * i + j < (xs.flatMap f).length := by
    rw [flatMap_bytes_length f k hf]
    calc k * i + j < k * i + k := by omega
      _ = k * (i + 1) := by rw [Nat.mul_succ]
      _ ≤ k * xs.length := Nat.mul_le_mul_left k hi
  have h := flatMap_bytes_getElem? f k hf xs i j hj
  rw [Nat.add_assoc, Memory.read_writeBytes_inside m b _ _ hlt]
  rw [List.getElem?_eq_getElem hlt, List.getElem?_eq_getElem hi] at h
  simpa [List.getElem?_eq_getElem (show j < (f xs[i]).length by rw [hf]; exact hj)] using h

theorem ofNat_ofLeBytes_real (x : F64) : (⟨BitVec.ofNat 64 (ofLeBytes (realBytes x))⟩ : F64) = x := by
  have h := x.bits.isLt
  cases x
  simp only [realBytes, ofLeBytes_leBytes]
  congr 1
  apply BitVec.eq_of_toNat_eq
  rw [BitVec.toNat_ofNat]
  simp only at h ⊢
  omega

/-- A REAL64 buffer written whole reads back element by element. -/
theorem readReal_writeReals (c : Config) (m : Memory) (b : Nat) (xs : List F64) (i : Nat) (hi : i < xs.length) :
    readReal c .real64 (writeReals m b xs) b i = xs[i] := by
  have h : Memory.memRead (writeReals m b xs) (b + 8 * i) 8 = ofLeBytes (realBytes xs[i]) :=
    Memory.memRead_eq _ _ _ _ (realBytes_length _) fun j hj =>
      Memory.read_elements realBytes 8 realBytes_length m b xs i j hi (by simpa using hj)
  simp only [readReal, readF64, h]
  exact ofNat_ofLeBytes_real _

/-- A CPLX128 buffer written whole reads back element by element. -/
theorem readCplx_writeCplxs (m : Memory) (b : Nat) (zs : List Fp.Cplx) (i : Nat) (hi : i < zs.length) :
    readCplx (writeCplxs m b zs) b i = zs[i] := by
  have hre : Memory.memRead (writeCplxs m b zs) (b + 16 * i) 8 = ofLeBytes (realBytes zs[i].re) :=
    Memory.memRead_eq _ _ _ _ (realBytes_length _) fun j hj => by
      have hj' : j < 8 := by simpa using hj
      rw [writeCplxs, Memory.read_elements cplxBytes 16 cplxBytes_length m b zs i j hi (by omega)]
      simp only [cplxBytes]
      rw [List.getElem_append_left]
  have him : Memory.memRead (writeCplxs m b zs) (b + 16 * i + 8) 8 = ofLeBytes (realBytes zs[i].im) :=
    Memory.memRead_eq _ _ _ _ (realBytes_length _) fun j hj => by
      have hj' : j < 8 := by simpa using hj
      rw [writeCplxs, Nat.add_assoc, Memory.read_elements cplxBytes 16 cplxBytes_length m b zs i (8 + j) hi (by omega)]
      simp only [cplxBytes]
      rw [List.getElem_append_right (by simp)]
      simp
  simp only [readCplx, readF64, hre, him, ofNat_ofLeBytes_real]

/-- A PCM16 buffer written whole reads back as the samples' low 16 bits. -/
theorem readPcm_writePcms (m : Memory) (b : Nat) (vs : List Int) (i : Nat) (hi : i < vs.length) :
    readPcm (writePcms m b vs) (b + 2 * i) = (BitVec.ofInt 16 vs[i]).toInt := by
  have h : Memory.memRead (writePcms m b vs) (b + 2 * i) 2 = ofLeBytes (pcmBytes vs[i]) :=
    Memory.memRead_eq _ _ _ _ (pcmBytes_length _) fun j hj =>
      Memory.read_elements pcmBytes 2 pcmBytes_length m b vs i j hi (by simpa using hj)
  have hl := (BitVec.ofInt 16 vs[i]).isLt
  simp only [readPcm, h, pcmBytes, ofLeBytes_leBytes]
  congr 1
  apply BitVec.eq_of_toNat_eq
  rw [BitVec.toNat_ofNat]
  omega

theorem writeReals_outside (m : Memory) (b : Nat) (xs : List F64) (a : Nat) (h : a < b ∨ b + 8 * xs.length ≤ a) :
    Memory.read (writeReals m b xs) a = Memory.read m a :=
  Memory.read_writeBytes_outside m b _ a (by rw [flatMap_bytes_length _ 8 realBytes_length]; exact h)

theorem writeCplxs_outside (m : Memory) (b : Nat) (zs : List Fp.Cplx) (a : Nat) (h : a < b ∨ b + 16 * zs.length ≤ a) :
    Memory.read (writeCplxs m b zs) a = Memory.read m a :=
  Memory.read_writeBytes_outside m b _ a (by rw [flatMap_bytes_length _ 16 cplxBytes_length]; exact h)

theorem writePcms_outside (m : Memory) (b : Nat) (vs : List Int) (a : Nat) (h : a < b ∨ b + 2 * vs.length ≤ a) :
    Memory.read (writePcms m b vs) a = Memory.read m a :=
  Memory.read_writeBytes_outside m b _ a (by rw [flatMap_bytes_length _ 2 pcmBytes_length]; exact h)

/-- An element read depends only on its own bytes. -/
theorem Memory.memRead_congr (m m' : Memory) (a n : Nat) (h : ∀ j, j < n → Memory.read m' (a + j) = Memory.read m (a + j)) :
    Memory.memRead m' a n = Memory.memRead m a n := by
  unfold Memory.memRead
  congr 1
  apply List.map_congr_left
  intro j hj
  exact h j (List.mem_range.mp hj)

@[simp] theorem readReals_length (c : Config) (fmt : Fmt) (m : Memory) (b n : Nat) : (readReals c fmt m b n).length = n := by
  simp [readReals]

@[simp] theorem readCplxs_length (m : Memory) (b n : Nat) : (readCplxs m b n).length = n := by simp [readCplxs]

theorem readReals_getElem (c : Config) (fmt : Fmt) (m : Memory) (b n i : Nat) (h : i < (readReals c fmt m b n).length) :
    (readReals c fmt m b n)[i] = readReal c fmt m b i := by simp [readReals]

theorem readCplxs_getElem (m : Memory) (b n i : Nat) (h : i < (readCplxs m b n).length) :
    (readCplxs m b n)[i] = readCplx m b i := by simp [readCplxs]

end Sys2Proof.Machine
end

