-- ==== Sys2Proof/Laws/Bodies.lean ====
section
/-!
SUPPORT. What each body leaves: the lengths of the values it computes, the elements it leaves in DMEM, the addresses it
may touch, and that it keeps DMEM's canonical form and bound.
-/

namespace Sys2Proof.Machine

open Sys2Proof.Fp

/-! ### Loops -/

/-- A property kept by every iteration is kept by the loop. -/
theorem forUp_induct {α : Type} (P : α → Prop) (n : Nat) (body : Nat → α → α) (a : α) (h0 : P a)
    (hs : ∀ i b, i < n → P b → P (body i b)) : P (forUp n body a) := by
  induction n with
  | zero => exact h0
  | succ n ih => exact hs n _ (Nat.lt_succ_self n) (ih fun i b hi hb => hs i b (by omega) hb)

theorem firstIndex_some {α : Type} (p : α → Bool) (k : Nat) (l : List α) (i : Nat) (h : firstIndex p k l = some i) :
    ∃ j v, i = k + j ∧ l[j]? = some v ∧ p v = true ∧ ∀ j' v', j' < j → l[j']? = some v' → p v' = false := by
  induction l generalizing k with
  | nil => simp [firstIndex] at h
  | cons v vs ih =>
    by_cases hp : p v = true
    · simp only [firstIndex, hp, if_true, Option.some.injEq] at h
      exact ⟨0, v, by omega, rfl, hp, by omega⟩
    · simp only [firstIndex, hp] at h
      obtain ⟨j, w, hi, hw, hpw, hlt⟩ := ih (k + 1) h
      refine ⟨j + 1, w, by omega, by simpa using hw, hpw, ?_⟩
      intro j' v' hj' hv'
      cases j' with
      | zero => simp only [List.getElem?_cons_zero, Option.some.injEq] at hv'; subst hv'; simpa using hp
      | succ j' => exact hlt j' v' (by omega) (by simpa using hv')

theorem firstIndex_none {α : Type} (p : α → Bool) (k : Nat) (l : List α) (h : firstIndex p k l = none) :
    ∀ v ∈ l, p v = false := by
  induction l generalizing k with
  | nil => simp
  | cons v vs ih =>
    by_cases hp : p v = true
    · simp [firstIndex, hp] at h
    · simp only [firstIndex, hp] at h
      intro w hw
      rcases List.mem_cons.mp hw with rfl | hw
      · simpa using hp
      · exact ih (k + 1) h w hw

/-! ### Lengths -/

@[simp] theorem swap_length (a : List Cplx) (i j : Nat) : (swap a i j).length = a.length := by simp [swap]

@[simp] theorem permute_length (m : Nat) (a : List Cplx) : (permute m a).length = a.length := by
  unfold permute
  apply forUp_induct (fun b : List Cplx => b.length = a.length)
  · rfl
  · intro i b _ hb
    split <;> simp [hb]

@[simp] theorem block_length (wl : Cplx) (h i : Nat) (a : List Cplx) : (block wl h i a).length = a.length := by
  unfold block
  apply forUp_induct (fun st : List Cplx × Cplx => st.1.length = a.length)
  · rfl
  · intro j st _ hst
    simp [butterfly, hst]

@[simp] theorem stage_length (s : Int) (n len : Nat) (a : List Cplx) : (stage s n len a).length = a.length := by
  unfold stage
  apply forUp_induct (fun b : List Cplx => b.length = a.length)
  · rfl
  · intro i b _ hb
    simp [hb]

@[simp] theorem transform_length (f : FwdSign) (m : Nat) (inverse : Bool) (a : List Cplx) :
    (transform f m inverse a).length = a.length := by
  have h : (forUp m (fun t a => stage (twiddleSign f inverse) (2 ^ m) (2 ^ (t + 1)) a) (permute m a)).length = a.length :=
    forUp_induct (fun b : List Cplx => b.length = a.length) _ _ _ (by simp) (by intro i b _ hb; simp [hb])
  unfold transform
  cases inverse <;> simp [h]

@[simp] theorem spectrum_length (n : Nat) (phase : Nat → F64) : (spectrum n phase).length = n := by simp [spectrum]

@[simp] theorem energies_length (vs : List F64) : (energies vs).length = vs.length := by
  induction vs with
  | nil => rfl
  | cons v vs ih => simp [energies, ih]

@[simp] theorem decayCurve_length (floor : F64) (vs : List F64) : (decayCurve floor vs).length = vs.length := by simp [decayCurve]

@[simp] theorem normalized_length (c : Config) (vs : List F64) : (normalized c vs).length = vs.length := by
  unfold normalized
  split <;> simp

theorem nlmsSample_length (eps mu beta x y : F64) (f : Filter) (hx : f.h.length = f.xb.length) (hp : 0 < f.xb.length) :
    (nlmsSample eps mu beta x y f).h.length = f.h.length ∧ (nlmsSample eps mu beta x y f).xb.length = f.xb.length := by
  have hs : (shiftIn x f.xb).length = f.xb.length := by simp [shiftIn]; omega
  unfold nlmsSample
  dsimp only
  split
  · constructor
    · simp [hs, hx]
    · exact hs
  · exact ⟨rfl, hs⟩

/-- Both vectors of an NLMS run keep the filter's length. -/
theorem nlmsRun_length (eps mu beta : F64) (lf : Nat) (xs ys : List F64) (hp : 0 < lf) :
    (nlmsRun eps mu beta lf xs ys).h.length = lf ∧ (nlmsRun eps mu beta lf xs ys).xb.length = lf := by
  unfold nlmsRun
  generalize hl : xs.zip ys = ps
  have : ∀ (ps : List (F64 × F64)) (f : Filter), f.h.length = lf → f.xb.length = lf →
      (ps.foldl (fun f p => nlmsSample eps mu beta p.1 p.2 f) f).h.length = lf ∧
      (ps.foldl (fun f p => nlmsSample eps mu beta p.1 p.2 f) f).xb.length = lf := by
    intro ps
    induction ps with
    | nil => intro f h1 h2; exact ⟨h1, h2⟩
    | cons p ps ih =>
      intro f h1 h2
      have := nlmsSample_length eps mu beta p.1 p.2 f (by omega) (by omega)
      exact ih _ (this.1.trans h1) (this.2.trans h2)
  exact this ps _ (by simp) (by simp)

/-! ### What a body touches -/

theorem fftCore_outside (f : FwdSign) (mem : Memory) (b m : Nat) (inv : Bool) (a : Nat)
    (h : a < b ∨ b + 16 * 2 ^ m ≤ a) : Memory.read (fftCore f mem b m inv) a = Memory.read mem a :=
  writeCplxs_outside mem b _ a (by simpa using h)

theorem tspSynth_outside (mem : Memory) (b m : Nat) (phase : Nat → F64) (a : Nat)
    (h : a < b ∨ b + 16 * 2 ^ m ≤ a) : Memory.read (tspSynth mem b m phase) a = Memory.read mem a :=
  writeCplxs_outside mem b _ a (by simpa using h)

theorem load16Body_outside (c : Config) (m : Memory) (dst n src cnt a : Nat) (h : a < dst ∨ dst + 16 * n ≤ a) :
    Memory.read (load16Body c m dst n src cnt) a = Memory.read m a :=
  writeCplxs_outside m dst _ a (by simpa using h)

theorem deconvMulBody_outside (c : Config) (m : Memory) (z n x y g a : Nat) (h : a < z ∨ z + 16 * n ≤ a) :
    Memory.read (deconvMulBody c m z n x y g) a = Memory.read m a :=
  writeCplxs_outside m z _ a (by simpa using h)

/-- NORMQ's body either finds a non-finite value and writes nothing, or writes the normalized samples. -/
theorem normqBody_cases (c : Config) (m : Memory) (dst n : Nat) (fmt : Fmt) (src : Nat) :
    ((∃ v ∈ readReals c fmt m src n, v.isFinite = false) ∧ normqBody c m dst n fmt src = none) ∨
      ((∀ v ∈ readReals c fmt m src n, v.isFinite = true) ∧
        normqBody c m dst n fmt src =
          some (writePcms m dst (normalized c (readReals c fmt m src n)), peakOf (readReals c fmt m src n))) := by
  by_cases h : (readReals c fmt m src n).all F64.isFinite = true
  · right
    refine ⟨by simpa [List.all_eq_true] using h, ?_⟩
    simp [normqBody, h]
  · left
    constructor
    · simpa [List.all_eq_true] using h
    · simp [normqBody, h]

/-! ### Elements left by a body -/

theorem fftCore_element (f : FwdSign) (mem : Memory) (b m : Nat) (inv : Bool) (k : Nat) (hk : k < 2 ^ m) :
    readCplx (fftCore f mem b m inv) b k =
      (transform f m inv (readCplxs mem b (2 ^ m)))[k]'(by simpa using hk) :=
  readCplx_writeCplxs mem b _ k (by simpa using hk)

theorem tspSynth_element (mem : Memory) (b m : Nat) (phase : Nat → F64) (k : Nat) (hk : k < 2 ^ m) :
    readCplx (tspSynth mem b m phase) b k = spectrumBin (2 ^ m) phase k := by
  rw [tspSynth, readCplx_writeCplxs mem b _ k (by simpa using hk)]
  simp [spectrum]

theorem load16Body_element (c : Config) (m : Memory) (dst n src cnt k : Nat) (hk : k < n) :
    readCplx (load16Body c m dst n src cnt) dst k = loadedElem c m src cnt k := by
  rw [load16Body, readCplx_writeCplxs m dst _ k (by simpa using hk)]
  simp

theorem deconvMulBody_element (c : Config) (m : Memory) (z n x y g k : Nat) (hk : k < n) :
    readCplx (deconvMulBody c m z n x y g) z k = guardedBin c (readCplx m x k) (readCplx m y k) (readCplx m g k) := by
  rw [deconvMulBody, readCplx_writeCplxs m z _ k (by simpa using hk)]
  simp

/-! ### DMEM's form -/

/-- DMEM in canonical form and inside `size`. -/
structure Memory.Good (size : Nat) (m : Memory) : Prop where
  wf : Memory.wf m = true
  below : Memory.below size m = true

theorem Memory.Good.writeBytes {size : Nat} {m : Memory} (h : Memory.Good size m) (b : Nat) (vs : List Byte)
    (hb : vs.length = 0 ∨ b + vs.length ≤ size) : Memory.Good size (Memory.writeBytes m b vs) :=
  ⟨Memory.writeBytes_wf m b vs h.wf, Memory.writeBytes_below size m b vs h.below hb⟩

theorem Memory.Good.writeCplxs {size : Nat} {m : Memory} (h : Memory.Good size m) (b : Nat) (zs : List Cplx)
    (hb : b + 16 * zs.length ≤ size) : Memory.Good size (writeCplxs m b zs) :=
  h.writeBytes b _ (by rw [flatMap_bytes_length _ 16 cplxBytes_length]; exact .inr hb)

theorem Memory.Good.writeReals {size : Nat} {m : Memory} (h : Memory.Good size m) (b : Nat) (xs : List F64)
    (hb : b + 8 * xs.length ≤ size) : Memory.Good size (writeReals m b xs) :=
  h.writeBytes b _ (by rw [flatMap_bytes_length _ 8 realBytes_length]; exact .inr hb)

theorem Memory.Good.writePcms {size : Nat} {m : Memory} (h : Memory.Good size m) (b : Nat) (vs : List Int)
    (hb : b + 2 * vs.length ≤ size) : Memory.Good size (writePcms m b vs) :=
  h.writeBytes b _ (by rw [flatMap_bytes_length _ 2 pcmBytes_length]; exact .inr hb)

end Sys2Proof.Machine
end

