-- ==== Sys2Proof/Laws/Bounds.lean ====
section
/-!
SUPPORT. Bounds on rounded arithmetic (00_scope.md R10) and on COS and SIN (R14): a rounded result is close to the exact
one and finite, where the exact one is far from overflow.
-/

namespace Sys2Proof.Fp

/-! ### One rounded operation -/

/-- The value of a binary64 as a real number. -/
noncomputable def val (x : F64) : ℝ := (x.toRat : ℝ)

/-- z is finite and close to the exact result v. -/
def Close (v : ℝ) (z : F64) : Prop := z.isFinite = true ∧ |val z - v| ≤ |v| / 2 ^ 52 + 1 / 2 ^ 100

/-- x is finite and at most b in magnitude. -/
def Within (b : ℝ) (x : F64) : Prop := x.isFinite = true ∧ |val x| ≤ b

theorem val_eq (z : F64) : val z = (if z.sign then -1 else 1) * (z.magUnits : ℝ) / 2 ^ 1074 := by
  unfold val
  rw [toRat_eq]
  push_cast
  cases z.sign <;> simp

/-- A rounded magnitude of m / 2^k units is close to an exact result it is within one unit of. -/
theorem round_close (neg : Bool) (m k : Nat) (e : ℝ) (he0 : 0 ≤ e) (hb : e ≤ 2 ^ 900)
    (he : |(m : ℝ) / 2 ^ k - e * 2 ^ 1074| ≤ 1) : Close ((if neg then -1 else 1) * e) (round neg m k) := by
  obtain ⟨U, hU, hU0⟩ : ∃ U : ℝ, U = 2 ^ 1074 ∧ 2 ^ 101 ≤ U :=
    ⟨_, rfl, pow_le_pow_right₀ (by norm_num) (by norm_num)⟩
  have hUpos : 0 < U := lt_of_lt_of_le (by positivity) hU0
  have hUle : U ≤ 2 ^ 1074 := hU.le
  rw [← hU] at he
  obtain ⟨hq, hq'⟩ := rneShift_bounds m k
  obtain ⟨hs1, hs2, -⟩ := rneShift_spec m (k + spacingLog m k)
  have hcases := round_cases neg m k
  have hpe : spacingLog m k = m.log2 - (k + 52) := rfl
  have hk0 : (0 : ℝ) < 2 ^ k := by positivity
  have hX : (m : ℝ) / 2 ^ k ≤ e * U + 1 := by linarith [(abs_le.mp he).2]
  have hlog : m.log2 ≤ k + 1975 := by
    by_contra h
    have h0 : m ≠ 0 := by rintro h0; rw [h0] at h; simp at h
    have h1 : (2 : ℝ) ^ m.log2 ≤ m := by exact_mod_cast Nat.log2_self_le h0
    have h2 : (2 : ℝ) ^ (k + 1976) ≤ 2 ^ m.log2 := pow_le_pow_right₀ (by norm_num) (by omega)
    have h3 : (2 : ℝ) ^ 1976 ≤ m / 2 ^ k := by
      rw [le_div_iff₀ hk0, ← pow_add, add_comm]
      exact h2.trans h1
    have h4 : e * U ≤ 2 ^ 1974 := by
      calc e * U ≤ 2 ^ 900 * 2 ^ 1074 := by gcongr
        _ = 2 ^ 1974 := by rw [← pow_add]
    have h5 : (2 : ℝ) ^ 1976 = 2 ^ 1974 * 2 ^ 2 := by rw [← pow_add]
    have h6 : (1 : ℝ) ≤ 2 ^ 1974 := one_le_pow₀ (by norm_num)
    rw [h5] at h3
    generalize (2 : ℝ) ^ 1974 = b at *
    linarith only [h3, h4, h6, hX]
  generalize hn : rneShift m (k + spacingLog m k) = q at *
  generalize hp : spacingLog m k = p at *
  have hfin : (round neg m k).isFinite = true ∧ (round neg m k).sign = neg ∧ (round neg m k).magUnits = q * 2 ^ p := by
    rcases hcases with h | ⟨-, h⟩
    · exact h
    · omega
  have h1 : (2 * m : ℝ) ≤ 2 * (q * 2 ^ (k + p)) + 2 ^ (k + p) := by exact_mod_cast hs1
  have h2 : (2 * (q * 2 ^ (k + p)) : ℝ) ≤ 2 * m + 2 ^ (k + p) := by exact_mod_cast hs2
  rw [pow_add] at h1 h2
  have hm : (m : ℝ) = m / 2 ^ k * 2 ^ k := by field_simp
  have hM : |(q : ℝ) * 2 ^ p - m / 2 ^ k| ≤ 2 ^ p / 2 := by
    rw [hm] at h1 h2
    generalize (m : ℝ) / 2 ^ k = X at *
    generalize (2 : ℝ) ^ k = K at *
    generalize (2 : ℝ) ^ p = P at *
    rw [abs_le]
    constructor
    · have : X * K ≤ (q * P + P / 2) * K := by linarith
      linarith [le_of_mul_le_mul_right this hk0]
    · have : (q * P) * K ≤ (X + P / 2) * K := by linarith
      linarith [le_of_mul_le_mul_right this hk0]
  have hP : (2 : ℝ) ^ p / 2 ≤ m / 2 ^ k / 2 ^ 53 + 1 / 2 := by
    rcases Nat.eq_zero_or_pos p with hp0 | hp0
    · rw [hp0]
      have : (0 : ℝ) ≤ m / 2 ^ k / 2 ^ 53 := by positivity
      linarith
    · have h0 : m ≠ 0 := by rintro h0; rw [h0] at hpe; simp at hpe; omega
      have h3 : 2 ^ (p + 52 + k) ≤ m := (Nat.pow_le_pow_right (by norm_num) (by omega)).trans (Nat.log2_self_le h0)
      have h4 : (2 : ℝ) ^ (p + 52) ≤ m / 2 ^ k := by
        rw [le_div_iff₀ hk0, ← pow_add]
        exact_mod_cast h3
      rw [pow_add] at h4
      rw [show (2 : ℝ) ^ 53 = 2 ^ 52 * 2 by norm_num]
      rw [← div_div, div_add_div _ _ (by norm_num) (by norm_num), div_le_div_iff₀ (by norm_num) (by norm_num)]
      have : (2 : ℝ) ^ p ≤ m / 2 ^ k / 2 ^ 52 := by rw [le_div_iff₀ (by positivity)]; exact h4
      linarith
  refine ⟨hfin.1, ?_⟩
  rw [val_eq, hfin.2.1, hfin.2.2, ← hU]
  push_cast
  have hres : |(q : ℝ) * 2 ^ p / U - e| ≤ e / 2 ^ 52 + 1 / 2 ^ 100 := by
    have e1 : (q : ℝ) * 2 ^ p / U - e = ((q : ℝ) * 2 ^ p - e * U) / U := by field_simp
    rw [e1, abs_div, abs_of_pos hUpos, div_le_iff₀ hUpos]
    have t : |(q : ℝ) * 2 ^ p - e * U| ≤ |(q : ℝ) * 2 ^ p - m / 2 ^ k| + |(m : ℝ) / 2 ^ k - e * U| := abs_sub_le _ _ _
    have hu : (2 : ℝ) ≤ 1 / 2 ^ 100 * U := by
      rw [one_div_mul_eq_div, le_div_iff₀ (by positivity)]
      calc (2 : ℝ) * 2 ^ 100 = 2 ^ 101 := by norm_num
        _ ≤ U := hU0
    have heU : 0 ≤ e * U := by positivity
    have h53 : (m : ℝ) / 2 ^ k / 2 ^ 53 ≤ (e * U + 1) / 2 ^ 53 := by gcongr
    have hexp : (e / 2 ^ 52 + 1 / 2 ^ 100) * U = e * U / 2 ^ 52 + 1 / 2 ^ 100 * U := by ring
    rw [hexp]
    generalize e * U = Z at *
    generalize 1 / 2 ^ 100 * U = Y at *
    norm_num at h53 ⊢
    linarith
  have hea : |(if neg then -1 else 1 : ℝ) * e| = e := by
    rw [abs_mul, abs_of_nonneg he0]
    cases neg <;> simp
  rw [hea]
  cases neg
  · simpa [mul_div_assoc] using hres
  · have e2 : (if true = true then (-1 : ℝ) else 1) * ((q : ℝ) * 2 ^ p) / U - (if true = true then (-1 : ℝ) else 1) * e =
        -((q : ℝ) * 2 ^ p / U - e) := by simp; ring
    rw [e2, abs_neg]
    exact hres

/-- The value of a finite operand through its units. -/
theorem val_units (x : F64) : val x = (x.units : ℝ) / 2 ^ 1074 := by
  unfold val F64.toRat
  push_cast
  rfl

theorem abs_val (x : F64) : |val x| = x.magUnits / 2 ^ 1074 := abs_toRat x

theorem not_special (x : F64) (h : x.isFinite = true) : x.isNaN = false ∧ x.isInf = false := by
  simp only [F64.isFinite, bne_iff_ne, ne_eq] at h
  simp [F64.isNaN, F64.isInf, h]

theorem neg_toNat (x : F64) : (neg x).bits.toNat = (x.bits.toNat + 2 ^ 63) % 2 ^ 64 := by
  have hx := x.bits.isLt
  have h0 : (neg x).bits.toNat = x.bits.toNat ^^^ 2 ^ 63 := by simp [neg]
  have hd : (x.bits.toNat ^^^ 2 ^ 63) / 2 ^ 63 = x.bits.toNat / 2 ^ 63 ^^^ 1 := by
    rw [Nat.xor_div_two_pow, Nat.div_self (by norm_num)]
  have hm : (x.bits.toNat ^^^ 2 ^ 63) % 2 ^ 63 = x.bits.toNat % 2 ^ 63 := by
    rw [Nat.xor_mod_two_pow, Nat.mod_self, Nat.xor_zero]
  rw [h0]
  generalize x.bits.toNat = n at *
  generalize n ^^^ 2 ^ 63 = r at *
  rcases Nat.lt_or_ge n (2 ^ 63) with h | h
  · rw [show n / 2 ^ 63 = 0 by omega] at hd
    have : r / 2 ^ 63 = 1 := hd
    omega
  · rw [show n / 2 ^ 63 = 1 by omega] at hd
    have : r / 2 ^ 63 = 0 := hd
    omega

theorem isFinite_neg (x : F64) (h : x.isFinite = true) : (neg x).isFinite = true := by
  have hx := x.bits.isLt
  have h1 := neg_toNat x
  simp only [F64.isFinite, F64.expField, h1, bne_iff_ne, ne_eq] at h ⊢
  omega

theorem val_neg (x : F64) : val (neg x) = - val x := by
  have hx := x.bits.isLt
  have h1 := neg_toNat x
  have hm : (neg x).magUnits = x.magUnits := by
    have e1 : (neg x).expField = x.expField := by simp only [F64.expField, h1]; omega
    have e2 : (neg x).frac = x.frac := by simp only [F64.frac, h1]; omega
    simp only [F64.magUnits, F64.significand, e1, e2]
  have hs : (neg x).sign = !x.sign := by
    simp only [F64.sign, h1]
    by_cases h : 2 ^ 63 ≤ x.bits.toNat
    · rw [decide_eq_true h, decide_eq_false]; rfl; omega
    · rw [decide_eq_false h, decide_eq_true]; rfl; omega
  rw [val_eq, val_eq, hm, hs]
  cases x.sign <;> simp [neg_div]

theorem val_zeroOf (n : Bool) : (zeroOf n).isFinite = true ∧ val (zeroOf n) = 0 := by
  have h : (zeroOf n).isZero = true := by cases n <;> decide
  exact ⟨isFinite_of_isZero _ h, by rw [val, toRat_zero _ h]; norm_num⟩

theorem close_of_eq {v : ℝ} {z : F64} (hf : z.isFinite = true) (h : val z = v) : Close v z :=
  ⟨hf, by rw [h, sub_self, abs_zero]; positivity⟩

/-- The rounded sum, where it does not overflow. -/
theorem add_close (x y : F64) (hx : x.isFinite = true) (hy : y.isFinite = true) (h : |val x + val y| ≤ 2 ^ 900) :
    Close (val x + val y) (add x y) := by
  obtain ⟨hx1, hx2⟩ := not_special x hx
  obtain ⟨hy1, hy2⟩ := not_special y hy
  have e0 : val x + val y = ((x.units + y.units : ℤ) : ℝ) / 2 ^ 1074 := by
    rw [val_units, val_units]
    push_cast
    ring
  simp only [add, sum, hx1, hx2, hy1, hy2, Bool.or_self, Bool.and_self, Bool.false_eq_true, if_false]
  generalize hs : x.units + y.units = s at *
  by_cases h0 : s = 0
  · rw [if_pos h0]
    exact close_of_eq (val_zeroOf _).1 (by rw [(val_zeroOf _).2, e0, h0]; simp)
  · rw [if_neg h0, e0]
    rw [e0] at h
    have hU : (0 : ℝ) < 2 ^ 1074 := by positivity
    have hc := round_close (decide (s < 0)) s.natAbs 0 ((s.natAbs : ℝ) / 2 ^ 1074) (by positivity)
      (by rw [abs_div, abs_of_pos hU] at h; rwa [Nat.cast_natAbs, Int.cast_abs])
      (by rw [div_mul_cancel₀ _ hU.ne', pow_zero, div_one, sub_self, abs_zero]; exact zero_le_one)
    have e1 : (if decide (s < 0) = true then (-1 : ℝ) else 1) * ((s.natAbs : ℝ) / 2 ^ 1074) = (s : ℝ) / 2 ^ 1074 := by
      rw [Nat.cast_natAbs, Int.cast_abs, ← mul_div_assoc]
      congr 1
      rcases lt_or_ge s 0 with hn | hn
      · have : (s : ℝ) < 0 := by exact_mod_cast hn
        simp [hn, abs_of_neg this]
      · have h1 : (0 : ℝ) ≤ s := by exact_mod_cast hn
        simp [not_lt.mpr hn, abs_of_nonneg h1]
    rwa [e1] at hc

/-- The rounded difference, where it does not overflow. -/
theorem sub_close (x y : F64) (hx : x.isFinite = true) (hy : y.isFinite = true) (h : |val x - val y| ≤ 2 ^ 900) :
    Close (val x - val y) (sub x y) := by
  have hn := isFinite_neg y hy
  have h1 := add_close x (neg y) hx hn (by rw [val_neg, ← sub_eq_add_neg]; exact h)
  obtain ⟨hx1, hx2⟩ := not_special x hx
  obtain ⟨hy1, hy2⟩ := not_special y hy
  obtain ⟨hn1, hn2⟩ := not_special _ hn
  rw [val_neg, ← sub_eq_add_neg] at h1
  have e : sub x y = add x (neg y) := by
    simp only [sub, add, sum, hx1, hx2, hy1, hn1, hn2, Bool.or_self, Bool.and_self, Bool.false_eq_true, if_false]
  rw [e]
  exact h1

theorem sign_mul (x y : F64) (a b : ℝ) :
    (if (x.sign != y.sign) = true then (-1 : ℝ) else 1) * (a * b) =
      ((if x.sign then -1 else 1) * a) * ((if y.sign then -1 else 1) * b) := by
  cases x.sign <;> cases y.sign <;> simp

/-- The rounded product, where it does not overflow. -/
theorem mul_close (x y : F64) (hx : x.isFinite = true) (hy : y.isFinite = true) (h : |val x * val y| ≤ 2 ^ 900) :
    Close (val x * val y) (mul x y) := by
  obtain ⟨hx1, hx2⟩ := not_special x hx
  obtain ⟨hy1, hy2⟩ := not_special y hy
  simp only [mul, hx1, hx2, hy1, hy2, Bool.or_self, Bool.false_eq_true, if_false]
  have hU : (0 : ℝ) < 2 ^ 1074 := by positivity
  have habs : (x.magUnits / 2 ^ 1074 * (y.magUnits / 2 ^ 1074) : ℝ) = |val x * val y| := by
    rw [abs_mul, abs_val, abs_val]
  have hc := round_close (x.sign != y.sign) (x.magUnits * y.magUnits) 1074 (x.magUnits / 2 ^ 1074 * (y.magUnits / 2 ^ 1074))
    (by positivity) (by rw [habs]; exact h) (by
      push_cast
      generalize (2 : ℝ) ^ 1074 = U at *
      rw [show (x.magUnits : ℝ) * y.magUnits / U - x.magUnits / U * (y.magUnits / U) * U = 0 by field_simp; ring]
      simp)
  rw [sign_mul x y, mul_div_assoc' _ (x.magUnits : ℝ), mul_div_assoc' _ (y.magUnits : ℝ), ← val_eq, ← val_eq] at hc
  exact hc

/-- The rounded quotient, where it does not overflow. -/
theorem div_close (x y : F64) (hx : x.isFinite = true) (hy : y.isFinite = true) (hy0 : val y ≠ 0)
    (h : |val x / val y| ≤ 2 ^ 900) : Close (val x / val y) (div x y) := by
  obtain ⟨hx1, hx2⟩ := not_special x hx
  obtain ⟨hy1, hy2⟩ := not_special y hy
  have hyz : y.isZero = false := by
    by_contra hz
    rw [Bool.not_eq_false] at hz
    exact hy0 (by rw [val, toRat_zero y hz]; norm_num)
  have hm : y.magUnits ≠ 0 := by
    intro h0
    exact hy0 (by rw [val_eq, h0]; simp)
  simp only [div, hx1, hx2, hy1, hy2, hyz, Bool.or_self, Bool.false_eq_true, if_false]
  have hU : (0 : ℝ) < 2 ^ 1074 := by positivity
  have hY : (0 : ℝ) < y.magUnits := by exact_mod_cast Nat.pos_of_ne_zero hm
  have habs : (x.magUnits / y.magUnits : ℝ) = |val x / val y| := by
    rw [abs_div, abs_val, abs_val]
    generalize (2 : ℝ) ^ 1074 = U at *
    field_simp
  have e1 : (if (x.sign != y.sign) = true then (-1 : ℝ) else 1) * (x.magUnits / y.magUnits) = val x / val y := by
    rw [val_eq, val_eq]
    generalize (2 : ℝ) ^ 1074 = U at *
    cases x.sign <;> cases y.sign <;> simp <;> field_simp
  have hc := round_close (x.sign != y.sign)
    (2 * (x.magUnits * 2 ^ 1075 / y.magUnits) + if x.magUnits * 2 ^ 1075 % y.magUnits = 0 then 0 else 1) 2
    (x.magUnits / y.magUnits) (by positivity) (by rw [habs]; exact h) (by
      have hdm := Nat.div_add_mod (x.magUnits * 2 ^ 1075) y.magUnits
      have hlt := Nat.mod_lt (x.magUnits * 2 ^ 1075) (Nat.pos_of_ne_zero hm)
      have e2 : (x.magUnits / y.magUnits : ℝ) * 2 ^ 1074 = (x.magUnits * 2 ^ 1075 : ℕ) / y.magUnits / 2 := by
        push_cast
        rw [pow_succ (2 : ℝ) 1074]
        generalize (2 : ℝ) ^ 1074 = U at *
        field_simp
      rw [e2]
      generalize x.magUnits * 2 ^ 1075 = n at *
      generalize y.magUnits = d at *
      have e3 : (n : ℝ) = d * (n / d : ℕ) + (n % d : ℕ) := by exact_mod_cast hdm.symm
      have hr : ((n % d : ℕ) : ℝ) < d := by exact_mod_cast hlt
      have hr0 : (0 : ℝ) ≤ ((n % d : ℕ) : ℝ) := Nat.cast_nonneg _
      have e4 : (n : ℝ) / d = (n / d : ℕ) + ((n % d : ℕ) : ℝ) / d := by
        rw [e3, add_div, mul_div_cancel_left₀ _ hY.ne']
      have hr1 : ((n % d : ℕ) : ℝ) / d < 1 := (div_lt_one hY).mpr hr
      have hr2 : 0 ≤ ((n % d : ℕ) : ℝ) / d := by positivity
      rw [e4, abs_le]
      split
      next h0 =>
        rw [h0]
        push_cast
        constructor <;> norm_num <;> linarith
      next h0 =>
        generalize ((n % d : ℕ) : ℝ) / d = r at *
        push_cast
        constructor <;> norm_num <;> linarith)
  rwa [e1] at hc

/-! ### Magnitudes -/

theorem Within.mono {a b : ℝ} {x : F64} (h : Within a x) (hab : a ≤ b) : Within b x := ⟨h.1, h.2.trans hab⟩

/-- A rounded result is at most twice a bound of the exact one that is not tiny. -/
theorem Close.within {v b : ℝ} {z : F64} (h : Close v z) (hv : |v| ≤ b) (hb : 1 / 2 ^ 40 ≤ b) : Within (2 * b) z := by
  refine ⟨h.1, ?_⟩
  have h1 := abs_sub_abs_le_abs_sub (val z) v
  have h2 := h.2
  norm_num at h2 hb ⊢
  linarith

theorem Within.neg {b : ℝ} {x : F64} (h : Within b x) : Within b (neg x) :=
  ⟨isFinite_neg x h.1, by rw [val_neg, abs_neg]; exact h.2⟩

theorem Within.add {a b : ℝ} {x y : F64} (hx : Within a x) (hy : Within b y) (h0 : 1 / 2 ^ 40 ≤ a + b)
    (h1 : a + b ≤ 2 ^ 900) : Within (2 * (a + b)) (add x y) := by
  have hv := (abs_add_le (val x) (val y)).trans (add_le_add hx.2 hy.2)
  exact (add_close x y hx.1 hy.1 (hv.trans h1)).within hv h0

theorem Within.sub {a b : ℝ} {x y : F64} (hx : Within a x) (hy : Within b y) (h0 : 1 / 2 ^ 40 ≤ a + b)
    (h1 : a + b ≤ 2 ^ 900) : Within (2 * (a + b)) (sub x y) := by
  have hv := (abs_sub (val x) (val y)).trans (add_le_add hx.2 hy.2)
  exact (sub_close x y hx.1 hy.1 (hv.trans h1)).within hv h0

theorem abs_mul_le {a b u v : ℝ} (hx : |u| ≤ a) (hy : |v| ≤ b) : |u * v| ≤ a * b := by
  rw [abs_mul]
  exact mul_le_mul hx hy (abs_nonneg _) ((abs_nonneg _).trans hx)

theorem Within.mul {a b : ℝ} {x y : F64} (hx : Within a x) (hy : Within b y) (h0 : 1 / 2 ^ 40 ≤ a * b)
    (h1 : a * b ≤ 2 ^ 900) : Within (2 * (a * b)) (mul x y) := by
  have hv := abs_mul_le hx.2 hy.2
  exact (mul_close x y hx.1 hy.1 (hv.trans h1)).within hv h0

/-- A quotient by a value of at least one half. -/
theorem Within.div {a : ℝ} {x y : F64} (hx : Within a x) (hy : y.isFinite = true) (hy1 : 1 / 2 ≤ |val y|)
    (h0 : 1 ≤ a) (h1 : a ≤ 2 ^ 800) : Within (4 * a) (div x y) := by
  have hpos : 0 < |val y| := by linarith
  have hv : |val x / val y| ≤ 2 * a := by
    rw [abs_div, div_le_iff₀ hpos]
    have := hx.2
    nlinarith
  have h2 : 2 * a ≤ 2 ^ 900 := by
    have e : (2 : ℝ) ^ 900 = 2 ^ 800 * 2 ^ 100 := by rw [← pow_add]
    rw [e]
    clear e
    generalize (2 : ℝ) ^ 800 = U at *
    norm_num
    linarith
  exact ((div_close x y hx.1 hy (abs_pos.mp hpos) (hv.trans h2)).within hv (by norm_num; linarith)).mono (by linarith)

/-- The conversion of an integer. -/
theorem ofInt_close (i : Int) (h : i.natAbs ≤ 2 ^ 60) : Close i (ofInt i) := by
  have hU : (0 : ℝ) < 2 ^ 1074 := by positivity
  have hn : (i.natAbs : ℝ) ≤ 2 ^ 900 :=
    (by exact_mod_cast h : (i.natAbs : ℝ) ≤ 2 ^ 60).trans (pow_le_pow_right₀ (by norm_num) (by norm_num))
  have hc := round_close (decide (i < 0)) (i.natAbs * 2 ^ 1074) 0 i.natAbs (Nat.cast_nonneg _) hn (by
    push_cast
    generalize (2 : ℝ) ^ 1074 = U at *
    simp)
  have e1 : (if decide (i < 0) = true then (-1 : ℝ) else 1) * (i.natAbs : ℝ) = (i : ℝ) := by
    rw [Nat.cast_natAbs, Int.cast_abs]
    rcases lt_or_ge i 0 with hn | hn
    · have : (i : ℝ) < 0 := by exact_mod_cast hn
      simp [hn, abs_of_neg this]
    · have h1 : (0 : ℝ) ≤ i := by exact_mod_cast hn
      simp [not_lt.mpr hn, abs_of_nonneg h1]
  rwa [e1] at hc

theorem ofNat_close (n : Nat) (h : n ≤ 2 ^ 60) : Close n (ofNat n) := by
  have := ofInt_close n (by simpa using h)
  have hd : decide ((n : Int) < 0) = false := decide_eq_false (by omega)
  rw [show ofInt n = ofNat n by rw [ofInt, ofNat, hd, Int.natAbs_natCast]] at this
  simpa using this

theorem Within.ofNat (n : Nat) (b : ℝ) (h : (n : ℝ) ≤ b) (hb : 1 ≤ b) (hb2 : b ≤ 2 ^ 60) : Within (2 * b) (ofNat n) :=
  (ofNat_close n (by exact_mod_cast h.trans hb2)).within (by simpa using h) (by norm_num; linarith)

theorem ofNat_ge (n : Nat) (h0 : 1 ≤ n) (h : n ≤ 2 ^ 60) : (ofNat n).isFinite = true ∧ 1 / 2 ≤ |val (ofNat n)| := by
  obtain ⟨hf, hc⟩ := ofNat_close n h
  refine ⟨hf, ?_⟩
  have h1 : (1 : ℝ) ≤ n := by exact_mod_cast h0
  have h2 := (abs_le.mp hc).1
  rw [abs_of_nonneg (by linarith : (0 : ℝ) ≤ n)] at h2
  refine le_trans ?_ (le_abs_self _)
  norm_num at h2 ⊢
  linarith

/-- A constant's magnitude. -/
theorem within_const (x : F64) (b : Nat) (hf : x.isFinite = true) (h : x.magUnits ≤ b * 2 ^ 1074) : Within b x := by
  refine ⟨hf, ?_⟩
  rw [abs_val, div_le_iff₀ (by positivity)]
  have : ((x.magUnits : ℕ) : ℝ) ≤ ((b * 2 ^ 1074 : ℕ) : ℝ) := Nat.cast_le.mpr h
  rwa [Nat.cast_mul, Nat.cast_pow, Nat.cast_ofNat] at this

theorem within_twoPi : Within 8 Config.twoPi := by
  have := within_const Config.twoPi 8 (by decide) (by decide +kernel)
  simpa using this

theorem within_negTwoPi : Within 8 Config.negTwoPi := by
  have := within_const Config.negTwoPi 8 (by decide) (by decide +kernel)
  simpa using this

theorem pcmInScale_ge : 1 / 2 ≤ |val Config.thisHardware.pcmInScale| := by
  have h : 2 ^ 1074 ≤ Config.thisHardware.pcmInScale.magUnits := by decide +kernel
  have h2 : ((2 ^ 1074 : ℕ) : ℝ) ≤ (Config.thisHardware.pcmInScale.magUnits : ℝ) := Nat.cast_le.mpr h
  rw [Nat.cast_pow, Nat.cast_ofNat] at h2
  rw [abs_val, le_div_iff₀ (by positivity)]
  have h3 : (0 : ℝ) < 2 ^ 1074 := by positivity
  generalize (2 : ℝ) ^ 1074 = U at *
  linarith

/-! ### COS and SIN (00_scope.md R14) -/

theorem cos_eq (x : F64) : Config.cos x = Config.functions.cos x := by
  unfold Config.cos
  split
  next h => exact (Config.functions.cos_zero x h).symm
  next => rfl

theorem sin_eq (x : F64) : Config.sin x = Config.functions.sin x := by
  unfold Config.sin
  split
  next h => exact (Config.functions.sin_zero x h).symm
  next => rfl

theorem log10_eq (x : F64) : Config.log10 x = Config.functions.log10 x := by
  unfold Config.log10
  split
  next h => rw [h]; exact Config.functions.log10_one.symm
  next => rfl

theorem cos_close (x : F64) (h : x.isFinite = true) : Config.WithinOneUlp (Real.cos x.toRat) (Config.cos x) := by
  rw [cos_eq]
  exact Config.functions.cos_close x h

theorem sin_close (x : F64) (h : x.isFinite = true) : Config.WithinOneUlp (Real.sin x.toRat) (Config.sin x) := by
  rw [sin_eq]
  exact Config.functions.sin_close x h

theorem log10_close (x : F64) (h : x.isFinite = true) (hp : 0 < x.toRat) :
    Config.WithinOneUlp (Real.logb 10 x.toRat) (Config.log10 x) := by
  rw [log10_eq]
  exact Config.functions.log10_close x h hp

theorem within_cos (x : F64) (h : x.isFinite = true) : Within 1 (Config.cos x) := by
  refine ⟨(cos_close x h).1, ?_⟩
  have := Config.functions.cos_unit x h
  rw [← cos_eq] at this
  rw [val]
  exact_mod_cast this

theorem within_sin (x : F64) (h : x.isFinite = true) : Within 1 (Config.sin x) := by
  refine ⟨(sin_close x h).1, ?_⟩
  have := Config.functions.sin_unit x h
  rw [← sin_eq] at this
  rw [val]
  exact_mod_cast this

/-- One ulp of a value of at most 1 is at most 2^−52. -/
theorem WithinOneUlp_unit {y : ℝ} {z : F64} (h : Config.WithinOneUlp y z) (hy : |y| ≤ 1) : |val z - y| ≤ 1 / 2 ^ 52 := by
  obtain ⟨-, e, -, he, hd⟩ := h
  refine hd.trans ?_
  have hle : e ≤ -52 := by
    rcases he with he | he
    · omega
    · have h1 : (2 : ℝ) ^ (e + 52) ≤ 2 ^ (0 : ℤ) := by
        rw [zpow_zero]
        exact he.trans hy
      have := (zpow_le_zpow_iff_right₀ (by norm_num : (1 : ℝ) < 2)).mp h1
      omega
  have h2 := zpow_le_zpow_right₀ (by norm_num : (1 : ℝ) ≤ 2) hle
  refine h2.trans ?_
  rw [zpow_neg, one_div]
  norm_cast

/-! ### Complex values -/

/-- The complex number a pair stands for. -/
noncomputable def toC (z : Cplx) : ℂ := ⟨val z.re, val z.im⟩

/-- Both parts finite, the modulus at most b. -/
def Bnd (b : ℝ) (z : Cplx) : Prop := z.re.isFinite = true ∧ z.im.isFinite = true ∧ ‖toC z‖ ≤ b

theorem Bnd.mono {a b : ℝ} {z : Cplx} (h : Bnd a z) (hab : a ≤ b) : Bnd b z := ⟨h.1, h.2.1, h.2.2.trans hab⟩

theorem Bnd.re {b : ℝ} {z : Cplx} (h : Bnd b z) : Within b z.re := ⟨h.1, (Complex.abs_re_le_norm (toC z)).trans h.2.2⟩

theorem Bnd.im {b : ℝ} {z : Cplx} (h : Bnd b z) : Within b z.im := ⟨h.2.1, (Complex.abs_im_le_norm (toC z)).trans h.2.2⟩

theorem Bnd.of_parts {a b : ℝ} {z : Cplx} (h1 : Within a z.re) (h2 : Within b z.im) : Bnd (a + b) z :=
  ⟨h1.1, h2.1, (Complex.norm_le_abs_re_add_abs_im (toC z)).trans (add_le_add h1.2 h2.2)⟩

theorem Bnd.nonneg {b : ℝ} {z : Cplx} (h : Bnd b z) : 0 ≤ b := (norm_nonneg _).trans h.2.2

theorem bnd_czero : Bnd 0 czero := by
  have h : Within 0 Config.zero := by
    refine ⟨by decide, ?_⟩
    rw [val, toRat_zero _ (by decide)]
    simp
  simpa using Bnd.of_parts (z := czero) h h

theorem bnd_cone : Bnd 1 cone := by
  have h : Within 0 Config.zero := bnd_czero.re
  have h1 : Within 1 Config.one := by
    refine ⟨by decide, ?_⟩
    rw [val, one_toRat]
    simp
  simpa using Bnd.of_parts (z := cone) h1 h

/-- The sum and the difference of a butterfly. -/
theorem Bnd.addSub {a b : ℝ} {x y : Cplx} (hx : Bnd a x) (hy : Bnd b y) (h0 : 1 ≤ a + b) (h1 : a + b ≤ 2 ^ 900) :
    Bnd (4 * (a + b)) (cadd x y) ∧ Bnd (4 * (a + b)) (csub x y) := by
  have h2 : 1 / 2 ^ 40 ≤ a + b := by norm_num; linarith
  constructor
  · refine (Bnd.of_parts (z := cadd x y) (hx.re.add hy.re h2 h1) (hx.im.add hy.im h2 h1)).mono ?_
    linarith
  · refine (Bnd.of_parts (z := csub x y) (hx.re.sub hy.re h2 h1) (hx.im.sub hy.im h2 h1)).mono ?_
    linarith

theorem Close.of_le {v b : ℝ} {z : F64} (h : Close v z) (hv : |v| ≤ b) (hb : 1 ≤ b) : |val z - v| ≤ b / 2 ^ 51 := by
  have h2 := h.2
  norm_num at h2 ⊢
  linarith

/-- The rounded product of two complex values is close to their product. -/
theorem cmul_close {a b p : ℝ} {x y : Cplx} (hx : Bnd a x) (hy : Bnd b y) (hp : a * b = p) (h0 : 1 ≤ p) (h1 : p ≤ 2 ^ 800) :
    (cmul x y).re.isFinite = true ∧ (cmul x y).im.isFinite = true ∧ ‖toC (cmul x y) - toC x * toC y‖ ≤ p / 2 ^ 46 := by
  have e9 : (2 : ℝ) ^ 900 = 2 ^ 800 * 2 ^ 100 := by rw [← pow_add]
  have h9 : 4 * p ≤ 2 ^ 900 := by
    rw [e9]
    clear e9
    generalize (2 : ℝ) ^ 800 = U at *
    norm_num
    linarith
  have key : ∀ {u v : F64}, Within a u → Within b v → |val u * val v| ≤ p ∧ (mul u v).isFinite = true ∧
      |val (mul u v) - val u * val v| ≤ p / 2 ^ 51 ∧ |val (mul u v)| ≤ 2 * p := by
    intro u v hu hv
    have hm := abs_mul_le hu.2 hv.2
    rw [hp] at hm
    have hc := mul_close u v hu.1 hv.1 (hm.trans ((by linarith : p ≤ 4 * p).trans h9))
    exact ⟨hm, hc.1, hc.of_le hm h0, (hc.within hm (by norm_num; linarith)).2⟩
  obtain ⟨m1, f1, d1, g1⟩ := key hx.re hy.re
  obtain ⟨m2, f2, d2, g2⟩ := key hx.im hy.im
  obtain ⟨m3, f3, d3, g3⟩ := key hx.re hy.im
  obtain ⟨m4, f4, d4, g4⟩ := key hx.im hy.re
  have s1 : |val (mul x.re y.re) - val (mul x.im y.im)| ≤ 4 * p := (abs_sub _ _).trans (by linarith)
  have s2 : |val (mul x.re y.im) + val (mul x.im y.re)| ≤ 4 * p := (abs_add_le _ _).trans (by linarith)
  have c1 := sub_close _ _ f1 f2 (s1.trans h9)
  have c2 := add_close _ _ f3 f4 (s2.trans h9)
  have t1 := c1.of_le s1 (by linarith)
  have t2 := c2.of_le s2 (by linarith)
  refine ⟨c1.1, c2.1, (Complex.norm_le_abs_re_add_abs_im _).trans ?_⟩
  have r1 : (toC (cmul x y) - toC x * toC y).re =
      val (sub (mul x.re y.re) (mul x.im y.im)) - (val x.re * val y.re - val x.im * val y.im) := by
    simp [toC, cmul]
  have r2 : (toC (cmul x y) - toC x * toC y).im =
      val (add (mul x.re y.im) (mul x.im y.re)) - (val x.re * val y.im + val x.im * val y.re) := by
    simp [toC, cmul]
  rw [r1, r2]
  rw [abs_le] at d1 d2 d3 d4 t1 t2
  have q1 : |val (sub (mul x.re y.re) (mul x.im y.im)) - (val x.re * val y.re - val x.im * val y.im)| ≤ p / 2 ^ 48 := by
    rw [abs_le]
    norm_num at d1 d2 t1 ⊢
    constructor <;> linarith
  have q2 : |val (add (mul x.re y.im) (mul x.im y.re)) - (val x.re * val y.im + val x.im * val y.re)| ≤ p / 2 ^ 48 := by
    rw [abs_le]
    norm_num at d3 d4 t2 ⊢
    constructor <;> linarith
  norm_num at q1 q2 ⊢
  linarith

/-- A bound of the rounded product. -/
theorem Bnd.mul {a b p : ℝ} {x y : Cplx} (hx : Bnd a x) (hy : Bnd b y) (hp : a * b = p) (h0 : 1 ≤ p) (h1 : p ≤ 2 ^ 800) :
    Bnd (2 * p) (cmul x y) := by
  obtain ⟨f1, f2, d⟩ := cmul_close hx hy hp h0 h1
  refine ⟨f1, f2, ?_⟩
  have e : toC (cmul x y) = (toC (cmul x y) - toC x * toC y) + toC x * toC y := by ring
  rw [e]
  refine (norm_add_le _ _).trans ?_
  rw [norm_mul]
  have hm := mul_le_mul hx.2.2 hy.2.2 (norm_nonneg _) hx.nonneg
  rw [hp] at hm
  have : p / 2 ^ 46 ≤ p := div_le_self (by linarith) (by norm_num)
  linarith

end Sys2Proof.Fp
end

