-- ==== Sys2Proof/Laws/Finite.lean ====
section
/-!
SUPPORT. Every value of TSPGEN's and DECONV's transforms is finite, so neither command ends with NONFINITE (41_tsp.md
R175, 42_deconv.md R207, 60_exceptions.md R305): the running twiddle stays near the unit circle, and a stage grows the
elements by a constant factor.
-/

namespace Sys2Proof.Machine

open Sys2Proof.Fp

theorem le_800 {b : ℝ} (h : b ≤ 2 ^ 250) : b ≤ 2 ^ 800 := h.trans (pow_le_pow_right₀ (by norm_num) (by norm_num))

theorem le_900 {b : ℝ} (h : b ≤ 2 ^ 250) : b ≤ 2 ^ 900 := h.trans (pow_le_pow_right₀ (by norm_num) (by norm_num))

/-- A property of the index and the value, kept by every iteration, holds after the loop. -/
theorem forUp_index {α : Type} (P : Nat → α → Prop) (n : Nat) (body : Nat → α → α) (a : α) (h0 : P 0 a)
    (hs : ∀ i b, i < n → P i b → P (i + 1) (body i b)) : P n (forUp n body a) := by
  induction n with
  | zero => exact h0
  | succ n ih => exact hs n _ (Nat.lt_succ_self n) (ih fun i b hi hb => hs i b (by omega) hb)

theorem getD_set (a : List Cplx) (i k : Nat) (z : Cplx) :
    (a.set i z).getD k czero = if k = i ∧ i < a.length then z else a.getD k czero := by
  simp only [List.getD_eq_getElem?_getD, List.getElem?_set]
  by_cases h : i = k
  · subst h
    by_cases hl : i < a.length
    · simp [hl]
    · simp [hl]
  · simp [h, Ne.symm h]

/-- Every element, and what is read past the end, is bounded. -/
def AllBnd (b : ℝ) (a : List Cplx) : Prop := ∀ k, Bnd b (a.getD k czero)

theorem AllBnd.mono {b c : ℝ} {a : List Cplx} (h : AllBnd b a) (hbc : b ≤ c) : AllBnd c a := fun k => (h k).mono hbc

theorem AllBnd.of_mem {b : ℝ} {a : List Cplx} (hb : 0 ≤ b) (h : ∀ z ∈ a, Bnd b z) : AllBnd b a := by
  intro k
  rw [List.getD_eq_getElem?_getD]
  rcases Nat.lt_or_ge k a.length with hk | hk
  · rw [List.getElem?_eq_getElem hk]
    exact h _ (List.getElem_mem hk)
  · rw [List.getElem?_eq_none hk]
    exact bnd_czero.mono hb

theorem AllBnd.mem {b : ℝ} {a : List Cplx} (h : AllBnd b a) (z : Cplx) (hz : z ∈ a) : Bnd b z := by
  obtain ⟨k, hk, rfl⟩ := List.getElem_of_mem hz
  have := h k
  rwa [List.getD_eq_getElem?_getD, List.getElem?_eq_getElem hk] at this

theorem AllBnd.set {b : ℝ} {a : List Cplx} {z : Cplx} (h : AllBnd b a) (hz : Bnd b z) (i : Nat) : AllBnd b (a.set i z) := by
  intro k
  rw [getD_set]
  split
  · exact hz
  · exact h k

theorem AllBnd.permute {b : ℝ} {a : List Cplx} (h : AllBnd b a) (m : Nat) : AllBnd b (permute m a) := by
  unfold Machine.permute
  apply forUp_induct (AllBnd b) _ _ _ h
  intro i c _ hc
  split
  · exact (hc.set (hc _) _).set (hc _) _
  · exact hc

/-! ### Twiddles -/

/-- A cosine and a sine of a finite angle are within 2^−51 of the unit circle. -/
theorem bnd_expi (x : F64) (h : x.isFinite = true) : Bnd (1 + 1 / 2 ^ 51) (expi x) := by
  refine ⟨(within_cos x h).1, (within_sin x h).1, ?_⟩
  have hc := WithinOneUlp_unit (cos_close x h) (Real.abs_cos_le_one _)
  have hs := WithinOneUlp_unit (sin_close x h) (Real.abs_sin_le_one _)
  generalize (x.toRat : ℝ) = t at *
  have e : toC (expi x) = Complex.exp (t * Complex.I) + (toC (expi x) - Complex.exp (t * Complex.I)) := by ring
  rw [e]
  refine (norm_add_le _ _).trans ?_
  rw [Complex.norm_exp_ofReal_mul_I]
  have hn := Complex.norm_le_abs_re_add_abs_im (toC (expi x) - Complex.exp (t * Complex.I))
  have r1 : (toC (expi x) - Complex.exp (t * Complex.I)).re = val (Config.cos x) - Real.cos t := by
    rw [Complex.sub_re, Complex.exp_ofReal_mul_I_re]
    rfl
  have r2 : (toC (expi x) - Complex.exp (t * Complex.I)).im = val (Config.sin x) - Real.sin t := by
    rw [Complex.sub_im, Complex.exp_ofReal_mul_I_im]
    rfl
  rw [r1, r2] at hn
  norm_num at hc hs ⊢
  linarith

theorem bnd_stageTwiddle (s : Int) (len : Nat) (hs : s.natAbs ≤ 1) (h1 : 1 ≤ len) (h2 : len ≤ 2 ^ 60) :
    Bnd (1 + 1 / 2 ^ 51) (stageTwiddle s len) := by
  have hs1 : |((s : ℤ) : ℝ)| ≤ 1 := by
    rw [← Int.cast_abs, ← Nat.cast_natAbs]
    exact_mod_cast hs
  have w1 : Within (2 * 1) (ofInt s) := (ofInt_close s (hs.trans (by norm_num))).within hs1 (by norm_num)
  have w2 := within_twoPi.mul w1 (by norm_num) (le_900 (by norm_num))
  obtain ⟨f, g⟩ := ofNat_ge len h1 h2
  exact bnd_expi _ (w2.div f g (by norm_num) (le_800 (by norm_num))).1

/-- The running twiddle drifts by at most 2^−43 a butterfly. -/
theorem running_bnd {wl w : Cplx} (hw : Bnd (1 + 1 / 2 ^ 51) wl) (x : ℝ) (hx : x ≤ 2 ^ 26)
    (h : Bnd (1 + x / 2 ^ 43) w) : Bnd (1 + (x + 1) / 2 ^ 43) (cmul w wl) ∧ Bnd 2 w := by
  have h2 : Bnd 2 w := h.mono (by norm_num at hx ⊢; linarith)
  obtain ⟨f1, f2, d⟩ := cmul_close h2 (hw.mono (by norm_num : (1 : ℝ) + 1 / 2 ^ 51 ≤ 2)) rfl (by norm_num)
    (le_800 (by norm_num))
  refine ⟨⟨f1, f2, ?_⟩, h2⟩
  have e : toC (cmul w wl) = (toC (cmul w wl) - toC w * toC wl) + toC w * toC wl := by ring
  rw [e]
  refine (norm_add_le _ _).trans ?_
  rw [norm_mul]
  have hm := mul_le_mul h.2.2 hw.2.2 (norm_nonneg _) h.nonneg
  generalize ‖toC (cmul w wl) - toC w * toC wl‖ = u at *
  generalize ‖toC w‖ * ‖toC wl‖ = v at *
  have e2 : (1 + x / 2 ^ 43) * (1 + 1 / 2 ^ 51) = 1 + x / 2 ^ 43 + 1 / 2 ^ 51 + x / 2 ^ 94 := by
    norm_num
    ring
  rw [e2] at hm
  norm_num at d hm hx ⊢
  linarith

/-! ### Stages -/

/-- A block bounds the elements it works on and leaves the others. -/
theorem block_bnd {wl : Cplx} {b : ℝ} (hw : Bnd (1 + 1 / 2 ^ 51) wl) (h i : Nat) (a : List Cplx) (hh : h ≤ 2 ^ 26) (h0 : 1 ≤ b)
    (h1 : b ≤ 2 ^ 700) (ha : ∀ k, i ≤ k → k < i + 2 * h → Bnd b (a.getD k czero)) (k : Nat) :
    (¬ (i ≤ k ∧ k < i + 2 * h) → (block wl h i a).getD k czero = a.getD k czero) ∧
    (i ≤ k ∧ k < i + 2 * h → Bnd (32 * b) ((block wl h i a).getD k czero)) := by
  have e9 : (2 : ℝ) ^ 800 = 2 ^ 700 * 2 ^ 100 := by rw [← pow_add]
  have e10 : (2 : ℝ) ^ 900 = 2 ^ 700 * 2 ^ 200 := by rw [← pow_add]
  have hb8 : 2 * b ≤ 2 ^ 800 := by
    rw [e9]
    clear e9 e10
    generalize (2 : ℝ) ^ 700 = U at *
    norm_num
    linarith
  have hb9 : 5 * b ≤ 2 ^ 900 := by
    rw [e10]
    clear e9 e10 hb8
    generalize (2 : ℝ) ^ 700 = U at *
    norm_num
    linarith
  clear e9 e10 h1
  have key := forUp_index
    (fun j (st : List Cplx × Cplx) => Bnd (1 + (j : ℝ) / 2 ^ 43) st.2 ∧ ∀ k,
      (¬ (i ≤ k ∧ k < i + j) ∧ ¬ (i + h ≤ k ∧ k < i + h + j) → st.1.getD k czero = a.getD k czero) ∧
      ((i ≤ k ∧ k < i + j) ∨ (i + h ≤ k ∧ k < i + h + j) → Bnd (32 * b) (st.1.getD k czero)))
    h (fun j st => butterfly wl h (i + j) st) (a, cone)
    ⟨by simpa using bnd_cone, fun k => ⟨fun _ => rfl, fun hk => by omega⟩⟩ (by
      rintro j ⟨c, w⟩ hj ⟨hw1, hc⟩
      have hjr : (j : ℝ) ≤ 2 ^ 26 := by exact_mod_cast (by omega : j ≤ 2 ^ 26)
      obtain ⟨hw3, hw2⟩ := running_bnd hw j hjr hw1
      refine ⟨by push_cast; exact hw3, ?_⟩
      dsimp only at hc
      have hu : Bnd b (c.getD (i + j) czero) := by
        rw [(hc (i + j)).1 (by omega)]
        exact ha _ (by omega) (by omega)
      have hv : Bnd b (c.getD (i + j + h) czero) := by
        rw [(hc (i + j + h)).1 (by omega)]
        exact ha _ (by omega) (by omega)
      have hp := hv.mul hw2 (mul_comm b 2) (by linarith) hb8
      obtain ⟨ha1, hs1⟩ := hu.addSub hp (by linarith) ((by linarith : _ ≤ 5 * b).trans hb9)
      have ha2 := ha1.mono (by linarith : _ ≤ 32 * b)
      have hs2 := hs1.mono (by linarith : _ ≤ 32 * b)
      intro k
      simp only [butterfly, getD_set, List.length_set]
      constructor
      · intro hk
        rw [if_neg (by omega), if_neg (by omega)]
        exact (hc k).1 (by omega)
      · intro hk
        split
        · exact hs2
        next hn1 =>
          split
          · exact ha2
          next hn2 =>
            by_cases hold : (i ≤ k ∧ k < i + j) ∨ (i + h ≤ k ∧ k < i + h + j)
            · exact (hc k).2 hold
            · have hkk : k = i + j ∨ k = i + j + h := by omega
              have hz : c.getD k czero = czero := by
                rw [List.getD_eq_getElem?_getD, List.getElem?_eq_none (by omega)]
                rfl
              rw [hz]
              exact bnd_czero.mono (by linarith))
  constructor
  · intro hk
    exact (key.2 k).1 (by omega)
  · intro hk
    exact (key.2 k).2 (by omega)

/-- A stage grows the elements by at most 32. -/
theorem stage_bnd {b : ℝ} (s : Int) (n t : Nat) (a : List Cplx) (hs : s.natAbs ≤ 1) (ht : t < 26) (h0 : 1 ≤ b)
    (h1 : b ≤ 2 ^ 700) (ha : AllBnd b a) : AllBnd (32 * b) (stage s n (2 ^ (t + 1)) a) := by
  have hlen : 2 ^ (t + 1) ≤ 2 ^ 26 := Nat.pow_le_pow_right (by norm_num) (by omega)
  have hhalf : 2 ^ (t + 1) / 2 = 2 ^ t := by rw [pow_succ, Nat.mul_div_cancel _ (by norm_num)]
  have hdbl : 2 * 2 ^ t = 2 ^ (t + 1) := by rw [pow_succ, mul_comm]
  have hw := bnd_stageTwiddle s (2 ^ (t + 1)) hs Nat.one_le_two_pow (hlen.trans (by norm_num))
  have ht2 : 2 ^ t ≤ 2 ^ 26 := by omega
  unfold stage
  rw [hhalf]
  generalize hL : 2 ^ (t + 1) = L at *
  generalize 2 ^ t = h at *
  have key := forUp_index
    (fun q (c : List Cplx) => ∀ k, (q * L ≤ k → c.getD k czero = a.getD k czero) ∧ (k < q * L → Bnd (32 * b) (c.getD k czero)))
    (n / L) (fun blk a => block (stageTwiddle s L) h (blk * L) a) a
    (fun k => ⟨fun _ => rfl, fun hk => by omega⟩) (by
      intro q c _ hc k
      have hstep : (q + 1) * L = q * L + L := by ring
      have hb := block_bnd hw h (q * L) c ht2 h0 h1 (fun k hk1 _ => by rw [(hc k).1 hk1]; exact ha k) k
      rw [hstep]
      generalize q * L = Q at *
      constructor
      · intro hk
        rw [hb.1 (by omega)]
        exact (hc k).1 (by omega)
      · intro hk
        by_cases hq : Q ≤ k
        · exact hb.2 (by omega)
        · rw [hb.1 (by omega)]
          exact (hc k).2 (by omega))
  intro k
  by_cases hk : n / L * L ≤ k
  · rw [(key k).1 hk]
    exact (ha k).mono (by linarith)
  · exact (key k).2 (by omega)

theorem twiddleSign_natAbs (f : FwdSign) (inverse : Bool) : (twiddleSign f inverse).natAbs ≤ 1 := by
  cases f <;> cases inverse <;> decide

/-- The stages of a transform of at most 2^26 elements grow them by at most 2^130, the division by N by at most 8. -/
theorem transform_bnd (f : FwdSign) (m : Nat) (inverse : Bool) (e : Nat) (a : List Cplx) (hm : m ≤ 26) (he : e ≤ 400)
    (ha : AllBnd (2 ^ e) a) : AllBnd (2 ^ (e + 133)) (transform f m inverse a) := by
  have hp : ∀ x y : Nat, x ≤ y → (2 : ℝ) ^ x ≤ 2 ^ y := fun x y h => pow_le_pow_right₀ (by norm_num) h
  have key := forUp_index (fun t (c : List Cplx) => AllBnd (2 ^ (e + 5 * t)) c) m
    (fun t a => stage (twiddleSign f inverse) (2 ^ m) (2 ^ (t + 1)) a) (permute m a) (by simpa using ha.permute m) (by
      intro t c ht hc
      have := stage_bnd (twiddleSign f inverse) (2 ^ m) t c (twiddleSign_natAbs f inverse) (by omega)
        (one_le_pow₀ (by norm_num)) (hp _ _ (by omega)) hc
      have e1 : (2 : ℝ) ^ (e + 5 * (t + 1)) = 32 * 2 ^ (e + 5 * t) := by
        rw [show e + 5 * (t + 1) = 5 + (e + 5 * t) by ring, pow_add]
        norm_num
      rw [e1]
      exact this)
  have hall : AllBnd (2 ^ (e + 130)) _ := key.mono (hp _ _ (by omega))
  have hb0 : (1 : ℝ) ≤ 2 ^ (e + 130) := one_le_pow₀ (by norm_num)
  have hb1 : (2 : ℝ) ^ (e + 130) ≤ 2 ^ 800 := hp _ _ (by omega)
  have hb3 : (2 : ℝ) ^ (e + 133) = 8 * 2 ^ (e + 130) := by
    rw [show e + 133 = 3 + (e + 130) by ring, pow_add]
    norm_num
  rw [hb3]
  unfold transform
  generalize (2 : ℝ) ^ (e + 130) = B at *
  dsimp only
  cases inverse
  · exact hall.mono (by linarith)
  · rw [if_pos rfl]
    refine AllBnd.of_mem (by linarith) fun z hz => ?_
    obtain ⟨y, hy, rfl⟩ := List.mem_map.mp hz
    have hby := hall.mem y hy
    obtain ⟨g1, g2⟩ := ofNat_ge (2 ^ m) Nat.one_le_two_pow (Nat.pow_le_pow_right (by norm_num) (by omega))
    refine (Bnd.of_parts (z := cscale y (ofNat (2 ^ m))) (hby.re.div g1 g2 hb0 hb1) (hby.im.div g1 g2 hb0 hb1)).mono ?_
    linarith

/-! ### Phases and spectra -/

theorem within_binSquare (n k : Nat) (h1 : 1 ≤ n) (h2 : n ≤ 2 ^ 60) (hk : k ≤ 2 ^ 60) :
    Within (2 ^ 140) (binSquare n k) := by
  obtain ⟨g1, g2⟩ := ofNat_ge n h1 h2
  have wk := Within.ofNat k (2 ^ 60) (by exact_mod_cast hk) (by norm_num) le_rfl
  have wd := wk.div g1 g2 (by norm_num) (le_800 (by norm_num))
  exact (wd.mul wd (by norm_num) (le_900 (by norm_num))).mono (by norm_num)

theorem thetaUp_finite (n k : Nat) (h1 : 1 ≤ n) (h2 : n ≤ 2 ^ 60) (hk : k ≤ 2 ^ 60) : (thetaUp n k).isFinite = true := by
  obtain ⟨g1, g2⟩ := ofNat_ge n h1 h2
  have wb := within_binSquare n k h1 h2 hk
  have hn2 : ((n / 2 : Nat) : ℝ) ≤ 2 ^ 60 := by exact_mod_cast (Nat.div_le_self n 2).trans h2
  have hn4 : ((n / 4 : Nat) : ℝ) ≤ 2 ^ 60 := by exact_mod_cast (Nat.div_le_self n 4).trans h2
  have w2 := Within.ofNat (n / 2) (2 ^ 60) hn2 (by norm_num) le_rfl
  have w4 := Within.ofNat (n / 4) (2 ^ 60) hn4 (by norm_num) le_rfl
  have wk := Within.ofNat k (2 ^ 60) (by exact_mod_cast hk) (by norm_num) le_rfl
  have l := (within_negTwoPi.mul w2 (by norm_num) (le_900 (by norm_num))).mul wb (by norm_num) (le_900 (by norm_num))
  have r := ((within_twoPi.mul wk (by norm_num) (le_900 (by norm_num))).mul w4 (by norm_num)
    (le_900 (by norm_num))).div g1 g2 (by norm_num) (le_800 (by norm_num))
  exact (l.sub r (by norm_num) (le_900 (by norm_num))).1

theorem phiDown_finite (n j k : Nat) (h1 : 1 ≤ n) (h2 : n ≤ 2 ^ 60) (hj : j ≤ 2 ^ 60) (hk : k ≤ 2 ^ 60) :
    (phiDown n j k).isFinite = true := by
  have wb := within_binSquare n k h1 h2 hk
  have wj := Within.ofNat j (2 ^ 60) (by exact_mod_cast hj) (by norm_num) le_rfl
  exact ((within_twoPi.mul wj (by norm_num) (le_900 (by norm_num))).mul wb (by norm_num)
    (le_900 (by norm_num))).1

/-- A spectrum of finite phases has bins of modulus at most 2. -/
theorem spectrum_bnd (n : Nat) (phase : Nat → F64) (h : ∀ k, k < n → (phase k).isFinite = true) :
    AllBnd (2 ^ 1) (spectrum n phase) := by
  refine AllBnd.of_mem (by norm_num) fun z hz => ?_
  obtain ⟨k, hk, rfl⟩ := List.mem_map.mp hz
  rw [List.mem_range] at hk
  have hle : (1 : ℝ) + 1 / 2 ^ 51 ≤ 2 ^ 1 := by norm_num
  unfold spectrumBin
  split
  · exact (bnd_expi _ (h k hk)).mono hle
  next h1 =>
    split
    next h2 =>
      exact (Bnd.of_parts (z := ⟨(expi (phase k)).re, Config.zero⟩) (within_cos _ (h k hk)) bnd_czero.im).mono (by norm_num)
    next h2 =>
      have hf := h (n - k) (by omega)
      exact (Bnd.of_parts (z := conj (expi (phase (n - k)))) (within_cos _ hf) (within_sin _ hf).neg).mono (by norm_num)

/-! ### TSPGEN -/

theorem log2n_le (s : State) (hc : s.config.legal = true) (h : s.log2n ≤ s.config.log2nMax) : s.log2n ≤ 26 := by
  simp only [Config.legal, Bool.and_eq_true, decide_eq_true_eq] at hc
  omega

theorem two_pow_le (m : Nat) (h : m ≤ 26) : 2 ^ m ≤ 2 ^ 60 := Nat.pow_le_pow_right (by norm_num) (by omega)

/-- The excitation is finite. -/
theorem tspgenSignal_finite (s : State) (h : s.log2n ≤ 26) : ∀ z ∈ tspgenSignal s, z.re.isFinite = true := by
  intro z hz
  have hn := two_pow_le _ h
  have hs := spectrum_bnd s.points (thetaUp s.points) fun k hk => thetaUp_finite _ k Nat.one_le_two_pow hn
    (by unfold State.points at hk; omega)
  exact ((transform_bnd s.config.fwdSign s.log2n true 1 _ h (by norm_num) hs).mem z hz).1

/-! ### DECONV -/

theorem pcmInScale_of_doc (c : Config) (h : c.docLiterals = true) : c.pcmInScale = Config.thisHardware.pcmInScale := by
  simp only [Config.docLiterals, Bool.and_eq_true, decide_eq_true_eq] at h
  exact h.1.1.2

/-- A sample read as a real is finite and small. -/
theorem within_pcm (c : Config) (hc : c.docLiterals = true) (m : Memory) (b i : Nat) :
    Within (2 ^ 20) (readReal c .pcm16 m b i) := by
  have h0 := BitVec.toInt_lt (x := BitVec.ofNat 16 (Memory.memRead m (b + 2 * i) 2))
  have h1 := BitVec.le_toInt (x := BitVec.ofNat 16 (Memory.memRead m (b + 2 * i) 2))
  have hv : (readPcm m (b + 2 * i)).natAbs ≤ 2 ^ 15 := by
    unfold readPcm
    norm_num at h0 h1
    omega
  have hr : |((readPcm m (b + 2 * i) : ℤ) : ℝ)| ≤ 2 ^ 15 := by
    rw [← Int.cast_abs, ← Nat.cast_natAbs]
    exact_mod_cast hv
  have hw := (ofInt_close _ (hv.trans (by norm_num))).within hr (by norm_num)
  have hd := hw.div (y := Config.thisHardware.pcmInScale) (by decide) pcmInScale_ge (by norm_num) (le_800 (by norm_num))
  simp only [readReal, pcmInScale_of_doc c hc]
  exact hd.mono (by norm_num)

theorem loaded_bnd (c : Config) (hc : c.docLiterals = true) (m : Memory) (n src cnt : Nat) :
    AllBnd (2 ^ 20) ((List.range n).map (loadedElem c m src cnt)) := by
  refine AllBnd.of_mem (by norm_num) fun z hz => ?_
  obtain ⟨i, -, rfl⟩ := List.mem_map.mp hz
  have hz0 : Within 0 Config.zero := bnd_czero.im
  unfold loadedElem
  by_cases hi : i < cnt
  · rw [if_pos hi]
    exact (Bnd.of_parts (z := ⟨readReal c .pcm16 m src i, Config.zero⟩) (within_pcm c hc m src i) hz0).mono (by norm_num)
  · rw [if_neg hi]
    exact (Bnd.of_parts (z := ⟨Config.zero, Config.zero⟩) hz0 hz0).mono (by norm_num)

theorem deconvLog_le (s : State) (hc : s.config.legal = true) (h : s.deconvLog ≤ s.config.log2nMax) : s.deconvLog ≤ 26 := by
  simp only [Config.legal, Bool.and_eq_true, decide_eq_true_eq] at hc
  omega

/-- The impulse response is finite, with the DOC's literals. -/
theorem deconvResponse_finite (s : State) (hc : s.config.docLiterals = true) (h : s.deconvLog ≤ 26) (he : s.excCount < 2 ^ 32) :
    ∀ z ∈ deconvResponse s, z.re.isFinite = true := by
  intro z hz
  have hn : s.deconvSize ≤ 2 ^ 60 := two_pow_le _ h
  have hx := transform_bnd s.config.fwdSign s.deconvLog false 20 _ h (by norm_num)
    (loaded_bnd s.config hc s.dmem s.deconvSize (deconvRespStart s) (deconvRespUsed s))
  have hg : AllBnd (2 ^ 1) (deconvG s) := spectrum_bnd _ _ fun k hk =>
    phiDown_finite _ _ k Nat.one_le_two_pow hn (by omega) (by omega)
  have hprod : AllBnd (2 ^ 160) ((List.range s.deconvSize).map fun k =>
      guardedBin s.config ((deconvX s).getD k czero) ((deconvY s).getD k czero) ((deconvG s).getD k czero)) := by
    refine AllBnd.of_mem (by positivity) fun z hz => ?_
    obtain ⟨k, -, rfl⟩ := List.mem_map.mp hz
    unfold guardedBin
    split
    · exact bnd_czero.mono (by positivity)
    · have e : (2 : ℝ) ^ (20 + 133) * 2 ^ 1 = 2 ^ 154 := by rw [← pow_add]
      refine ((hx k).mul (hg k) e (by norm_num) (pow_le_pow_right₀ (by norm_num) (by norm_num))).mono ?_
      rw [← pow_succ']
      exact pow_le_pow_right₀ (by norm_num) (by norm_num)
  exact ((transform_bnd s.config.fwdSign s.deconvLog true 160 _ h (by norm_num) hprod).mem z hz).1

end Sys2Proof.Machine
end

