-- ==== Sys2Proof/Laws/State.lean ====
section
/-!
SUPPORT. One lemma per field for each update of State, true by rfl: completion, START acceptance, reset, a word answered to the host, CHECK.
-/

namespace Sys2Proof.Machine

@[simp] theorem State.complete_config (s : State) (f : Finish) : (s.complete f).config = s.config := rfl
@[simp] theorem State.complete_ie (s : State) (f : Finish) : (s.complete f).ie = s.ie := rfl
@[simp] theorem State.complete_phase (s : State) (f : Finish) : (s.complete f).phase = .idle := rfl
@[simp] theorem State.complete_done (s : State) (f : Finish) : (s.complete f).done = true := rfl
@[simp] theorem State.complete_err (s : State) (f : Finish) : (s.complete f).err = decide (f.code ≠ .ok) := rfl
@[simp] theorem State.complete_errCode (s : State) (f : Finish) : (s.complete f).errCode = f.code := rfl
@[simp] theorem State.complete_lastOp (s : State) (f : Finish) : (s.complete f).lastOp = s.lastOp := rfl
@[simp] theorem State.complete_cmd (s : State) (f : Finish) : (s.complete f).cmd = s.cmd := rfl
@[simp] theorem State.complete_args (s : State) (f : Finish) : (s.complete f).args = s.args := rfl
@[simp] theorem State.complete_res (s : State) (f : Finish) : (s.complete f).res = f.res := rfl
@[simp] theorem State.complete_dmem (s : State) (f : Finish) : (s.complete f).dmem = f.dmem := rfl
@[simp] theorem State.complete_readData (s : State) (f : Finish) : (s.complete f).readData = s.readData := rfl
@[simp] theorem State.complete_host (s : State) (f : Finish) : (s.complete f).host = s.host := rfl
@[simp] theorem State.complete_delay (s : State) (f : Finish) : (s.complete f).delay = s.delay := rfl
@[simp] theorem State.complete_delays (s : State) (f : Finish) : (s.complete f).delays = s.delays := rfl
@[simp] theorem State.complete_draws (s : State) (f : Finish) : (s.complete f).draws = s.draws := rfl
@[simp] theorem State.complete_unread (s : State) (f : Finish) : (s.complete f).unread = s.unread := rfl
@[simp] theorem State.complete_checkFailed (s : State) (f : Finish) : (s.complete f).checkFailed = s.checkFailed := rfl

@[simp] theorem State.acceptStart_config (s : State) : (s.acceptStart).config = s.config := rfl
@[simp] theorem State.acceptStart_ie (s : State) : (s.acceptStart).ie = s.ie := rfl
@[simp] theorem State.acceptStart_phase (s : State) : (s.acceptStart).phase = .busy := rfl
@[simp] theorem State.acceptStart_done (s : State) : (s.acceptStart).done = false := rfl
@[simp] theorem State.acceptStart_err (s : State) : (s.acceptStart).err = false := rfl
@[simp] theorem State.acceptStart_errCode (s : State) : (s.acceptStart).errCode = .ok := rfl
@[simp] theorem State.acceptStart_lastOp (s : State) : (s.acceptStart).lastOp = s.cmd.extractLsb' 0 8 := rfl
@[simp] theorem State.acceptStart_cmd (s : State) : (s.acceptStart).cmd = s.cmd := rfl
@[simp] theorem State.acceptStart_args (s : State) : (s.acceptStart).args = s.args := rfl
@[simp] theorem State.acceptStart_res (s : State) : (s.acceptStart).res = Results.zero := rfl
@[simp] theorem State.acceptStart_dmem (s : State) : (s.acceptStart).dmem = s.dmem := rfl
@[simp] theorem State.acceptStart_readData (s : State) : (s.acceptStart).readData = s.readData := rfl
@[simp] theorem State.acceptStart_host (s : State) : (s.acceptStart).host = s.host := rfl
@[simp] theorem State.acceptStart_delay (s : State) : (s.acceptStart).delay = s.delays.headD 0 := rfl
@[simp] theorem State.acceptStart_delays (s : State) : (s.acceptStart).delays = s.delays.tail := rfl
@[simp] theorem State.acceptStart_draws (s : State) : (s.acceptStart).draws = s.draws := rfl
@[simp] theorem State.acceptStart_unread (s : State) : (s.acceptStart).unread = ⟨s.cmd, s.args, true, []⟩ :: s.unread := rfl
@[simp] theorem State.acceptStart_checkFailed (s : State) : (s.acceptStart).checkFailed = s.checkFailed := rfl

@[simp] theorem State.resetHeld_config (s : State) : (s.resetHeld).config = s.config := rfl
@[simp] theorem State.resetHeld_ie (s : State) : (s.resetHeld).ie = false := rfl
@[simp] theorem State.resetHeld_phase (s : State) : (s.resetHeld).phase = .idle := rfl
@[simp] theorem State.resetHeld_done (s : State) : (s.resetHeld).done = false := rfl
@[simp] theorem State.resetHeld_err (s : State) : (s.resetHeld).err = false := rfl
@[simp] theorem State.resetHeld_errCode (s : State) : (s.resetHeld).errCode = .ok := rfl
@[simp] theorem State.resetHeld_lastOp (s : State) : (s.resetHeld).lastOp = 0#8 := rfl
@[simp] theorem State.resetHeld_cmd (s : State) : (s.resetHeld).cmd = 0#32 := rfl
@[simp] theorem State.resetHeld_args (s : State) : (s.resetHeld).args = Args.zero := rfl
@[simp] theorem State.resetHeld_res (s : State) : (s.resetHeld).res = Results.zero := rfl
@[simp] theorem State.resetHeld_dmem (s : State) : (s.resetHeld).dmem = scramble s.draws (abandonedBuffers (decode s.config s.cmd) s) s.dmem := rfl
@[simp] theorem State.resetHeld_readData (s : State) : (s.resetHeld).readData = s.readData := rfl
@[simp] theorem State.resetHeld_host (s : State) : (s.resetHeld).host = s.host := rfl
@[simp] theorem State.resetHeld_delay (s : State) : (s.resetHeld).delay = 0 := rfl
@[simp] theorem State.resetHeld_delays (s : State) : (s.resetHeld).delays = s.delays := rfl
@[simp] theorem State.resetHeld_draws (s : State) : (s.resetHeld).draws = s.draws + 1 := rfl
@[simp] theorem State.resetHeld_unread (s : State) : (s.resetHeld).unread = s.unreadAfterReset := rfl
@[simp] theorem State.resetHeld_checkFailed (s : State) : (s.resetHeld).checkFailed = s.checkFailed := rfl

@[simp] theorem State.answer_config (s : State) (w : Word) : (s.answer w).config = s.config := rfl
@[simp] theorem State.answer_ie (s : State) (w : Word) : (s.answer w).ie = s.ie := rfl
@[simp] theorem State.answer_phase (s : State) (w : Word) : (s.answer w).phase = s.phase := rfl
@[simp] theorem State.answer_done (s : State) (w : Word) : (s.answer w).done = s.done := rfl
@[simp] theorem State.answer_err (s : State) (w : Word) : (s.answer w).err = s.err := rfl
@[simp] theorem State.answer_errCode (s : State) (w : Word) : (s.answer w).errCode = s.errCode := rfl
@[simp] theorem State.answer_lastOp (s : State) (w : Word) : (s.answer w).lastOp = s.lastOp := rfl
@[simp] theorem State.answer_cmd (s : State) (w : Word) : (s.answer w).cmd = s.cmd := rfl
@[simp] theorem State.answer_args (s : State) (w : Word) : (s.answer w).args = s.args := rfl
@[simp] theorem State.answer_res (s : State) (w : Word) : (s.answer w).res = s.res := rfl
@[simp] theorem State.answer_dmem (s : State) (w : Word) : (s.answer w).dmem = s.dmem := rfl
@[simp] theorem State.answer_readData (s : State) (w : Word) : (s.answer w).readData = w := rfl
@[simp] theorem State.answer_host (s : State) (w : Word) : (s.answer w).host = s.host := rfl
@[simp] theorem State.answer_delay (s : State) (w : Word) : (s.answer w).delay = s.delay := rfl
@[simp] theorem State.answer_delays (s : State) (w : Word) : (s.answer w).delays = s.delays := rfl
@[simp] theorem State.answer_draws (s : State) (w : Word) : (s.answer w).draws = s.draws := rfl
@[simp] theorem State.answer_unread (s : State) (w : Word) : (s.answer w).unread = s.unread := rfl
@[simp] theorem State.answer_checkFailed (s : State) (w : Word) : (s.answer w).checkFailed = s.checkFailed := rfl

@[simp] theorem State.answerStatus_config (s : State) : (s.answerStatus).config = s.config := rfl
@[simp] theorem State.answerStatus_ie (s : State) : (s.answerStatus).ie = s.ie := rfl
@[simp] theorem State.answerStatus_phase (s : State) : (s.answerStatus).phase = s.phase := rfl
@[simp] theorem State.answerStatus_done (s : State) : (s.answerStatus).done = s.done := rfl
@[simp] theorem State.answerStatus_err (s : State) : (s.answerStatus).err = s.err := rfl
@[simp] theorem State.answerStatus_errCode (s : State) : (s.answerStatus).errCode = s.errCode := rfl
@[simp] theorem State.answerStatus_lastOp (s : State) : (s.answerStatus).lastOp = s.lastOp := rfl
@[simp] theorem State.answerStatus_cmd (s : State) : (s.answerStatus).cmd = s.cmd := rfl
@[simp] theorem State.answerStatus_args (s : State) : (s.answerStatus).args = s.args := rfl
@[simp] theorem State.answerStatus_res (s : State) : (s.answerStatus).res = s.res := rfl
@[simp] theorem State.answerStatus_dmem (s : State) : (s.answerStatus).dmem = s.dmem := rfl
@[simp] theorem State.answerStatus_readData (s : State) : (s.answerStatus).readData = s.statusWord := rfl
@[simp] theorem State.answerStatus_host (s : State) : (s.answerStatus).host = s.host := rfl
@[simp] theorem State.answerStatus_delay (s : State) : (s.answerStatus).delay = s.delay := rfl
@[simp] theorem State.answerStatus_delays (s : State) : (s.answerStatus).delays = s.delays := rfl
@[simp] theorem State.answerStatus_draws (s : State) : (s.answerStatus).draws = s.draws := rfl
@[simp] theorem State.answerStatus_unread (s : State) : (s.answerStatus).unread = (if s.done then [] else s.unread) := rfl
@[simp] theorem State.answerStatus_checkFailed (s : State) : (s.answerStatus).checkFailed = s.checkFailed := rfl

@[simp] theorem State.succeed_code (s : State) (m : Memory) : (s.succeed m).code = .ok := rfl
@[simp] theorem State.succeed_res (s : State) (m : Memory) : (s.succeed m).res = s.res := rfl
@[simp] theorem State.succeed_dmem (s : State) (m : Memory) : (s.succeed m).dmem = m := rfl
@[simp] theorem State.raise_code (s : State) (c : ErrCode) : (s.raise c).code = c := rfl
@[simp] theorem State.raise_res (s : State) (c : ErrCode) : (s.raise c).res = s.res := rfl
@[simp] theorem State.raise_dmem (s : State) (c : ErrCode) : (s.raise c).dmem = s.dmem := rfl
@[simp] theorem State.decayFail_code (s : State) (a b : Option Nat) : (s.decayFail a b).code = .decayNotDetected := rfl
@[simp] theorem State.decayFail_dmem (s : State) (a b : Option Nat) : (s.decayFail a b).dmem = s.dmem := rfl

/-! CHECK is a read of STATUS that also records a failure. -/

@[simp] theorem State.hostCheck_config (s : State) : (s.hostCheck).config = s.config := rfl
@[simp] theorem State.hostCheck_ie (s : State) : (s.hostCheck).ie = s.ie := rfl
@[simp] theorem State.hostCheck_phase (s : State) : (s.hostCheck).phase = s.phase := rfl
@[simp] theorem State.hostCheck_done (s : State) : (s.hostCheck).done = s.done := rfl
@[simp] theorem State.hostCheck_err (s : State) : (s.hostCheck).err = s.err := rfl
@[simp] theorem State.hostCheck_errCode (s : State) : (s.hostCheck).errCode = s.errCode := rfl
@[simp] theorem State.hostCheck_lastOp (s : State) : (s.hostCheck).lastOp = s.lastOp := rfl
@[simp] theorem State.hostCheck_cmd (s : State) : (s.hostCheck).cmd = s.cmd := rfl
@[simp] theorem State.hostCheck_args (s : State) : (s.hostCheck).args = s.args := rfl
@[simp] theorem State.hostCheck_res (s : State) : (s.hostCheck).res = s.res := rfl
@[simp] theorem State.hostCheck_dmem (s : State) : (s.hostCheck).dmem = s.dmem := rfl
@[simp] theorem State.hostCheck_readData (s : State) : (s.hostCheck).readData = s.statusWord := rfl
@[simp] theorem State.hostCheck_host (s : State) : (s.hostCheck).host = s.host := rfl
@[simp] theorem State.hostCheck_delay (s : State) : (s.hostCheck).delay = s.delay := rfl
@[simp] theorem State.hostCheck_delays (s : State) : (s.hostCheck).delays = s.delays := rfl
@[simp] theorem State.hostCheck_draws (s : State) : (s.hostCheck).draws = s.draws := rfl
@[simp] theorem State.hostCheck_unread (s : State) : (s.hostCheck).unread = (if s.done then [] else s.unread) := rfl
@[simp] theorem State.hostCheck_checkFailed (s : State) : (s.hostCheck).checkFailed = (s.checkFailed || s.err) := rfl

end Sys2Proof.Machine
end

