-- ==== Sys2Proof/Laws/Ops.lean ====
section
/-!
SUPPORT. What the shared operations can do, said once: the frame every command runs in, the buffer checks, `exec` as one
equation over all commands, where duty H6 applies, and when the host's program fails.
-/

namespace Sys2Proof.Machine

/-- A command answers exactly one of: the completion with its first failing check's code and nothing written, or the
completion of its body. It never faults and is never refused. -/
theorem State.runCommand_eq (s : State) (check : Option ErrCode) (body : State → Finish) :
    s.runCommand check body =
      .next (s.complete (match check with | some c => s.raise c | none => body s)) := by
  cases check <;> rfl

/-- Every command is its checks and its body in that frame. -/
theorem exec_eq (i : Instr) (s : State) : exec i s = s.runCommand (commandCheck i s) (commandFinish i) := by
  cases i <;> rfl

/-- The state a command answers. -/
theorem exec_next (i : Instr) (s : State) :
    exec i s = .next (s.complete (match commandCheck i s with | some c => s.raise c | none => commandFinish i s)) := by
  rw [exec_eq, State.runCommand_eq]

theorem exec_of_check (i : Instr) (s : State) (c : ErrCode) (h : commandCheck i s = some c) :
    exec i s = .next (s.complete (s.raise c)) := by rw [exec_next, h]

theorem exec_of_passed (i : Instr) (s : State) (h : commandCheck i s = none) :
    exec i s = .next (s.complete (commandFinish i s)) := by rw [exec_next, h]

/-- An illegal word's completion. -/
theorem execIllegal_eq (s : State) : execIllegal s = .next (s.complete (s.raise .illegalCmd)) := rfl

/-- The code a command ends with: its first failing check's, or its body's. -/
theorem exec_errCode (i : Instr) (s t : State) (h : exec i s = .next t) :
    t.errCode = match commandCheck i s with | some c => c | none => (commandFinish i s).code := by
  rw [exec_next] at h
  cases h
  cases commandCheck i s <;> rfl

/-- A command's checks depend on the configuration and the arguments alone. -/
theorem commandCheck_congr (i : Instr) (s t : State) (hc : t.config = s.config) (ha : t.args = s.args) :
    commandCheck i t = commandCheck i s := by
  cases s
  cases t
  dsimp only at hc ha
  subst hc ha
  cases i <;> rfl

/-- So do the buffers it writes. -/
theorem writtenBuffers_congr (i : Instr) (s t : State) (hc : t.config = s.config) (ha : t.args = s.args) :
    writtenBuffers i t = writtenBuffers i s := by
  cases s
  cases t
  dsimp only at hc ha
  subst hc ha
  cases i <;> rfl

/-- 20_memory.md R85: the overlap test in terms of the four ends. -/
theorem Buffer.overlaps_iff (b c : Buffer) :
    b.overlaps c = true ↔ 0 < b.bytes ∧ 0 < c.bytes ∧ b.base < c.base + c.bytes ∧ c.base < b.base + b.bytes := by
  simp [Buffer.overlaps, and_assoc]

/-- Overlap with identity permitted, for two buffers of the same length. -/
theorem Buffer.overlapsUnlessSame_iff (b c : Buffer) (h : b.bytes = c.bytes) :
    b.overlapsUnlessSame c = true ↔ b.overlaps c = true ∧ b.base ≠ c.base := by
  simp [Buffer.overlapsUnlessSame, h]

theorem Buffer.aligned_iff (b : Buffer) : b.aligned = true ↔ b.base % elemAlign b.fmt = 0 := by simp [Buffer.aligned]

theorem Buffer.inRange_iff (b : Buffer) (size : Nat) : b.inRange size = true ↔ b.count = 0 ∨ b.base + b.bytes ≤ size := by
  simp [Buffer.inRange]

/-- The buffer checks pass exactly when every base is aligned, every buffer is in range and none clash. -/
theorem bufferErrors_eq_none (size : Nat) (bufs : List Buffer) (clash : Bool) :
    bufferErrors size bufs clash = none ↔
      (∀ b ∈ bufs, b.aligned = true) ∧ (∀ b ∈ bufs, b.inRange size = true) ∧ clash = false := by
  unfold bufferErrors
  by_cases h1 : bufs.all Buffer.aligned = true
  · by_cases h2 : bufs.all (Buffer.inRange size) = true
    · simp only [h1, h2]
      rw [List.all_eq_true] at h1 h2
      cases clash <;> simp_all
    · rw [List.all_eq_true] at h1 h2
      simp only [List.all_eq_true, Bool.not_eq_true', ← Bool.not_eq_true]
      simp_all
  · rw [List.all_eq_true] at h1
    simp only [List.all_eq_true, Bool.not_eq_true', ← Bool.not_eq_true]
    simp_all

/-- The checks of a command that writes one CPLX128 ×N buffer at ARG0 and reads nothing else. -/
theorem transformChecks_eq_none (s : State) :
    (if s.log2nBad then some ErrCode.badArg else bufferErrors s.config.dmemSize [s.fftBuf] false) = none ↔
      s.log2n ≤ s.config.log2nMax ∧ s.fftBuf.aligned = true ∧ s.fftBuf.inRange s.config.dmemSize = true := by
  by_cases h : s.config.log2nMax < s.log2n
  · simp [State.log2nBad, h]
  · simp [State.log2nBad, h, bufferErrors_eq_none, show s.log2n ≤ s.config.log2nMax by omega]

/-- The addresses a buffer holds. -/
theorem Buffer.holds_iff (b : Buffer) (a : Nat) : b.holds a = true ↔ b.base ≤ a ∧ a < b.base + b.bytes := by
  simp [Buffer.holds]

/-- The bytes duty H6 speaks of: one of them lies in a buffer that an unread command writes, its checks passing, and the host
has not written it since (70_reset_and_hazards.md R345). -/
theorem State.unreadBytes_iff (s : State) (a n : Nat) :
    s.unreadBytes a n = true ↔
      ∃ j, j < n ∧ ∃ p ∈ s.unread, p.overwritten (a + j) = false ∧ ∃ i, decode s.config p.cmd = some i ∧
        commandCheck i (s.startedAs p) = none ∧ writes i (s.startedAs p) (a + j) = true := by
  simp only [State.unreadBytes, State.unreadByte, List.any_eq_true, List.mem_range, Bool.and_eq_true, Bool.not_eq_true']
  refine exists_congr fun j => and_congr_right fun _ => exists_congr fun p => and_congr_right fun _ =>
    and_congr_right fun _ => ?_
  cases decode s.config p.cmd with
  | none => simp [outputBuffers]
  | some i =>
    by_cases h : commandCheck i (s.startedAs p) = none
    · simp [outputBuffers, writes, h]
    · simp [outputBuffers, h]

/-- A byte the host has written over is in none of the results. -/
theorem Unread.overwritten_overwrite (p : Unread) (a n b : Nat) :
    (p.overwrite a n).overwritten b = (decide (a ≤ b ∧ b < a + n) || p.overwritten b) := by
  simp [Unread.overwritten, Unread.overwrite]

/-- The host may read back what it has written. -/
theorem State.unreadBytes_overwrite (s : State) (a n : Nat) : ({ s with unread := s.unread.map (Unread.overwrite a n) } : State).unreadBytes a n = false := by
  rw [Bool.eq_false_iff]
  intro h
  rw [State.unreadBytes_iff] at h
  obtain ⟨j, hj, p, hp, ho, -⟩ := h
  simp only [List.mem_map] at hp
  obtain ⟨q, -, rfl⟩ := hp
  rw [Unread.overwritten_overwrite] at ho
  simp at ho
  omega

/-- No register write touches the record of a failed CHECK. -/
@[simp] theorem State.writeRegister_checkFailed (s : State) (r : Reg) (v : Word) :
    (s.writeRegister r v).checkFailed = s.checkFailed := by
  cases r <;> simp only [State.writeRegister, State.writeCtrl, State.writeStatus] <;> first | rfl | (split <;> rfl)

/-- The host's program fails in one case: CHECK finds STATUS.ERR = 1 (30_encoding.md R119). -/
theorem State.perform_checkFailed (s t : State) (a : HostAction) (h : s.perform a = .next t) :
    t.checkFailed = (s.checkFailed || (decide (a = .check) && s.err)) := by
  cases a with
  | readReg off width =>
    simp only [State.perform, State.hostReadReg] at h
    split at h
    · cases h
    · split at h
      · cases h
      · cases h; unfold State.answerRegister; split <;> simp
  | writeReg off width v =>
    simp only [State.perform, State.hostWriteReg] at h
    split at h <;> cases h
    simp
  | readMem addr width =>
    simp only [State.perform, State.hostReadMem] at h
    split at h
    · cases h
    · by_cases hu : s.unreadBytes addr width = true
      · rw [if_pos hu] at h; cases h
      · rw [if_neg hu] at h; cases h; simp
  | writeMem addr width v =>
    simp only [State.perform, State.hostWriteMem] at h
    split at h <;> cases h
    simp
  | waitDone => cases h; simp
  | check => cases h; simp
  | reset => cases h; simp

end Sys2Proof.Machine
end

