-- ==== Sys2Proof/Laws/PerInstr.lean ====
section
/-!
SUPPORT. Per-command laws of the encoding: the word of a command has its opcode in bits 7:0, its format in bits 9:8 and
zeros above (30_encoding.md R110, R117), one lemma per constructor.
-/

namespace Sys2Proof.Laws.EncodedFields

open Sys2Proof

/-- The fields of the command's word. -/
def Statement (i : Instr) : Prop :=
  ((encode i).extractLsb' 0 8).toNat = i.opcode ∧ ((encode i).extractLsb' 8 2).toNat = i.fmtField ∧
    ((encode i).extractLsb' 10 22).toNat = 0

theorem nop : Statement .nop := by unfold Statement; decide
theorem fft : Statement .fft := by unfold Statement; decide
theorem ifft : Statement .ifft := by unfold Statement; decide
theorem tspUp : Statement .tspUp := by unfold Statement; decide
theorem tspDown : Statement .tspDown := by unfold Statement; decide
theorem tspgen : Statement .tspgen := by unfold Statement; decide
theorem load16 : Statement .load16 := by unfold Statement; decide
theorem deconvMul : Statement .deconvMul := by unfold Statement; decide
theorem normq (fmt : Fmt) : Statement (.normq fmt) := by unfold Statement; cases fmt <;> decide
theorem deconv : Statement .deconv := by unfold Statement; decide
theorem nlms (fmt : Fmt) : Statement (.nlms fmt) := by unfold Statement; cases fmt <;> decide
theorem schroeder (fmt : Fmt) : Statement (.schroeder fmt) := by unfold Statement; cases fmt <;> decide
theorem decayFit : Statement .decayFit := by unfold Statement; decide

end Sys2Proof.Laws.EncodedFields
end

