-- ==== Sys2Proof/Tests/Slice0.lean ====
section
/-!
SUPPORT. Small tests. Every expected value is from the spec: the vectors of 95_test_vectors.md (named V<n>), or words
written out from the encoding rules of 30_encoding.md.
-/

namespace Sys2Proof.Tests

set_option Elab.async false

open Sys2Proof Sys2Proof.Machine

/-! ### Builders -/

/-- A core started on a command with the given arguments and DMEM. -/
def started (i : Instr) (a : Args) (m : Memory) : State :=
  { State.reset with
    cmd := encode i, args := a, dmem := m, phase := .busy, lastOp := (encode i).extractLsb' 0 8
    unread := [⟨encode i, a, true, []⟩] }

/-- Argument registers from numbers. -/
def argsOf (a0 a1 a2 a3 a4 a5 a6 a7 : Nat) : Args :=
  ⟨BitVec.ofNat 64 a0, BitVec.ofNat 64 a1, BitVec.ofNat 64 a2, BitVec.ofNat 64 a3, BitVec.ofNat 64 a4, BitVec.ofNat 64 a5,
   BitVec.ofNat 64 a6, BitVec.ofNat 64 a7⟩

/-- DMEM holding 64-bit words from an address on. -/
def words (a : Nat) (ws : List Nat) : Memory := Memory.cells a (ws.flatMap (leBytes 8))

/-- A check on the state a step answers. -/
def after (o : Host.Outcome State Fault Refusal) (p : State → Bool) : Bool :=
  match o with
  | .next t => p t
  | .fault _ => false
  | .refused _ => false

/-- The STATUS word as a number. -/
def statusOf (t : State) : Nat := t.statusWord.toNat

/-- n 64-bit words of DMEM from an address on. -/
def dmemWords (t : State) (a n : Nat) : List Nat := (List.range n).map fun k => Memory.memRead t.dmem (a + 8 * k) 8

/-! ### Well-formedness and decode -/

theorem test_wellFormed_refuses_absent_nlms :
    Instr.wellFormed { Config.thisHardware with hasNlms := false } (.nlms .real64) = false := by decide

/-- The words of 30_encoding.md R117, bit by bit: OP in 7:0, FMT in 9:8. -/
theorem test_decode_words :
    decode Config.thisHardware 0b00000000000000000000000000000000#32 = some .nop ∧
    decode Config.thisHardware 0b00000000000000000000000000000001#32 = some .fft ∧
    decode Config.thisHardware 0b00000000000000000000000000000010#32 = some .ifft ∧
    decode Config.thisHardware 0b00000000000000000000000000000011#32 = some .tspUp ∧
    decode Config.thisHardware 0b00000000000000000000000000000100#32 = some .tspDown ∧
    decode Config.thisHardware 0b00000000000000000000000000000101#32 = some .tspgen ∧
    decode Config.thisHardware 0b00000000000000000000000000000110#32 = some .load16 ∧
    decode Config.thisHardware 0b00000000000000000000000000000111#32 = some .deconvMul := by decide

theorem test_decode_format_words :
    decode Config.thisHardware 0b00000000000000000000000000001000#32 = some (.normq .real64) ∧
    decode Config.thisHardware 0b00000000000000000000001000001000#32 = some (.normq .cplx128) ∧
    decode Config.thisHardware 0b00000000000000000000000000001001#32 = some .deconv ∧
    decode Config.thisHardware 0b00000000000000000000000100001010#32 = some (.nlms .pcm16) ∧
    decode Config.thisHardware 0b00000000000000000000000100001011#32 = some (.schroeder .pcm16) ∧
    decode Config.thisHardware 0b00000000000000000000000000001100#32 = some .decayFit := by decide

/-- V29 a to e, and FMT on NOP. -/
theorem test_decode_illegal :
    decode Config.thisHardware 0x0000000D#32 = none ∧ decode Config.thisHardware 0x0000010C#32 = none ∧
    decode Config.thisHardware 0x0000030B#32 = none ∧ decode Config.thisHardware 0x00000400#32 = none ∧
    decode { Config.thisHardware with hasNlms := false } 0x0000000A#32 = none ∧
    decode Config.thisHardware 0x00000100#32 = none := by decide

/-! ### Arithmetic -/

/-- R6: the literals of this hardware, 1e-10, −100, 0.9, 32768, 32767 and 1e-10. -/
theorem test_literals :
    let c := State.reset.config
    [c.magFloor, c.dbFloor, c.peakFrac, c.pcmInScale, c.fullScale, c.nlmsEps].map F64.bits =
      [0x3DDB7CDFD9D7BDBB#64, 0xC059000000000000#64, 0x3FECCCCCCCCCCCCD#64, 0x40E0000000000000#64, 0x40DFFFC000000000#64,
        0x3DDB7CDFD9D7BDBB#64] ∧ c.docLiterals = true := by decide

/-- V13: the gain 0.9 × 32767 is 0x40DCCC9333333333. -/
theorem test_gain : (gain Config.thisHardware).bits = 0x40DCCC9333333333#64 := by decide +kernel

/-- V12: the magnitude of (1e-10, 0) is 1e-10 exactly. -/
theorem test_mag_at_floor : (Fp.mag ⟨Config.thisHardware.magFloor, Config.zero⟩).bits = 0x3DDB7CDFD9D7BDBB#64 := by decide +kernel

/-- V12: the magnitude of (1e-162, 0) is 0.0, the square underflows. -/
theorem test_mag_underflows : (Fp.mag ⟨⟨0x1E4CCB0536608D61#64⟩, Config.zero⟩).bits = 0#64 := by decide +kernel

/-! ### Commands -/

/-- V30: NOP ends with STATUS 2. -/
theorem test_nop : after (step (State.reset.withFetchWord 32 0)) (fun t => statusOf t == 0x2) = true := by decide

/-- V3: the FFT of [(1,0), (2,0)] is [(3,0), (−1,0)], STATUS 0x10002. -/
theorem test_fft :
    after (step (started .fft (argsOf 0 1 0 0 0 0 0 0) (words 0 [0x3FF0000000000000, 0, 0x4000000000000000, 0])))
      (fun t => dmemWords t 0 4 == [0x4008000000000000, 0, 0xBFF0000000000000, 0] && statusOf t == 0x10002) = true := by
  decide +kernel

/-- V4: at N = 1 the element is unchanged, bit for bit. -/
theorem test_fft_one :
    after (exec .fft (started .fft (argsOf 0 0 0 0 0 0 0 0) (words 0 [0x8000000000000000, 0x4016000000000000])))
      (fun t => dmemWords t 0 2 == [0x8000000000000000, 0x4016000000000000]) = true := by decide +kernel

/-- V3: the IFFT of [(3,0), (−1,0)] is [(1,0), (2,0)]. -/
theorem test_ifft :
    after (step (started .ifft (argsOf 0 1 0 0 0 0 0 0) (words 0 [0x4008000000000000, 0, 0xBFF0000000000000, 0])))
      (fun t => dmemWords t 0 4 == [0x3FF0000000000000, 0, 0x4000000000000000, 0] && statusOf t == 0x20002) = true := by
  decide +kernel

/-- V9: TSP_UP at N = 1 is [(1.0, 0.0)]. -/
theorem test_tspUp :
    after (step (started .tspUp (argsOf 64 0 0 0 0 0 0 0) []))
      (fun t => dmemWords t 64 2 == [0x3FF0000000000000, 0] && statusOf t == 0x30002) = true := by decide +kernel

/-- V9: TSP_DOWN at N = 4 with J = 0 is [(1,0), (1,0), (1,0), (1,−0.0)]. -/
theorem test_tspDown :
    after (step (started .tspDown (argsOf 0 2 0 0 0 0 0 0) []))
      (fun t => dmemWords t 0 8 == [0x3FF0000000000000, 0, 0x3FF0000000000000, 0, 0x3FF0000000000000, 0,
        0x3FF0000000000000, 0x8000000000000000]) = true := by decide +kernel

/-- R175 at N = 1: the one sample 1.0 is the peak and becomes 29490; RES0 = 1.0, RES1 = 1, STATUS 0x50002. -/
theorem test_tspgen :
    after (step (started .tspgen (argsOf 0 0 16 0 0 0 0 0) []))
      (fun t => Memory.memRead t.dmem 0 2 == 29490 && t.res.r0 == 0x3FF0000000000000#64 && t.res.r1 == 1#64 &&
        statusOf t == 0x50002) = true := by decide +kernel

/-- V11: LOAD16 of [−32768, 32767, 1] padded to four. -/
theorem test_load16 :
    after (step (started .load16 (argsOf 0 2 0x100 3 0 0 0 0) (Memory.cells 0x100 [0x00#8, 0x80#8, 0xFF#8, 0x7F#8, 1#8, 0#8])))
      (fun t => dmemWords t 0 8 == [0xBFF0000000000000, 0, 0x3FEFFFC000000000, 0, 0x3F00000000000000, 0, 0, 0] &&
        statusOf t == 0x60002) = true := by decide +kernel

/-- V12, bins 1 and 3, in place on y: below the floor (1e-11) the bin is zeroed, X = (3,4) gives Y·G = (−2, 1). -/
theorem test_deconvMul :
    after (step (started .deconvMul (argsOf 0x100 1 0 0x100 0x200 0 0 0)
        (words 0 [0x3DA5FD7FE1796495, 0, 0x4008000000000000, 0x4010000000000000] ++
          words 0x100 [0x3FF0000000000000, 0x4000000000000000, 0x3FF0000000000000, 0x4000000000000000] ++
          words 0x200 [0, 0x3FF0000000000000, 0, 0x3FF0000000000000])))
      (fun t => dmemWords t 0x100 4 == [0, 0, 0xC000000000000000, 0x3FF0000000000000] && statusOf t == 0x70002) = true := by
  decide +kernel

/-- V13: [0.5, −1.0, 0.25, 0.0] gives [14745, −29490, 7372, 0], RES0 = 1.0. -/
theorem test_normq :
    after (step (started (.normq .real64) (argsOf 0x100 4 0 0 0 0 0 0)
        (words 0 [0x3FE0000000000000, 0xBFF0000000000000, 0x3FD0000000000000, 0])))
      (fun t => (List.range 4).map (fun k => readPcm t.dmem (0x100 + 2 * k)) == [14745, -29490, 7372, 0] &&
        t.res.r0 == 0x3FF0000000000000#64 && statusOf t == 0x80002) = true := by decide +kernel

/-- V15: a NaN ends with NONFINITE, STATUS 0x80906, nothing written. -/
theorem test_normq_nonfinite :
    after (step (started (.normq .real64) (argsOf 0x100 2 0 0 0 0 0 0) (words 0 [0x3FF0000000000000, 0x7FF8000000000000])))
      (fun t => statusOf t == 0x80906 && t.res == Results.zero && t.dmem.length == 16) = true := by decide +kernel

/-- V29 m: DECONV with two rates is RATE_MISMATCH. -/
theorem test_deconv_rates :
    after (step (started .deconv (argsOf 0 16 0 16 0 0x0000AC440000BB80 0 0) [])) (fun t => statusOf t == 0x90406) = true := by
  decide +kernel

/-- R207 at E = M = 1: the one response sample is the peak; RES0 = 0.5, RES1 = 1, RES2 = the rate, RES3 = 0. -/
theorem test_deconv :
    after (step (started .deconv (argsOf 0x20 1 0x30 1 0x32 0x0000000700000007 0x40 0) (Memory.cells 0x30 [0x00#8, 0x40#8, 0x00#8, 0xC0#8])))
      (fun t => readPcm t.dmem 0x20 == -29490 && t.res == ⟨0x3FE0000000000000#64, 1#64, 7#64, 0#64⟩ &&
        statusOf t == 0x90002) = true := by decide +kernel

/-- V20: x = [1,0,0,0], y = [0.5,0.25,0,0], Lf = 2, mu = 1, beta = 0 gives h = [0.5, 0.25], dline = [0, 0]. -/
theorem test_nlms :
    after (step (started (.nlms .real64) (argsOf 0x200 4 0 0x100 2 0x3FF0000000000000 0 0x300)
        (words 0 [0x3FF0000000000000, 0, 0, 0] ++ words 0x100 [0x3FE0000000000000, 0x3FD0000000000000, 0, 0])))
      (fun t => dmemWords t 0x200 2 == [0x3FE0000000000000, 0x3FD0000000000000] && dmemWords t 0x300 2 == [0, 0] &&
        statusOf t == 0xA0002) = true := by decide +kernel

/-- V22b: SCHROEDER of zeros is −100 dB throughout, RES0 = +0.0; in place. -/
theorem test_schroeder :
    after (step (started (.schroeder .real64) (argsOf 0 2 0 0 0 0 0 0) (words 0 [0, 0])))
      (fun t => dmemWords t 0 2 == [0xC059000000000000, 0xC059000000000000] && statusOf t == 0xB0002) = true := by
  decide +kernel

/-- V29 q: SCHROEDER in place on PCM16 is OVERLAP. -/
theorem test_schroeder_overlap :
    after (step (started (.schroeder .pcm16) (argsOf 0x100 4 0x100 0 0 0 0 0) [])) (fun t => statusOf t == 0xB0806) = true := by
  decide +kernel

/-- V28 d: [0, −5, −10, −15] at 1000 Hz. -/
theorem test_decayFit :
    after (step (started .decayFit (argsOf 0 4 0 1000 0xC014000000000000 0xC02E000000000000 0 0)
        (words 0 [0, 0xC014000000000000, 0xC024000000000000, 0xC02E000000000000])))
      (fun t => t.res == ⟨0x3F60624DD2F1A9F5#64, 0x3F889374BC6A7EF0#64, 1#64, 3#64⟩ && statusOf t == 0xC0002) = true := by
  decide +kernel

/-- V28 c: a start and no end: the sentinels, RES2 = 1, RES3 = −1. -/
theorem test_decayFit_no_end :
    after (step (started .decayFit (argsOf 0 3 0 1000 0xC014000000000000 0xC02E000000000000 0 0)
        (words 0 [0, 0xC018000000000000, 0xC024000000000000])))
      (fun t => t.res == ⟨0xBFF0000000000000#64, 0xBFF0000000000000#64, 1#64, 0xFFFFFFFFFFFFFFFF#64⟩ &&
        statusOf t == 0xC0A06) = true := by decide +kernel

/-! ### Registers, the host's turns and the assembler -/

/-- V32: ID reads 0x0001000001140001. -/
theorem test_id : (State.reset.readRegister (regAt 0x00)).toNat = 0x0001000001140001 := by decide

/-- V32: a write of 6 to STATUS while it is 0x10002 leaves 0x10000. -/
theorem test_status_write :
    statusOf ({ State.reset with done := true, lastOp := 1#8 }.writeRegister (regAt 0x10) 0x6#64) = 0x10000 := by decide

/-- V32: CMD keeps 32 bits. -/
theorem test_cmd_write :
    ((State.reset.writeRegister (regAt 0x18) 0xFFFFFFFFFFFFFFFF#64).readRegister (regAt 0x18)).toNat = 0xFFFFFFFF := by decide

/-- P5: IE and START in one write; while the command runs CTRL reads 2 and STATUS 0x10001. -/
theorem test_start_with_ie :
    after (step { State.reset with cmd := 1#32, host := [.writeReg 0x08 8 0x3#64, .waitDone], delays := [5] })
      (fun t => t.ctrlWord == 0x2#64 && statusOf t == 0x10001 && t.delay == 5) = true := by decide

/-- P1: the register writes of an assembly line. -/
theorem test_assemble_fft :
    assembleText ["FFT buf=0x0, log2n=2 ; forward"] =
      some [.writeReg 0x20 8 0#64, .writeReg 0x28 8 2#64, .writeReg 0x18 8 1#64, .writeReg 0x08 8 1#64, .waitDone] := by
  decide +kernel

/-- P3: the second half of T20, with −5.0 and −25.0. -/
theorem test_assemble_t20 :
    (assembleText ["T20 dst=0x1000, len=400, src=0x0, fs=1000"]).map (fun l => l.drop 6) =
      some [.writeReg 0x28 8 0x190#64, .writeReg 0x30 8 0x1000#64, .writeReg 0x38 8 0x3E8#64,
        .writeReg 0x40 8 0xC014000000000000#64, .writeReg 0x48 8 0xC039000000000000#64, .writeReg 0x18 8 0xC#64,
        .writeReg 0x08 8 1#64, .waitDone] := by decide +kernel

/-- V31's beta: 1e-6 is 0x3EB0C6F7A0B5ED8D. -/
theorem test_float_literal : valueOf "1e-6".toList = some 0x3EB0C6F7A0B5ED8D#64 := by decide +kernel

/-- R118: what is no line of the syntax: an empty suffix, a suffix on a pseudo-instruction, an operand T10 does not have; and
the integer −1 (log 13). -/
theorem test_assemble_errors :
    ∀ l ∈ ["FFT. buf=0", "IE.R64 on", "MOV.P16 arg0, 1", "WAIT.R64", "MOV arg0, -1",
        "T10 dst=0, len=1, src=0, fs=1, mu=1.0", "T10 dst=0, dst=8, len=1, src=0, fs=1"],
      assembleText [l] = none := by decide +kernel

/-- H6: the results of an FFT on 0 to 15 and of a NOP started after it, with STATUS not read in between. -/
def unreadResults : List Unread := [⟨0#32, Args.zero, true, []⟩, ⟨1#32, Args.zero, true, []⟩]

/-- H6: after a completion a RES register may be read only once STATUS has been read with DONE = 1; nor a byte an earlier
command has written, which a START has not ordered (R91). -/
theorem test_results_wait_for_done :
    (step { State.reset with done := true, unread := unreadResults, host := [.readReg 0x60 8] } = .refused .resultBeforeDone) ∧
    (step { State.reset with done := true, unread := unreadResults, host := [.readMem 8 8] } = .refused .resultBeforeDone) ∧
    after (step { State.reset with done := true, unread := unreadResults, host := [.waitDone] })
      (fun t => t.unread == [] && t.readData == 0x2#64) = true := by
  exact ⟨rfl, rfl, by decide⟩

/-- R340, H6 (log 7): after a reset while a NORMQ runs that writes bytes 8 and 9, of an earlier unread FFT's bytes 0 to 15 only
those two, draws now, are no results. -/
theorem test_reset_keeps_results_unread :
    let s := started (.normq .real64) (argsOf 8 1 0x100 0 0 0 0 0) []
    let t := ({ s with unread := s.unread ++ [⟨1#32, Args.zero, true, []⟩] } : State).resetHeld
    [7, 8, 9, 10, 16].map t.unreadByte = [true, false, false, true, false] := by decide +kernel

/-- P4: after DECONV's RATE_MISMATCH, CHECK reads 0x90406, fails the program, and the accesses go on; CLRDONE then leaves
0x90404. -/
theorem test_check_fails_and_goes_on :
    let s := { State.reset with done := true, err := true, errCode := .rateMismatch, lastOp := 9#8 }
    after (step { s with host := [.check, .writeReg 0x10 8 0x2#64] })
      (fun t => t.readData == 0x90406#64 && t.checkFailed && t.host == [.writeReg 0x10 8 0x2#64]) = true ∧
    after (step { s with host := [.writeReg 0x10 8 0x2#64], checkFailed := true }) (fun t => statusOf t == 0x90404) = true := by
  exact ⟨by decide, by decide⟩

/-! ### Witnesses: for each obligation with hypotheses, a state and operands that meet them together -/

/-- CPLX128 ×1 at 0. -/
def wCplx (i : Instr) : State := started i (argsOf 0 0 0 0 0 0 0 0) (words 0 [0x3FF0000000000000, 0x4000000000000000])

/-- FFT-like operands, for the check order. -/
def wOperands (i : Instr) (a0 a1 : Nat) : State := started i (argsOf a0 a1 0 0 0 0 0 0) []

/-- DECONV with the given operands. -/
def wDeconvOf (d e x m r rates w : Nat) : State := started .deconv (argsOf d e x m r rates w 0) (Memory.cells 0x30 [0#8, 0x40#8, 0#8, 0xC0#8])

/-- A legal DECONV, E = M = 1. -/
def wDeconv : State := wDeconvOf 0x20 1 0x30 1 0x32 0x0000000700000007 0x40

/-- A legal DECONV with the two-period rule, E = 1, M = 2. -/
def wDeconvTwo : State := { wDeconvOf 0x20 1 0x30 2 0x32 0x0000000700000007 0x40 with
  dmem := Memory.cells 0x30 [0#8, 0x40#8, 0#8, 0xC0#8, 0#8, 0xC0#8] }

/-- A legal TSPGEN, N = 1. -/
def wTspgen : State := started .tspgen (argsOf 0 0 16 0 0 0 0 0) []

/-- A legal LOAD16 of one sample into one element, and of none. -/
def wLoad16 (cnt : Nat) : State := started .load16 (argsOf 0 0 0x100 cnt 0 0 0 0) (Memory.cells 0x100 [0x00#8, 0x80#8])

/-- A LOAD16 of no sample, from past the end of DMEM. -/
def wEmptyPastEnd : State := started .load16 (argsOf 0 0 67108866 0 0 0 0 0) []

/-- A legal DECONV_MUL, N = 1, in place on y. -/
def wMul : State := started .deconvMul (argsOf 0x100 0 0 0x100 0x200 0 0 0)
  (words 0 [0x4008000000000000, 0] ++ words 0x100 [0x3FF0000000000000, 0] ++ words 0x200 [0, 0x3FF0000000000000])

/-- A NORMQ of one REAL64 value. -/
def wNormq (v : Nat) : State := started (.normq .real64) (argsOf 0x100 1 0 0 0 0 0 0) (words 0 [v])

/-- A legal NLMS, Ns = Lf = 1. -/
def wNlms : State := started (.nlms .real64) (argsOf 0x200 1 0 0x100 1 0x3FF0000000000000 0 0x300)
  (words 0 [0x3FF0000000000000] ++ words 0x100 [0x3FE0000000000000])

/-- A SCHROEDER of one REAL64 value, into 0x100 or in place. -/
def wSchroeder (dst v : Nat) : State := started (.schroeder .real64) (argsOf dst 1 0 0 0 0 0 0) (words 0 [v])

/-- A DECAY_FIT on two curve values, from start_db = −5 to end_db = −15 at 1000 Hz. -/
def wDecay (c0 c1 : Nat) : State :=
  started .decayFit (argsOf 0 2 0 1000 0xC014000000000000 0xC02E000000000000 0 0) (words 0 [c0, c1])

theorem witness_DecodeOfEncode : Instr.wellFormed Config.thisHardware (.nlms .cplx128) = true := by decide

theorem witness_EncodeOfDecode : decode Config.thisHardware 0x0000020A#32 = some (.nlms .cplx128) := by decide

theorem witness_LegalWordsAndIllegalCompletion :
    (wCplx .fft).phase = .busy ∧ decode (wCplx .fft).config ({ wCplx .fft with cmd := 0x0000000D#32 } : State).cmd = none := by
  decide

theorem witness_StepRunsDecodedCommand :
    ((wCplx .fft).phase = .busy ∧ (wCplx .fft).delay = 0 ∧ decode (wCplx .fft).config (wCplx .fft).cmd = some .fft) ∧
    (({ wCplx .fft with delay := 3 } : State).phase = .busy ∧ ({ wCplx .fft with delay := 3 } : State).host = [] ∧
      decode (wCplx .fft).config ({ wCplx .fft with delay := 3 } : State).cmd = some .fft) := by decide

/-- The waiting host of the witness, and one turn inside and one past its command's duration. -/
def wWaiting : State := { wCplx .fft with delay := 2, host := [.waitDone] }

theorem witness_WaitingHostSeesCompletion :
    wWaiting.phase = .busy ∧ wWaiting.done = false ∧ wWaiting.host = .waitDone :: [] ∧
    decode wWaiting.config wWaiting.cmd = some .fft ∧ 0 < 2 ∧ 2 ≤ wWaiting.delay := by decide

theorem witness_StepKeepsInvariant : (wCplx .fft).Inv ∧ ∃ t, step (wCplx .fft) = .next t :=
  ⟨⟨by decide, by decide, by decide, by decide, fun _ => by decide⟩, _, exec_next .fft (wCplx .fft)⟩

theorem witness_FailedCheckReadsAndWritesNothing :
    ∃ t, exec .fft (wOperands .fft 4 0) = .next t ∧ t.errCode.code.toNat ∈ [1, 2, 3, 4, 5, 6, 7, 8] :=
  ⟨_, exec_next _ _, by decide +kernel⟩

/-- A command whose outcome has a code completes with it. -/
theorem completes (i : Instr) (s : State) {c : ErrCode} (h : after (exec i s) (fun t => t.errCode == c) = true) :
    ∃ t, exec i s = .next t ∧ t.errCode = c :=
  ⟨_, exec_next i s, by simpa [after, exec_next] using h⟩

/-- NORMQ and SCHROEDER with NONFINITE, DECAY_FIT with DECAY_NOT_DETECTED, and commands that end with OK, both composites
among them, whose configuration is legal. -/
theorem witness_ExecutionErrorsWriteNoMemory :
    (∃ t, exec (.normq .real64) (wNormq 0x7FF8000000000000) = .next t ∧ t.errCode = .nonfinite) ∧
    (∃ t, exec (.schroeder .real64) (wSchroeder 0x100 0x7FF0000000000000) = .next t ∧ t.errCode = .nonfinite) ∧
    (∃ t, exec .decayFit (wDecay 0 0) = .next t ∧ t.errCode = .decayNotDetected) ∧
    (∃ t, exec .fft (wCplx .fft) = .next t) ∧
    (wTspgen.config.legal = true ∧ ∃ t, exec .tspgen wTspgen = .next t) ∧
    (wDeconv.config.legal = true ∧ wDeconv.config.docLiterals = true) ∧ ∃ t, exec .deconv wDeconv = .next t :=
  ⟨completes _ _ (by decide +kernel), completes _ _ (by decide +kernel), completes _ _ (by decide +kernel),
    ⟨_, exec_next _ _⟩, ⟨by decide, _, exec_next _ _⟩, by decide, _, exec_next _ _⟩

/-- Every command of the frame statements completes with OK from these states. -/
theorem witness_SpectralCommandsFrame :
    (∃ t, exec .fft (wCplx .fft) = .next t ∧ t.errCode = .ok) ∧ (∃ t, exec .ifft (wCplx .ifft) = .next t ∧ t.errCode = .ok) ∧
    (∃ t, exec .tspUp (wCplx .tspUp) = .next t ∧ t.errCode = .ok) ∧
    (∃ t, exec .tspDown (wCplx .tspDown) = .next t ∧ t.errCode = .ok) ∧
    (∃ t, exec .load16 (wLoad16 1) = .next t ∧ t.errCode = .ok) ∧ ∃ t, exec .deconvMul wMul = .next t ∧ t.errCode = .ok :=
  ⟨completes .fft _ (by decide +kernel), completes .ifft _ (by decide +kernel), completes .tspUp _ (by decide +kernel),
    completes .tspDown _ (by decide +kernel), completes .load16 _ (by decide +kernel),
    completes .deconvMul _ (by decide +kernel)⟩

theorem witness_SampleCommandsFrame :
    (∃ t, exec (.normq .real64) (wNormq 0x3FF0000000000000) = .next t ∧ t.errCode = .ok) ∧
    (∃ t, exec .tspgen wTspgen = .next t ∧ t.errCode = .ok) ∧ ∃ t, exec .deconv wDeconv = .next t ∧ t.errCode = .ok :=
  ⟨completes _ _ (by decide +kernel), completes _ _ (by decide +kernel), completes _ _ (by decide +kernel)⟩

theorem witness_RealCommandsFrame :
    (∃ t, exec (.nlms .real64) wNlms = .next t ∧ t.errCode = .ok) ∧
    ∃ t, exec (.schroeder .real64) (wSchroeder 0x100 0) = .next t ∧ t.errCode = .ok :=
  ⟨completes _ _ (by decide +kernel), completes _ _ (by decide +kernel)⟩

theorem witness_StorelessCommandsFrame :
    (∃ t, exec .nop (wCplx .nop) = .next t) ∧
    ∃ t, exec .decayFit (wDecay 0xC014000000000000 0xC02E000000000000) = .next t ∧ t.errCode = .ok :=
  ⟨⟨_, exec_next _ _⟩, _, exec_next _ _, by decide +kernel⟩

/-- The outcomes of FFT at the edges of its checks: LOG2N 20 and 21, bases 8 and 4, the last buffer that fits and the next. -/
theorem witness_CheckOrder_transform :
    (commandCheck .fft (wOperands .fft 0 21) = some .badArg ∧ commandCheck .fft (wOperands .fft 4 20) = some .align ∧
      commandCheck .fft (wOperands .fft 67108856 0) = some .range ∧ commandCheck .fft (wOperands .fft 67108848 0) = none) ∧
    ∃ t, exec .fft (wOperands .fft 4 20) = .next t :=
  ⟨by decide +kernel, _, exec_next _ _⟩

/-- DECONV at the edges of its seven classes, in order, then past them. -/
theorem witness_CheckOrder_deconv :
    (commandCheck .deconv (wDeconvOf 1 4294967296 1 0 1 0x100000002 1) = some .badArg ∧
    commandCheck .deconv (wDeconvOf 1 0 1 1 1 0x2 1) = some .badArg ∧
    commandCheck .deconv (wDeconvOf 1 0 1 1 1 0x100000002 1) = some .empty ∧
    commandCheck .deconv (wDeconvOf 1 1048577 1 1 1 0x100000002 1) = some .rateMismatch ∧
    commandCheck .deconv (wDeconvOf 1 1048577 1 1 1 0x100000001 1) = some .tooLong ∧
    commandCheck .deconv (wDeconvOf 1 1048576 0 1 0 0x100000001 0) = some .align ∧
    commandCheck .deconv (wDeconvOf 67108864 1 0 1 0 0x100000001 0) = some .range ∧
    commandCheck .deconv (wDeconvOf 46 1 0 1 48 0x100000001 0) = some .overlap) ∧
    (wDeconv.config.legal = true ∧ wDeconv.config.docLiterals = true) ∧
    (∃ t, exec .deconv wDeconv = .next t ∧ t.errCode = .ok) :=
  ⟨by decide +kernel, by decide, completes .deconv wDeconv (by decide +kernel)⟩

/-- Every other command at the edges of its classes, in order, then past them: TSP_DOWN and TSPGEN. -/
theorem witness_CheckOrder_tsp :
    (commandCheck .tspDown (started .tspDown (argsOf 4 0 4294967296 0 0 0 0 0) []) = some .badArg ∧
    commandCheck .tspDown (started .tspDown (argsOf 4 20 4294967295 0 0 0 0 0) []) = some .align ∧
    commandCheck .tspDown (started .tspDown (argsOf 67108856 0 0 0 0 0 0 0) []) = some .range ∧
    commandCheck .tspDown (started .tspDown (argsOf 67108848 0 0 0 0 0 0 0) []) = none ∧
    commandCheck .tspgen (started .tspgen (argsOf 1 21 4 0 0 0 0 0) []) = some .badArg ∧
    commandCheck .tspgen (started .tspgen (argsOf 1 20 0 0 0 0 0 0) []) = some .align ∧
    commandCheck .tspgen (started .tspgen (argsOf 67108864 0 67108864 0 0 0 0 0) []) = some .range ∧
    commandCheck .tspgen (started .tspgen (argsOf 22 0 8 0 0 0 0 0) []) = some .overlap ∧
    commandCheck .tspgen (started .tspgen (argsOf 24 0 8 0 0 0 0 0) []) = none) ∧
    (∃ t, exec .tspDown (started .tspDown (argsOf 67108848 0 0 0 0 0 0 0) []) = .next t) ∧
    wTspgen.config.legal = true ∧ ∃ t, exec .tspgen wTspgen = .next t :=
  ⟨by decide +kernel, ⟨_, exec_next _ _⟩, by decide, _, exec_next _ _⟩

/-- LOAD16, with CNT = 0 and src the end of DMEM or past it (log 10), and DECONV_MUL, z the same buffer as y or half over it. -/
theorem witness_CheckOrder_data :
    (commandCheck .load16 (started .load16 (argsOf 4 0 1 4294967296 0 0 0 0) []) = some .badArg ∧
    commandCheck .load16 (started .load16 (argsOf 4 0 1 2 0 0 0 0) []) = some .tooLong ∧
    commandCheck .load16 (started .load16 (argsOf 0 0 1 1 0 0 0 0) []) = some .align ∧
    commandCheck .load16 (started .load16 (argsOf 0 0 67108864 1 0 0 0 0) []) = some .range ∧
    commandCheck .load16 (started .load16 (argsOf 0 0 67108864 0 0 0 0 0) []) = none ∧
    commandCheck .load16 (started .load16 (argsOf 0 0 14 1 0 0 0 0) []) = some .overlap ∧
    commandCheck .load16 (started .load16 (argsOf 0 0 16 1 0 0 0 0) []) = none ∧
    commandCheck .deconvMul (started .deconvMul (argsOf 0 21 0 0 4 0 0 0) []) = some .badArg ∧
    commandCheck .deconvMul (started .deconvMul (argsOf 0 0 0 67108864 4 0 0 0) []) = some .align ∧
    commandCheck .deconvMul (started .deconvMul (argsOf 8 0 0 0 67108856 0 0 0) []) = some .range ∧
    commandCheck .deconvMul (started .deconvMul (argsOf 8 0 8 8 0 0 0 0) []) = some .overlap ∧
    commandCheck .deconvMul (started .deconvMul (argsOf 16 0 16 16 0 0 0 0) []) = none) ∧
    commandCheck .load16 wEmptyPastEnd = none ∧
    (∃ t, exec .load16 (wLoad16 1) = .next t) ∧ ∃ t, exec .deconvMul wMul = .next t :=
  ⟨by decide +kernel, by decide +kernel, ⟨_, exec_next _ _⟩, _, exec_next _ _⟩

/-- NORMQ from CPLX128 and SCHROEDER from REAL64 and PCM16. -/
theorem witness_CheckOrder_reals :
    (commandCheck (.normq .cplx128) (started (.normq .cplx128) (argsOf 1 4294967296 0 0 0 0 0 0) []) = some .badArg ∧
    commandCheck (.normq .cplx128) (started (.normq .cplx128) (argsOf 1 0 0 0 0 0 0 0) []) = some .empty ∧
    commandCheck (.normq .cplx128) (started (.normq .cplx128) (argsOf 0 1 67108860 0 0 0 0 0) []) = some .align ∧
    commandCheck (.normq .cplx128) (started (.normq .cplx128) (argsOf 0 1 67108856 0 0 0 0 0) []) = some .range ∧
    commandCheck (.normq .cplx128) (started (.normq .cplx128) (argsOf 14 1 0 0 0 0 0 0) []) = some .overlap ∧
    commandCheck (.normq .cplx128) (started (.normq .cplx128) (argsOf 16 1 0 0 0 0 0 0) []) = none ∧
    commandCheck (.schroeder .pcm16) (started (.schroeder .pcm16) (argsOf 4 4294967296 0 0 0 0 0 0) []) = some .badArg ∧
    commandCheck (.schroeder .pcm16) (started (.schroeder .pcm16) (argsOf 4 0 0 0 0 0 0 0) []) = some .empty ∧
    commandCheck (.schroeder .pcm16) (started (.schroeder .pcm16) (argsOf 67108864 1 1 0 0 0 0 0) []) = some .align ∧
    commandCheck (.schroeder .pcm16) (started (.schroeder .pcm16) (argsOf 0 1 67108864 0 0 0 0 0) []) = some .range ∧
    commandCheck (.schroeder .pcm16) (started (.schroeder .pcm16) (argsOf 0 1 0 0 0 0 0 0) []) = some .overlap ∧
    commandCheck (.schroeder .real64) (started (.schroeder .real64) (argsOf 0 2 8 0 0 0 0 0) []) = some .overlap ∧
    commandCheck (.schroeder .real64) (started (.schroeder .real64) (argsOf 0 1 0 0 0 0 0 0) []) = none) ∧
    (∃ t, exec (.normq .real64) (wNormq 0) = .next t) ∧ ∃ t, exec (.schroeder .real64) (wSchroeder 0 0) = .next t :=
  ⟨by decide +kernel, ⟨_, exec_next _ _⟩, _, exec_next _ _⟩

/-- NLMS, with the engine absent too, and DECAY_FIT, with a rate of 0 and equal window ends too. -/
theorem witness_CheckOrder_estimates :
    (commandCheck (.nlms .pcm16) { wNlms with config := { wNlms.config with hasNlms := false } } = some .illegalCmd ∧
    commandCheck (.nlms .pcm16) (started (.nlms .pcm16) (argsOf 4 0 0 0 4294967296 0 0 0) []) = some .badArg ∧
    commandCheck (.nlms .pcm16) (started (.nlms .pcm16) (argsOf 4 0 0 0 1 0 0 0) []) = some .empty ∧
    commandCheck (.nlms .pcm16) (started (.nlms .pcm16) (argsOf 67108864 1 1 0 1 0 0 0) []) = some .align ∧
    commandCheck (.nlms .pcm16) (started (.nlms .pcm16) (argsOf 0 1 0 67108864 1 0 0 0) []) = some .range ∧
    commandCheck (.nlms .pcm16) (started (.nlms .pcm16) (argsOf 0 1 22 0x100 1 0 0 16) []) = some .overlap ∧
    commandCheck (.nlms .pcm16) (started (.nlms .pcm16) (argsOf 0 1 24 24 1 0 0 16) []) = none ∧
    commandCheck .decayFit (started .decayFit (argsOf 0 0 4 0 0xC014000000000000 0xC02E000000000000 0 0) []) = some .badArg ∧
    commandCheck .decayFit (started .decayFit (argsOf 0 0 4 1 0xC014000000000000 0xC014000000000000 0 0) []) = some .badArg ∧
    commandCheck .decayFit (started .decayFit (argsOf 0 0 4 1 0xC014000000000000 0xFFF0000000000000 0 0) []) = some .badArg ∧
    commandCheck .decayFit (started .decayFit (argsOf 0 0 4 4294967295 0xC014000000000000 0xC02E000000000000 0 0) []) =
      some .empty ∧
    commandCheck .decayFit (started .decayFit (argsOf 0 1 67108868 1 0xC014000000000000 0xC02E000000000000 0 0) []) =
      some .align ∧
    commandCheck .decayFit (started .decayFit (argsOf 0 2 67108856 1 0xC014000000000000 0xC02E000000000000 0 0) []) =
      some .range ∧
    commandCheck .decayFit (started .decayFit (argsOf 0 1 67108856 1 0xC014000000000000 0xC02E000000000000 0 0) []) = none) ∧
    (∃ t, exec (.nlms .real64) wNlms = .next t) ∧ ∃ t, exec .decayFit (wDecay 0 0) = .next t :=
  ⟨by decide +kernel, ⟨_, exec_next _ _⟩, _, exec_next _ _⟩

/-- FFT, IFFT, TSP_UP and TSP_DOWN: N = 1 at 0, and the last block that fits. -/
theorem witness_FftStoresTransform :
    ((wCplx .fft).args.a1.toNat ≤ (wCplx .fft).config.log2nMax ∧
      Placed (wCplx .fft) 8 (wCplx .fft).args.a0.toNat (16 * 2 ^ (wCplx .fft).args.a1.toNat)) ∧
    Placed (wOperands .fft 67108848 0) 8 (wOperands .fft 67108848 0).args.a0.toNat
      (16 * 2 ^ (wOperands .fft 67108848 0).args.a1.toNat) := by decide +kernel

theorem witness_IfftStoresScaledTransform :
    (wCplx .ifft).args.a1.toNat ≤ (wCplx .ifft).config.log2nMax ∧
      Placed (wCplx .ifft) 8 (wCplx .ifft).args.a0.toNat (16 * 2 ^ (wCplx .ifft).args.a1.toNat) := by decide +kernel

theorem witness_TspUpStoresExcitationSpectrum :
    (wCplx .tspUp).args.a1.toNat ≤ (wCplx .tspUp).config.log2nMax ∧
      Placed (wCplx .tspUp) 8 (wCplx .tspUp).args.a0.toNat (16 * 2 ^ (wCplx .tspUp).args.a1.toNat) := by decide +kernel

theorem witness_TspDownStoresInverseFilter :
    (wOperands .tspDown 0 3).args.a1.toNat ≤ (wOperands .tspDown 0 3).config.log2nMax ∧
      (wOperands .tspDown 0 3).args.a2.toNat < 2 ^ 32 ∧
      Placed (wOperands .tspDown 0 3) 8 (wOperands .tspDown 0 3).args.a0.toNat
        (16 * 2 ^ (wOperands .tspDown 0 3).args.a1.toNat) := by decide +kernel

theorem witness_TransformIsRecursiveRadixTwo : [Fp.cone, Fp.czero].length = 2 ^ (0 + 1) ∧ 0 < 2 ^ 0 := by decide

theorem witness_BitReversalPermutes : (1 < 2) ∧ [Fp.cone, Fp.czero].length = 2 ^ 1 ∧ 1 < 2 ^ 1 := by decide

theorem witness_SpectraAreHermitian : (1 ≤ 1 ∧ 1 < 4 / 2) ∧ 0 < 1 ∧ (1 ≤ 26 ∧ 26 ≤ 26) ∧ (0 ≤ 26 ∧ 4294967295 < 2 ^ 32) := by
  decide

theorem witness_TspgenStoresExcitation :
    wTspgen.config.legal = true ∧ wTspgen.args.a1.toNat ≤ wTspgen.config.log2nMax ∧
    Placed wTspgen 2 wTspgen.args.a0.toNat (2 * 2 ^ wTspgen.args.a1.toNat) ∧
    Placed wTspgen 8 wTspgen.args.a2.toNat (16 * 2 ^ wTspgen.args.a1.toNat) ∧
    Apart wTspgen.args.a0.toNat (2 * 2 ^ wTspgen.args.a1.toNat) wTspgen.args.a2.toNat (16 * 2 ^ wTspgen.args.a1.toNat) ∧
    0 < 2 ^ wTspgen.args.a1.toNat := by decide +kernel

/-- CNT = N = 1; and CNT = 0, in range and past the end of DMEM. -/
theorem witness_Load16StoresPaddedSamples :
    ∀ s ∈ [wLoad16 0, wLoad16 1, wEmptyPastEnd],
      s.args.a1.toNat ≤ s.config.log2nMax ∧ s.args.a3.toNat < 2 ^ 32 ∧ s.args.a3.toNat ≤ 2 ^ s.args.a1.toNat ∧
      Placed s 8 s.args.a0.toNat (16 * 2 ^ s.args.a1.toNat) ∧ s.args.a2.toNat % 2 = 0 ∧
      (s.args.a3.toNat = 0 ∨ s.args.a2.toNat + 2 * s.args.a3.toNat ≤ s.config.dmemSize) ∧
      Apart s.args.a0.toNat (16 * 2 ^ s.args.a1.toNat) s.args.a2.toNat (2 * s.args.a3.toNat) := by decide +kernel

theorem witness_PcmReadsExactly : Config.thisHardware.docLiterals = true := by decide

theorem witness_DeconvMulStoresGuardedProducts :
    wMul.args.a1.toNat ≤ wMul.config.log2nMax ∧ Placed wMul 8 wMul.args.a0.toNat (16 * 2 ^ wMul.args.a1.toNat) ∧
    ∀ p ∈ [wMul.args.a2.toNat, wMul.args.a3.toNat, wMul.args.a4.toNat],
      Placed wMul 8 p (16 * 2 ^ wMul.args.a1.toNat) ∧
      (p = wMul.args.a0.toNat ∨ Apart wMul.args.a0.toNat (16 * 2 ^ wMul.args.a1.toNat) p (16 * 2 ^ wMul.args.a1.toNat)) := by
  decide +kernel

/-- The operand hypotheses of NORMQ, with a finite and with a non-finite value. -/
theorem witness_NormqStoresSamplesOrNonfinite :
    (∀ v ∈ [0x7FEFFFFFFFFFFFFF, 0x7FF0000000000000],
      (wNormq v).args.a1.toNat < 2 ^ 32 ∧ 0 < (wNormq v).args.a1.toNat ∧
      Placed (wNormq v) 2 (wNormq v).args.a0.toNat (2 * (wNormq v).args.a1.toNat) ∧
      Placed (wNormq v) (elemAlign .real64) (wNormq v).args.a2.toNat (elemBytes .real64 * (wNormq v).args.a1.toNat) ∧
      Apart (wNormq v).args.a0.toNat (2 * (wNormq v).args.a1.toNat) (wNormq v).args.a2.toNat
        (elemBytes .real64 * (wNormq v).args.a1.toNat)) ∧
    (∀ k, k < (wNormq 0x7FEFFFFFFFFFFFFF).args.a1.toNat →
      (readReal Config.thisHardware .real64 (wNormq 0x7FEFFFFFFFFFFFFF).dmem (wNormq 0x7FEFFFFFFFFFFFFF).args.a2.toNat k).isFinite = true) ∧
    0 < (wNormq 0x7FF0000000000000).args.a1.toNat ∧
    (readReal Config.thisHardware .real64 (wNormq 0x7FF0000000000000).dmem (wNormq 0x7FF0000000000000).args.a2.toNat 0).isFinite = false := by
  refine ⟨by decide +kernel, by decide +kernel, by decide +kernel, by decide +kernel⟩

/-- A list of finite values with a sample at a nonzero peak, and one all zeros. -/
theorem witness_NormalizedPeakIs29490 :
    ((∀ v ∈ [Config.one, Config.minusOne], v.isFinite = true) ∧
      Config.minusOne.magUnits = (peakOf [Config.one, Config.minusOne]).magUnits ∧ Config.minusOne.magUnits ≠ 0 ∧
      [Config.one, Config.minusOne] ≠ [] ∧ 1 < [Config.one, Config.minusOne].length) ∧
    ((∀ v ∈ [Config.zero, Fp.zeroOf true], v.isFinite = true) ∧ ∀ v ∈ [Config.zero, Fp.zeroOf true], v.magUnits = 0) ∧
    Config.thisHardware.docLiterals = true ∧ { Config.thisHardware with qround := .nearestEven }.docLiterals = true := by
  decide +kernel

/-- Both cases of the two-period rule: E = M = 1, and M = 2 E. -/
theorem witness_DeconvRunsThePipeline : ∀ s ∈ [wDeconv, wDeconvTwo], s.config.legal = true ∧ s.config.docLiterals = true ∧
    (0 < s.args.a1.toNat ∧ s.args.a1.toNat < 2 ^ 32 ∧ 0 < s.args.a3.toNat ∧ s.args.a3.toNat < 2 ^ 32 ∧
      s.args.a5.toNat % 2 ^ 32 = s.args.a5.toNat / 2 ^ 32 ∧ 0 < s.args.a5.toNat / 2 ^ 32) ∧
    2 ^ ceilLog2 (max s.args.a1.toNat s.args.a3.toNat) ≤ 2 ^ s.config.log2nMax ∧
    Placed s 2 s.args.a0.toNat (2 * 2 ^ ceilLog2 (max s.args.a1.toNat s.args.a3.toNat)) ∧
    Placed s 2 s.args.a2.toNat (2 * s.args.a1.toNat) ∧ Placed s 2 s.args.a4.toNat (2 * s.args.a3.toNat) ∧
    Placed s 8 s.args.a6.toNat (48 * 2 ^ ceilLog2 (max s.args.a1.toNat s.args.a3.toNat)) ∧
    Apart s.args.a6.toNat (48 * 2 ^ ceilLog2 (max s.args.a1.toNat s.args.a3.toNat)) s.args.a0.toNat
      (2 * 2 ^ ceilLog2 (max s.args.a1.toNat s.args.a3.toNat)) ∧
    Apart s.args.a6.toNat (48 * 2 ^ ceilLog2 (max s.args.a1.toNat s.args.a3.toNat)) s.args.a2.toNat (2 * s.args.a1.toNat) ∧
    Apart s.args.a6.toNat (48 * 2 ^ ceilLog2 (max s.args.a1.toNat s.args.a3.toNat)) s.args.a4.toNat (2 * s.args.a3.toNat) ∧
    Apart s.args.a0.toNat (2 * 2 ^ ceilLog2 (max s.args.a1.toNat s.args.a3.toNat)) s.args.a2.toNat (2 * s.args.a1.toNat) ∧
    Apart s.args.a0.toNat (2 * 2 ^ ceilLog2 (max s.args.a1.toNat s.args.a3.toNat)) s.args.a4.toNat (2 * s.args.a3.toNat) := by
  decide +kernel

theorem witness_TransformSizeIsLeastPowerOfTwo : wDeconv.excCount = 1 ∧ wDeconv.respCount = 1 := by decide +kernel

theorem witness_NlmsStoresEstimate :
    wNlms.config.hasNlms = true ∧ (0 < wNlms.args.a1.toNat ∧ wNlms.args.a1.toNat < 2 ^ 32) ∧
    (0 < wNlms.args.a4.toNat ∧ wNlms.args.a4.toNat < 2 ^ 32) ∧
    Placed wNlms 8 wNlms.args.a0.toNat (8 * wNlms.args.a4.toNat) ∧
    Placed wNlms 8 wNlms.args.a7.toNat (8 * wNlms.args.a4.toNat) ∧
    Placed wNlms (elemAlign .real64) wNlms.args.a2.toNat (elemBytes .real64 * wNlms.args.a1.toNat) ∧
    Placed wNlms (elemAlign .real64) wNlms.args.a3.toNat (elemBytes .real64 * wNlms.args.a1.toNat) ∧
    Apart wNlms.args.a0.toNat (8 * wNlms.args.a4.toNat) wNlms.args.a7.toNat (8 * wNlms.args.a4.toNat) ∧
    Apart wNlms.args.a0.toNat (8 * wNlms.args.a4.toNat) wNlms.args.a2.toNat (elemBytes .real64 * wNlms.args.a1.toNat) ∧
    Apart wNlms.args.a0.toNat (8 * wNlms.args.a4.toNat) wNlms.args.a3.toNat (elemBytes .real64 * wNlms.args.a1.toNat) ∧
    Apart wNlms.args.a7.toNat (8 * wNlms.args.a4.toNat) wNlms.args.a2.toNat (elemBytes .real64 * wNlms.args.a1.toNat) ∧
    Apart wNlms.args.a7.toNat (8 * wNlms.args.a4.toNat) wNlms.args.a3.toNat (elemBytes .real64 * wNlms.args.a1.toNat) := by
  decide +kernel

theorem witness_DelayLineHoldsNewestFirst : [Config.one].length = [Config.ten].length ∧ 0 < 2 ∧ 1 < 2 := by decide

/-- Sample lists and vectors of equal lengths; and a power above `NLMS_EPS`, one equal to it, and a NaN one (beta a NaN). -/
theorem witness_NlmsUpdatesOnlyAbovePower :
    [Config.one].length = [Config.ten].length ∧
    [Config.zero, Config.zero].length = [Config.zero, Config.zero].length ∧ 0 < [Config.zero, Config.zero].length ∧
    Fp.lt Config.thisHardware.nlmsEps (Fp.add Config.zero (dot [Config.one, Config.zero] [Config.one, Config.zero])) = true ∧
    Fp.lt Config.thisHardware.nlmsEps
      (Fp.add Config.thisHardware.nlmsEps (dot [Config.zero, Config.zero] [Config.zero, Config.zero])) = false ∧
    (Fp.add ⟨0x7FF8000000000000#64⟩ (dot [Config.one, Config.zero] [Config.one, Config.zero])).isNaN = true := by
  exact ⟨rfl, rfl, by decide, by decide +kernel, by decide +kernel, Fp.add_nan _ _ (.inl (by decide +kernel))⟩

/-- SCHROEDER's operand hypotheses, apart and in place. -/
theorem witness_SchroederStoresCurveOrNonfinite :
    (∀ s ∈ [wSchroeder 0x100 0x3FF0000000000000, wSchroeder 0 0x3FF0000000000000, wSchroeder 0x100 0x7FF0000000000000,
        wSchroeder 0x100 0x7FE0000000000000],
      s.args.a1.toNat < 2 ^ 32 ∧ 0 < s.args.a1.toNat ∧ Placed s 8 s.args.a0.toNat (8 * s.args.a1.toNat) ∧
      Placed s (elemAlign .real64) s.args.a2.toNat (elemBytes .real64 * s.args.a1.toNat) ∧
      (Apart s.args.a0.toNat (8 * s.args.a1.toNat) s.args.a2.toNat (elemBytes .real64 * s.args.a1.toNat) ∨
        (Fmt.real64 = Fmt.real64 ∧ s.args.a0.toNat = s.args.a2.toNat))) ∧
    (∀ s ∈ [wSchroeder 0x100 0x3FF0000000000000, wSchroeder 0 0x3FF0000000000000],
      (∀ v ∈ readReals Config.thisHardware .real64 s.dmem 0 1, v.isFinite = true) ∧ (totalEnergy (readReals Config.thisHardware .real64 s.dmem 0 1)).isFinite = true) ∧
    (∃ v ∈ readReals Config.thisHardware .real64 (wSchroeder 0x100 0x7FF0000000000000).dmem 0 1, v.isFinite = false) ∧
    (totalEnergy (readReals Config.thisHardware .real64 (wSchroeder 0x100 0x7FE0000000000000).dmem 0 1)).isInf = true := by
  refine ⟨by decide +kernel, by decide +kernel, by decide +kernel, by decide +kernel⟩

theorem witness_EnergiesNeverIncrease : (∀ v ∈ [Config.one, Config.ten], v.isFinite = true) ∧ 0 + 1 < [Config.one, Config.ten].length := by
  decide +kernel

theorem witness_DecayCurveCorners :
    0 < [Config.zero].length ∧ (∀ v ∈ [Config.zero], v.isZero = true) ∧
    (Config.one.isFinite = true ∧ Config.one.isZero = false) := by decide +kernel

/-- The operand hypotheses of DECAY_FIT on the two-point curve −5, −15, whose window is found with a decaying fit. -/
theorem witness_DecayFitReportsTimes :
    let s := wDecay 0xC014000000000000 0xC02E000000000000
    let sdb : F64 := ⟨s.args.a4⟩
    let edb : F64 := ⟨s.args.a5⟩
    let p := regressionSums s.args.a3.toNat (readReals Config.thisHardware .real64 s.dmem s.args.a2.toNat s.args.a1.toNat) 0 1
    (0 < s.args.a1.toNat ∧ s.args.a1.toNat < 2 ^ 32 ∧ 0 < s.args.a3.toNat ∧ s.args.a3.toNat < 2 ^ 32 ∧
      sdb.isFinite = true ∧ edb.isFinite = true ∧ edb.units < sdb.units ∧ Placed s 8 s.args.a2.toNat (8 * s.args.a1.toNat)) ∧
    WindowFound (readReal Config.thisHardware .real64 s.dmem s.args.a2.toNat) s.args.a1.toNat sdb edb 0 1 ∧
    Fp.lt (Fp.abs (denominator (Fp.ofNat (1 - 0 + 1)) p)) s.config.singEps = false ∧
    Fp.lt (slope (Fp.ofNat (1 - 0 + 1)) p) Config.zero = true := by
  refine ⟨by decide +kernel, ⟨by decide, by decide +kernel, by decide +kernel, by omega, by decide +kernel, by omega⟩,
    by decide +kernel, by decide +kernel⟩

/-- DECAY_FIT on the three curve values −15, 0, −15: the window is all three, and the slope 0. -/
def wFlat : State := started .decayFit (argsOf 0 3 0 1000 0xC014000000000000 0xC02E000000000000 0 0)
  (words 0 [0xC02E000000000000, 0, 0xC02E000000000000])

/-- No start (0, 0); a start and no end (−5, −6); −5, −15 with a threshold the denominator is below; and −15, 0, −15, whose
slope is 0. -/
theorem witness_DecayFitReportsSentinels :
    (∀ i, i < 2 → ¬ (Fp.le ⟨0xC02E000000000000#64⟩ (readReal Config.thisHardware .real64 (wDecay 0 0).dmem 0 i) = true ∧
      Fp.le (readReal Config.thisHardware .real64 (wDecay 0 0).dmem 0 i) ⟨0xC014000000000000#64⟩ = true)) ∧
    (Fp.le ⟨0xC02E000000000000#64⟩ (readReal Config.thisHardware .real64 (wDecay 0xC014000000000000 0xC018000000000000).dmem 0 0) = true ∧
      Fp.le (readReal Config.thisHardware .real64 (wDecay 0xC014000000000000 0xC018000000000000).dmem 0 0) ⟨0xC014000000000000#64⟩ = true ∧
      Fp.le (readReal Config.thisHardware .real64 (wDecay 0xC014000000000000 0xC018000000000000).dmem 0 1) ⟨0xC02E000000000000#64⟩ = false) ∧
    (WindowFound (readReal Config.thisHardware .real64 (wDecay 0xC014000000000000 0xC02E000000000000).dmem 0) 2 ⟨0xC014000000000000#64⟩
        ⟨0xC02E000000000000#64⟩ 0 1 ∧
      Fp.lt (Fp.abs (denominator (Fp.ofNat 2)
        (regressionSums 1000 (readReals Config.thisHardware .real64 (wDecay 0xC014000000000000 0xC02E000000000000).dmem 0 2) 0 1)))
        Config.one = true) ∧
    (WindowFound (readReal Config.thisHardware .real64 wFlat.dmem 0) 3 ⟨0xC014000000000000#64⟩ ⟨0xC02E000000000000#64⟩ 0 2 ∧
      Fp.lt (slope (Fp.ofNat 3) (regressionSums 1000 (readReals Config.thisHardware .real64 wFlat.dmem 0 3) 0 2)) Config.zero = false) := by
  refine ⟨by decide +kernel, by decide +kernel, ⟨⟨by decide, by decide, by decide +kernel, by omega, by decide +kernel, by omega⟩,
    by decide +kernel⟩, ⟨by decide, by decide, by decide +kernel, by omega, by decide +kernel, ?_⟩, by decide +kernel⟩
  intro i h1 h2
  obtain rfl : i = 1 := by omega
  decide +kernel

theorem witness_DecayTimesOfTheStandardWindows : Config.minusOne.isFinite = true ∧ Fp.lt Config.minusOne Config.zero = true := by
  decide +kernel

theorem witness_EveryReportedTimeIsPositive :
    ∃ t, exec .decayFit (wDecay 0xC014000000000000 0xC02E000000000000) = .next t ∧ t.errCode = .ok :=
  ⟨_, exec_next _ _, by decide +kernel⟩

theorem witness_CtrlReadsAndWrites :
    (State.reset.phase = .idle ∧ (0x1#64).getLsbD 0 = true ∧ (0x2#64).getLsbD 0 = false) ∧ (wCplx .fft).phase = .busy := by decide

theorem witness_StartIsAccepted :
    State.reset.phase = .idle ∧ (0x3#64).getLsbD 0 = true ∧
    ({ State.reset with host := [.writeReg 0x08 8 0x3#64] } : State).host = .writeReg 0x08 8 0x3#64 :: [] := by decide

theorem witness_StatusReadsAndWrites : State.reset.phase = .idle ∧ (wCplx .fft).phase = .busy := by decide

/-- The first read-only offset, and the last reserved one; and a host whose next access is a read of STATUS with results
unread, of RES0 with none unread and while BUSY, or a write. -/
theorem witness_RegisterWrites :
    (State.reset.phase = .idle ∧ (wCplx .fft).phase = .busy) ∧ (0 % 8 = 0 ∧ 0 < 256) ∧
    (0x60 % 8 = 0 ∧ 0x60 < 256 ∧ 0x60 ≤ 0x60) ∧ (0x80 % 8 = 0 ∧ 0x80 ≤ 0x80) ∧ (0xF8 % 8 = 0 ∧ 0xF8 < 256 ∧ 0x80 ≤ 0xF8) ∧
    (({ State.reset with done := true, unread := unreadResults, host := [.readReg 0x10 8] } : State).engineTurn = false ∧
      0x10 % 8 = 0 ∧ 0x10 < 0x60) ∧
    (({ State.reset with host := [.readReg 0x60 8] } : State).engineTurn = false ∧ ∀ p ∈ State.reset.unread, p.res = false) ∧
    (({ wCplx .fft with delay := 1, host := [.readReg 0x60 8] } : State).engineTurn = false ∧ (wCplx .fft).phase = .busy) ∧
    ({ State.reset with host := [.writeReg 0xF8 8 1#64] } : State).engineTurn = false := by
  decide

theorem witness_IdIdentifiesConfiguration :
    State.reset.config.legal = true ∧ State.reset.config.dmemSize < 2 ^ 42 ∧ ∃ t, step State.reset = .next t :=
  ⟨by decide, by decide, State.reset, rfl⟩

theorem witness_InterruptFollowsDoneAndEnable :
    (∃ t, exec .nop (wCplx .nop) = .next t) ∧ State.reset.phase = .idle ∧ (0x2#64).getLsbD 1 = true ∧
    (0x1#64).getLsbD 1 = false ∧ (0x1#64).getLsbD 0 = true ∧ (0x2#64).getLsbD 0 = false :=
  ⟨⟨_, exec_next _ _⟩, by decide⟩

/-- The last eight bytes of DMEM, and a byte of an unread command's buffer. -/
theorem witness_HostPortReadsWhatItWrote :
    (State.reset.phase = .idle ∧ 67108856 % 8 = 0 ∧ 67108856 + 8 ≤ State.reset.config.dmemSize ∧
      ({ State.reset with host := [.writeMem 67108856 8 1#64, .readMem 67108856 8] } : State).host =
        .writeMem 67108856 8 1#64 :: .readMem 67108856 8 :: []) ∧
    ({ wCplx .fft with phase := .idle } : State).unreadByte 15 = true ∧ 15 + 1 ≤ (wCplx .fft).config.dmemSize := by
  decide +kernel

/-- The first offset past the block, the first DMEM address past the end, a DMEM access while BUSY, and, with an FFT on 0 to 15
and a NOP after it unread, reads of RES0, RES3 and the FFT's last byte. -/
theorem witness_ForbiddenAccessesAreRefused :
    (({ State.reset with host := [.readReg 256 8] } : State).engineTurn = false ∧ ¬ (8 = 8 ∧ 256 % 8 = 0 ∧ 256 < 256)) ∧
    (({ State.reset with host := [.readMem 67108864 1] } : State).engineTurn = false ∧
      ¬ ((1 = 1 ∨ 1 = 2 ∨ 1 = 4 ∨ 1 = 8) ∧ 67108864 % 1 = 0 ∧ 67108864 + 1 ≤ State.reset.config.dmemSize)) ∧
    (({ wCplx .fft with delay := 1, host := [.readMem 0 8] } : State).engineTurn = false ∧ (wCplx .fft).phase = .busy ∧
      0 % 8 = 0 ∧ 0 + 8 ≤ (wCplx .fft).config.dmemSize) ∧
    (∀ a ∈ [HostAction.readReg 0x60 8, .readReg 0x78 8, .readMem 15 1],
      ({ State.reset with done := true, unread := unreadResults, host := [a] } : State).engineTurn = false) ∧
    (∀ p ∈ unreadResults, p.res = true) ∧ (⟨1#32, Args.zero, true, []⟩ : Unread) ∈ unreadResults ∧
    (0x60 % 8 = 0 ∧ 0x78 % 8 = 0 ∧ 0x78 < 0x80 ∧ decode State.reset.config 1#32 = some .fft ∧
      commandCheck .fft { State.reset with cmd := 1#32, args := Args.zero } = none ∧
      writes .fft { State.reset with cmd := 1#32, args := Args.zero } (15 + 0) = true) := by
  decide +kernel

/-- A reset while IDLE and one while BUSY with a command that passes its checks and writes byte 15, not 16. -/
theorem witness_ResetClearsAndAbandons :
    ({ State.reset with host := [.reset] } : State).engineTurn = false ∧ State.reset.phase = .idle ∧
    ({ wCplx .fft with delay := 1, host := [.reset] } : State).engineTurn = false ∧
    decode (wCplx .fft).config (wCplx .fft).cmd = some .fft ∧ writes .fft (wCplx .fft) 16 = false ∧
    commandCheck .fft (wCplx .fft) = none ∧ writes .fft (wCplx .fft) 15 = true := by decide +kernel

/-- An FFT line; rates of 2^32 − 1; and CHECK with STATUS.ERR = 1 and 0. -/
theorem witness_AssembledFftLineStarts :
    State.reset.phase = .idle ∧
    (assembleLine false ⟨.fft, [(.buf, 8#64), (.log2n, 0#64)]⟩).isSome = true ∧ (0xFFFFFFFF#64).toNat < 2 ^ 32 ∧
    ({ State.reset with err := true, errCode := .badArg, host := [.check] } : State).engineTurn = false ∧
    (∃ t, step { State.reset with err := true, errCode := .badArg, host := [.check] } = .next t ∧ t.checkFailed = true ∧
      State.reset.checkFailed = false) ∧
    ({ State.reset with host := [.check] } : State).engineTurn = false ∧ State.reset.err = false :=
  ⟨rfl, by decide +kernel, by decide, by decide, ⟨_, rfl, by decide, by decide⟩, by decide, by decide⟩

/-- Finite operands, of an exact zero sum and difference, and a nonzero divisor. -/
theorem witness_AddAndSubRoundToNearest :
    (Config.one.isFinite = true ∧ Config.minusOne.isFinite = true) ∧ Config.zero.isFinite = true := by decide +kernel

theorem witness_MulAndDivRoundToNearest :
    Config.one.isFinite = true ∧ Config.ten.isFinite = true ∧ Config.ten.isZero = false := by decide +kernel

theorem witness_SqrtRoundsToNearest :
    Config.ten.isFinite = true ∧ Config.ten.sign = false ∧ Config.one.isFinite = true := by decide +kernel

theorem witness_ComparisonsFollowTheValues :
    (⟨0x7FF8000000000000#64⟩ : F64).isNaN = true ∧ Config.one.isFinite = true ∧ Config.ten.isFinite = true := by decide +kernel

theorem witness_InvalidOperationsGiveNaN :
    (⟨0x7FF8000000000000#64⟩ : F64).isNaN = true ∧
    (Config.minusOne.isFinite = true ∧ Config.minusOne.isZero = false ∧ Config.minusOne.sign = true) ∧
    ((Fp.inf true).isNaN = false ∧ (Fp.inf true).isZero = false) := by decide +kernel

theorem witness_ConversionsAreExactAndClamped :
    (-9007199254740991 : Int).natAbs < 2 ^ 53 ∧ 9007199254740991 < 2 ^ 53 ∧ Config.ten.isFinite = true := by decide +kernel

theorem witness_ElementaryFunctionProperties : Config.ten.isFinite = true ∧ 0 < Config.ten.toRat := by decide +kernel

end Sys2Proof.Tests
end

section
/-!
SUPPORT. The invariant `State.Inv`: what every body stores stays inside the buffers its command has checked, so DMEM keeps
its canonical form and bound; each host access keeps the invariant (10_state.md R35, R42, R47, 20_memory.md R84, R95).
-/

namespace Sys2Proof.Machine

open Sys2Proof.Fp

/-! ### The buffers a command writes are in range -/

/-- A chain of checks that passes has its later checks passed. -/
theorem rest_of_check_none {p : Prop} [Decidable p] {c : ErrCode} {x : Option ErrCode}
    (h : (if p then some c else x) = none) : x = none := by
  split at h
  · cases h
  · exact h

theorem inRange_of_bufferErrors_none {size : Nat} {bufs : List Buffer} {clash : Bool}
    (h : bufferErrors size bufs clash = none) : ∀ b ∈ bufs, b.inRange size = true :=
  ((bufferErrors_eq_none size bufs clash).mp h).2.1

/-- 60_exceptions.md R303 class (7): a command whose checks pass writes only buffers in range. -/
theorem writtenBuffers_inRange (i : Instr) (s : State) (h : commandCheck i s = none) :
    ∀ b ∈ writtenBuffers i s, b.inRange s.config.dmemSize = true := by
  cases i with
  | nop => simp [writtenBuffers]
  | fft => exact inRange_of_bufferErrors_none (rest_of_check_none h)
  | ifft => exact inRange_of_bufferErrors_none (rest_of_check_none h)
  | tspUp => exact inRange_of_bufferErrors_none (rest_of_check_none h)
  | tspDown => exact inRange_of_bufferErrors_none (rest_of_check_none h)
  | tspgen => exact inRange_of_bufferErrors_none (rest_of_check_none h)
  | load16 =>
    have hb := inRange_of_bufferErrors_none (rest_of_check_none (rest_of_check_none h))
    simp_all [writtenBuffers]
  | deconvMul =>
    have hb := inRange_of_bufferErrors_none (rest_of_check_none h)
    simp_all [writtenBuffers]
  | normq fmt =>
    have hb := inRange_of_bufferErrors_none (rest_of_check_none (rest_of_check_none h))
    simp_all [writtenBuffers]
  | deconv =>
    have hb := inRange_of_bufferErrors_none
      (rest_of_check_none (rest_of_check_none (rest_of_check_none (rest_of_check_none h))))
    simp_all [writtenBuffers]
  | nlms fmt =>
    have hb := inRange_of_bufferErrors_none (rest_of_check_none (rest_of_check_none (rest_of_check_none h)))
    simp_all [writtenBuffers]
  | schroeder fmt =>
    have hb := inRange_of_bufferErrors_none (rest_of_check_none (rest_of_check_none h))
    simp_all [writtenBuffers]
  | decayFit => simp [writtenBuffers]

/-! ### Stores into a buffer in range -/

/-- The bytes of a whole buffer in range, stored at its base, keep DMEM's form and bound. -/
theorem Memory.Good.storeBuffer {size : Nat} {m : Memory} (h : Memory.Good size m) (b : Buffer) (vs : List Byte)
    (hr : b.inRange size = true) (hl : vs.length = b.bytes) : Memory.Good size (Memory.writeBytes m b.base vs) := by
  refine h.writeBytes b.base vs ?_
  rw [Buffer.inRange_iff] at hr
  rcases hr with h0 | hr
  · left
    rw [hl, Buffer.bytes, h0, Nat.mul_zero]
  · right
    rwa [hl]

theorem Memory.Good.storeCplxs {size : Nat} {m : Memory} (h : Memory.Good size m) (b n : Nat) (zs : List Cplx)
    (hr : (⟨b, .cplx128, n⟩ : Buffer).inRange size = true) (hl : zs.length = n) : Memory.Good size (Machine.writeCplxs m b zs) :=
  h.storeBuffer ⟨b, .cplx128, n⟩ _ hr (by rw [flatMap_bytes_length _ 16 cplxBytes_length, hl]; rfl)

theorem Memory.Good.storeReals {size : Nat} {m : Memory} (h : Memory.Good size m) (b n : Nat) (xs : List F64)
    (hr : (⟨b, .real64, n⟩ : Buffer).inRange size = true) (hl : xs.length = n) : Memory.Good size (Machine.writeReals m b xs) :=
  h.storeBuffer ⟨b, .real64, n⟩ _ hr (by rw [flatMap_bytes_length _ 8 realBytes_length, hl]; rfl)

theorem Memory.Good.storePcms {size : Nat} {m : Memory} (h : Memory.Good size m) (b n : Nat) (vs : List Int)
    (hr : (⟨b, .pcm16, n⟩ : Buffer).inRange size = true) (hl : vs.length = n) : Memory.Good size (Machine.writePcms m b vs) :=
  h.storeBuffer ⟨b, .pcm16, n⟩ _ hr (by rw [flatMap_bytes_length _ 2 pcmBytes_length, hl]; rfl)

/-! ### What the bodies leave -/

theorem Memory.Good.fftCore {size : Nat} {mem : Memory} (h : Memory.Good size mem) (f : FwdSign) (b m : Nat) (inv : Bool)
    (hr : (⟨b, .cplx128, 2 ^ m⟩ : Buffer).inRange size = true) : Memory.Good size (fftCore f mem b m inv) :=
  h.storeCplxs b (2 ^ m) _ hr (by simp)

theorem Memory.Good.tspSynth {size : Nat} {mem : Memory} (h : Memory.Good size mem) (b m : Nat) (phase : Nat → F64)
    (hr : (⟨b, .cplx128, 2 ^ m⟩ : Buffer).inRange size = true) : Memory.Good size (tspSynth mem b m phase) :=
  h.storeCplxs b (2 ^ m) _ hr (by simp)

theorem Memory.Good.load16Body {size : Nat} {mem : Memory} (h : Memory.Good size mem) (c : Config) (dst n src cnt : Nat)
    (hr : (⟨dst, .cplx128, n⟩ : Buffer).inRange size = true) : Memory.Good size (load16Body c mem dst n src cnt) :=
  h.storeCplxs dst n _ hr (by simp)

theorem Memory.Good.loadResponse {size : Nat} {mem : Memory} (h : Memory.Good size mem) (c : Config)
    (wy n resp e cnt : Nat) (two : Bool) (hr : (⟨wy, .cplx128, n⟩ : Buffer).inRange size = true) :
    Memory.Good size (loadResponse c mem wy n resp e cnt two) := by
  unfold Machine.loadResponse
  split
  · exact h.load16Body c wy n _ _ hr
  · exact h.load16Body c wy n _ _ hr

theorem Memory.Good.deconvMulBody {size : Nat} {mem : Memory} (h : Memory.Good size mem) (c : Config) (z n x y g : Nat)
    (hr : (⟨z, .cplx128, n⟩ : Buffer).inRange size = true) : Memory.Good size (deconvMulBody c mem z n x y g) :=
  h.storeCplxs z n _ hr (by simp)

theorem Memory.Good.normqBody {size : Nat} {mem m : Memory} {peak : F64} (h : Memory.Good size mem) (c : Config)
    (dst n : Nat) (fmt : Fmt) (src : Nat) (hr : (⟨dst, .pcm16, n⟩ : Buffer).inRange size = true)
    (hb : normqBody c mem dst n fmt src = some (m, peak)) : Memory.Good size m := by
  rcases normqBody_cases c mem dst n fmt src with ⟨-, hn⟩ | ⟨-, hs⟩
  · rw [hn] at hb
    cases hb
  · rw [hs] at hb
    cases hb
    exact h.storePcms dst n _ hr (by simp)

/-- Part k of a work buffer of 3N elements is in range. -/
theorem inRange_workPart {size b n : Nat} (k : Nat) (hk : k < 3)
    (hr : (⟨b, .cplx128, 3 * n⟩ : Buffer).inRange size = true) :
    (⟨b + 16 * k * n, .cplx128, n⟩ : Buffer).inRange size = true := by
  rw [Buffer.inRange_iff] at hr ⊢
  simp only [Buffer.bytes, elemBytes] at hr ⊢
  interval_cases k <;> omega

theorem tspgenWorkMem_good {size : Nat} (s : State) (h : Memory.Good size s.dmem)
    (hr : s.tspgenWork.inRange size = true) : Memory.Good size (tspgenWorkMem s) :=
  (h.tspSynth _ _ _ hr).fftCore _ _ _ _ hr

theorem deconvWorkMem_good {size : Nat} (s : State) (h : Memory.Good size s.dmem)
    (hr : s.deconvWork.inRange size = true) : Memory.Good size (deconvWorkMem s) := by
  have hx : (⟨s.args.a6.toNat, .cplx128, s.deconvSize⟩ : Buffer).inRange size = true := by
    simpa using inRange_workPart 0 (by norm_num) hr
  have hy : (⟨s.args.a6.toNat + 16 * s.deconvSize, .cplx128, s.deconvSize⟩ : Buffer).inRange size = true :=
    inRange_workPart 1 (by norm_num) hr
  have hg : (⟨s.args.a6.toNat + 32 * s.deconvSize, .cplx128, s.deconvSize⟩ : Buffer).inRange size = true :=
    inRange_workPart 2 (by norm_num) hr
  have hloaded := (h.load16Body s.config _ _ s.args.a2.toNat s.excCount hx).loadResponse s.config _ _ s.args.a4.toNat
    s.excCount s.respCount s.twoPeriod hy
  have hspectra := ((hloaded.fftCore s.config.fwdSign _ _ false hx).fftCore s.config.fwdSign _ _ false hy).tspSynth _ _
    (phiDown s.deconvSize (s.excCount / 2)) hg
  exact (hspectra.deconvMulBody s.config _ _ _ _ _ hy).fftCore s.config.fwdSign _ _ true hy

/-- DECAY_FIT writes RES registers only (44_decay.md R268, R269). -/
theorem decayFitFinish_dmem (s : State) : (decayFitFinish s).dmem = s.dmem := by
  fun_cases decayFitFinish s with
  | case1 => rfl
  | case2 => rfl
  | case3 => rfl
  | case4 => rfl

/-- A command whose checks pass leaves DMEM canonical and inside DMEM_SIZE. -/
theorem commandFinish_good (i : Instr) (s : State) (h : Memory.Good s.config.dmemSize s.dmem)
    (hc : commandCheck i s = none) : Memory.Good s.config.dmemSize (commandFinish i s).dmem := by
  have hw := writtenBuffers_inRange i s hc
  cases i with
  | nop => exact h
  | fft => exact h.fftCore _ _ _ _ (hw _ (by simp [writtenBuffers, State.fftBuf, State.points]))
  | ifft => exact h.fftCore _ _ _ _ (hw _ (by simp [writtenBuffers, State.fftBuf, State.points]))
  | tspUp => exact h.tspSynth _ _ _ (hw _ (by simp [writtenBuffers, State.fftBuf, State.points]))
  | tspDown => exact h.tspSynth _ _ _ (hw _ (by simp [writtenBuffers, State.fftBuf, State.points]))
  | tspgen =>
    have hwork := tspgenWorkMem_good s h (hw _ (by simp [writtenBuffers]))
    simp only [commandFinish, tspgenFinish]
    split
    · exact hwork
    next hb => exact hwork.normqBody _ _ _ _ _ (hw s.tspgenDst (by simp [writtenBuffers])) hb
  | load16 => exact h.load16Body _ _ _ _ _ (hw _ (by simp [writtenBuffers, State.fftBuf]))
  | deconvMul => exact h.deconvMulBody _ _ _ _ _ _ (hw _ (by simp [writtenBuffers, State.fftBuf]))
  | normq fmt =>
    simp only [commandFinish, normqFinish]
    split
    · exact h
    next hb => exact h.normqBody _ _ _ _ _ (hw s.normqDst (by simp [writtenBuffers])) hb
  | deconv =>
    have hwork := deconvWorkMem_good s h (hw _ (by simp [writtenBuffers]))
    simp only [commandFinish, deconvFinish]
    split
    · exact hwork
    next hb => exact hwork.normqBody _ _ _ _ _ (hw s.deconvDst (by simp [writtenBuffers])) hb
  | nlms fmt =>
    have hlf : 0 < s.args.a4.toNat := by
      have h3 := rest_of_check_none (rest_of_check_none hc)
      by_contra h0
      simp [show s.args.a4.toNat = 0 by omega] at h3
    obtain ⟨hh, hx⟩ := nlmsRun_length s.config.nlmsEps (f64bits s.args.a5) (f64bits s.args.a6) s.args.a4.toNat
      (readReals s.config fmt s.dmem s.args.a2.toNat s.args.a1.toNat)
      (readReals s.config fmt s.dmem s.args.a3.toNat s.args.a1.toNat) hlf
    exact (h.storeReals _ _ _ (hw s.nlmsH (by simp [writtenBuffers])) hh).storeReals _ _ _
      (hw s.nlmsLine (by simp [writtenBuffers])) hx
  | schroeder fmt =>
    simp only [commandFinish, schroederFinish]
    split
    · exact h
    · split
      · exact h
      · exact h.storeReals _ _ _ (hw s.schroederDst (by simp [writtenBuffers])) (by simp)
  | decayFit =>
    rw [commandFinish, decayFitFinish_dmem]
    exact h

/-! ### Resets -/

/-- The buffers a reset draws afresh are in range: only a running command whose checks pass has any. -/
theorem abandonedBuffers_inRange (s : State) :
    ∀ b ∈ abandonedBuffers (decode s.config s.cmd) s, b.inRange s.config.dmemSize = true := by
  unfold abandonedBuffers
  split
  · unfold outputBuffers
    split
    · split
      next hc => exact writtenBuffers_inRange _ s hc
      next => simp
    · simp
  · simp

theorem Memory.Good.scramble {size : Nat} (n : Nat) (bufs : List Buffer) {m : Memory} (h : Memory.Good size m)
    (hr : ∀ b ∈ bufs, b.inRange size = true) : Memory.Good size (scramble n bufs m) := by
  induction bufs generalizing m with
  | nil => exact h
  | cons b bufs ih =>
    exact ih (h.storeBuffer b _ (hr b List.mem_cons_self) (by simp)) fun c hc => hr c (List.mem_cons_of_mem b hc)

/-! ### The invariant -/

namespace State.Inv

variable {s : State}

theorem good (h : s.Inv) : Memory.Good s.config.dmemSize s.dmem := ⟨h.memWf, h.memBelow⟩

/-- A completion with any code and RES values keeps the invariant if the DMEM left is good (60_exceptions.md R306). -/
theorem complete (h : s.Inv) (f : Finish) (hf : Memory.Good s.config.dmemSize f.dmem) : (s.complete f).Inv where
  configLegal := h.configLegal
  memWf := hf.wf
  memBelow := hf.below
  errAgrees := rfl
  busyFresh hb := by simp at hb

theorem exec (h : s.Inv) (i : Instr) {t : State} (ht : exec i s = .next t) : t.Inv := by
  rw [exec_next] at ht
  cases ht
  refine h.complete _ ?_
  cases hc : commandCheck i s with
  | some c => exact h.good
  | none => exact commandFinish_good i s h.good hc

theorem engineStep (h : s.Inv) {t : State} (ht : engineStep s = .next t) : t.Inv := by
  unfold Machine.engineStep at ht
  split at ht
  next i _ => exact h.exec i ht
  next =>
    rw [execIllegal_eq] at ht
    cases ht
    exact h.complete _ h.good

/-- The host's own bookkeeping is outside the invariant. -/
theorem turnTaken (h : s.Inv) (host : List HostAction) (delay : Nat) :
    ({ s with host := host, delay := delay } : State).Inv :=
  ⟨h.configLegal, h.memWf, h.memBelow, h.errAgrees, h.busyFresh⟩

theorem answer (h : s.Inv) (w : Word) : (s.answer w).Inv :=
  ⟨h.configLegal, h.memWf, h.memBelow, h.errAgrees, h.busyFresh⟩

/-- A read of STATUS while BUSY reads DONE = 0, so the running command's results stay unread. -/
theorem answerStatus (h : s.Inv) : s.answerStatus.Inv where
  configLegal := h.configLegal
  memWf := h.memWf
  memBelow := h.memBelow
  errAgrees := h.errAgrees
  busyFresh hb := by
    obtain ⟨hdone, herr, hres, hop, hunread⟩ := h.busyFresh hb
    exact ⟨hdone, herr, hres, hop, by simpa [hdone] using hunread⟩

theorem hostCheck (h : s.Inv) : s.hostCheck.Inv :=
  let ha := h.answerStatus
  ⟨ha.configLegal, ha.memWf, ha.memBelow, ha.errAgrees, ha.busyFresh⟩

theorem answerRegister (h : s.Inv) (r : Reg) : (s.answerRegister r).Inv := by
  unfold State.answerRegister
  split
  · exact h.answerStatus
  · exact h.answer _

/-- START acceptance establishes what the invariant says of a running command (10_state.md R47). -/
theorem acceptStart (h : s.Inv) : s.acceptStart.Inv where
  configLegal := h.configLegal
  memWf := h.memWf
  memBelow := h.memBelow
  errAgrees := rfl
  busyFresh _ := ⟨rfl, rfl, rfl, rfl, rfl⟩

theorem writeCtrl (h : s.Inv) (v : Word) : (s.writeCtrl v).Inv := by
  have hie : ({ s with ie := v.getLsbD 1 } : State).Inv :=
    ⟨h.configLegal, h.memWf, h.memBelow, h.errAgrees, h.busyFresh⟩
  unfold State.writeCtrl
  dsimp only
  split
  · exact hie.acceptStart
  · exact hie

theorem writeStatus (h : s.Inv) (v : Word) : (s.writeStatus v).Inv := by
  unfold State.writeStatus
  split
  next hi => exact ⟨h.configLegal, h.memWf, h.memBelow, h.errAgrees, fun hb => by simp [hi.2] at hb⟩
  next => exact h

/-- A register write keeps the invariant: while BUSY it can change CTRL.IE only (10_state.md R34, R36 to R38). -/
theorem writeRegister (h : s.Inv) (r : Reg) (v : Word) : (s.writeRegister r v).Inv := by
  cases r with
  | id => exact h
  | ctrl => exact h.writeCtrl v
  | status => exact h.writeStatus v
  | cmd =>
    simp only [State.writeRegister]
    split
    next => exact h
    next hn => exact ⟨h.configLegal, h.memWf, h.memBelow, h.errAgrees, fun hb => absurd hb hn⟩
  | arg n =>
    simp only [State.writeRegister]
    split
    next => exact h
    next hn => exact ⟨h.configLegal, h.memWf, h.memBelow, h.errAgrees, fun hb => absurd hb hn⟩
  | res n => exact h
  | reserved => exact h

/-- The host port answers only while IDLE and inside DMEM (20_memory.md R86, R96). -/
theorem hostWriteMem (h : s.Inv) (addr width : Nat) (v : Word) {t : State}
    (ht : s.hostWriteMem addr width v = .next t) : t.Inv := by
  unfold State.hostWriteMem at ht
  cases hp : portRefusal s addr width with
  | some r => rw [hp] at ht; cases ht
  | none =>
    rw [hp] at ht
    cases ht
    have ⟨hok, hidle⟩ : portAccessOk s.config.dmemSize addr width = true ∧ s.phase ≠ .busy := by
      unfold portRefusal at hp
      split at hp
      · cases hp
      · split at hp
        · cases hp
        · simp_all
    have hin : addr + width ≤ s.config.dmemSize := by simp [portAccessOk] at hok; exact hok.2
    have hg := h.good.writeBytes addr (leBytes width v.toNat) (.inr (by simpa using hin))
    exact ⟨h.configLegal, hg.wf, hg.below, h.errAgrees, fun hb => absurd hb hidle⟩

theorem resetHeld (h : s.Inv) : s.resetHeld.Inv :=
  have hg := h.good.scramble s.draws _ (abandonedBuffers_inRange s)
  ⟨h.configLegal, hg.wf, hg.below, rfl, fun hb => by simp at hb⟩

theorem perform (h : s.Inv) (a : HostAction) {t : State} (ht : s.perform a = .next t) : t.Inv := by
  cases a with
  | readReg off width =>
    simp only [State.perform, State.hostReadReg] at ht
    split at ht
    · cases ht
    · split at ht
      · cases ht
      · cases ht
        exact h.answerRegister _
  | writeReg off width v =>
    simp only [State.perform, State.hostWriteReg] at ht
    split at ht
    · cases ht
      exact h.writeRegister _ v
    · cases ht
  | readMem addr width =>
    simp only [State.perform, State.hostReadMem] at ht
    split at ht
    · cases ht
    · split at ht
      · cases ht
      · cases ht
        exact h.answer _
  | writeMem addr width v => exact h.hostWriteMem addr width v ht
  | waitDone => cases ht; exact h.answerStatus
  | check => cases ht; exact h.hostCheck
  | reset => cases ht; exact h.resetHeld

theorem hostTurn (h : s.Inv) {t : State} (ht : s.hostTurn = .next t) : t.Inv := by
  unfold State.hostTurn at ht
  split at ht
  next => cases ht; exact h
  next a rest _ => exact (h.turnTaken _ _).perform a ht

theorem step (h : s.Inv) {t : State} (ht : step s = .next t) : t.Inv := by
  unfold Machine.step at ht
  split at ht
  · exact h.engineStep ht
  · exact h.hostTurn ht

end State.Inv

/-- Settles O7: the engine's turn completes a command inside its checked buffers, and each host access keeps the invariant. -/
theorem stepKeepsInvariant : Obligations.StepKeepsInvariant :=
  fun _ _ hs ht => hs.step ht

end Sys2Proof.Machine
end

section
/-!
SUPPORT. The fields of the infinities, the zeros and a negated value, and which kind a value is (00_scope.md R10).
-/

namespace Sys2Proof.Fp

@[simp] theorem inf_sign (b : Bool) : (inf b).sign = b := by cases b <;> decide
@[simp] theorem inf_isNaN (b : Bool) : (inf b).isNaN = false := by cases b <;> decide
@[simp] theorem inf_isInf (b : Bool) : (inf b).isInf = true := by cases b <;> decide
@[simp] theorem inf_isFinite (b : Bool) : (inf b).isFinite = false := by cases b <;> decide
@[simp] theorem inf_isZero (b : Bool) : (inf b).isZero = false := by cases b <;> decide
@[simp] theorem inf_magUnits (b : Bool) : (inf b).magUnits = 2 ^ 2098 := by cases b <;> decide +kernel

@[simp] theorem zeroOf_sign (b : Bool) : (zeroOf b).sign = b := by cases b <;> decide
@[simp] theorem zeroOf_isNaN (b : Bool) : (zeroOf b).isNaN = false := by cases b <;> decide
@[simp] theorem zeroOf_isInf (b : Bool) : (zeroOf b).isInf = false := by cases b <;> decide
@[simp] theorem zeroOf_isFinite (b : Bool) : (zeroOf b).isFinite = true := by cases b <;> decide
@[simp] theorem zeroOf_isZero (b : Bool) : (zeroOf b).isZero = true := by cases b <;> decide

@[simp] theorem neg_inf (b : Bool) : neg (inf b) = inf (!b) := by cases b <;> decide
@[simp] theorem neg_zeroOf (b : Bool) : neg (zeroOf b) = zeroOf (!b) := by cases b <;> decide

/-- Negation changes the sign bit and no other field (00_scope.md R10). -/
theorem neg_fields (x : F64) :
    (neg x).sign = !x.sign ∧ (neg x).expField = x.expField ∧ (neg x).frac = x.frac := by
  have hx := x.bits.isLt
  have hn := neg_toNat x
  refine ⟨?_, ?_, ?_⟩
  · rw [F64.sign, F64.sign, hn, ← decide_not, decide_eq_decide]
    omega
  · rw [F64.expField, F64.expField, hn]
    omega
  · rw [F64.frac, F64.frac, hn]
    omega

@[simp] theorem neg_sign (x : F64) : (neg x).sign = !x.sign := (neg_fields x).1
@[simp] theorem neg_isNaN (x : F64) : (neg x).isNaN = x.isNaN := by
  obtain ⟨-, he, hf⟩ := neg_fields x
  rw [F64.isNaN, F64.isNaN, he, hf]
@[simp] theorem neg_isInf (x : F64) : (neg x).isInf = x.isInf := by
  obtain ⟨-, he, hf⟩ := neg_fields x
  rw [F64.isInf, F64.isInf, he, hf]
@[simp] theorem neg_isFinite (x : F64) : (neg x).isFinite = x.isFinite := by
  obtain ⟨-, he, -⟩ := neg_fields x
  rw [F64.isFinite, F64.isFinite, he]

theorem isZero_of_magUnits_eq_zero (x : F64) (h : x.magUnits = 0) : x.isZero = true := by
  have hs : x.significand = 0 := by
    rcases Nat.mul_eq_zero.mp h with hs | hp
    · exact hs
    · exact absurd hp (Nat.two_pow_pos _).ne'
  unfold F64.significand at hs
  split at hs
  next he => simp [F64.isZero, he, hs]
  next => omega

theorem magUnits_eq_zero_iff (x : F64) : x.magUnits = 0 ↔ x.isZero = true := by
  refine ⟨isZero_of_magUnits_eq_zero x, fun h => ?_⟩
  simp only [F64.isZero, Bool.and_eq_true, beq_iff_eq] at h
  simp [F64.magUnits, F64.significand, h.1, h.2]

theorem significand_lt (x : F64) : x.significand < 2 ^ 53 := by
  have hf : x.frac < 2 ^ 52 := Nat.mod_lt _ (by norm_num)
  unfold F64.significand
  split <;> omega

/-- A finite magnitude is below the infinities'. -/
theorem magUnits_lt_inf (x : F64) (h : x.isFinite = true) : x.magUnits < 2 ^ 2098 := by
  have he : x.expField - 1 ≤ 2045 := by
    have hlt : x.expField < 2 ^ 11 := Nat.mod_lt _ (by norm_num)
    simp only [F64.isFinite, bne_iff_ne, ne_eq] at h
    omega
  have hlt : x.magUnits < 2 ^ 53 * 2 ^ (x.expField - 1) :=
    Nat.mul_lt_mul_of_pos_right (significand_lt x) (Nat.two_pow_pos _)
  rw [← pow_add] at hlt
  exact lt_of_lt_of_le hlt (Nat.pow_le_pow_right (by norm_num) (by omega))

end Sys2Proof.Fp
end

section
/-!
SUPPORT. Correct rounding (00_scope.md R10): `round` gives the binary64 nearest to an exact magnitude, ties to even, and
an infinity from half a spacing above the largest finite value. The integer it rounds need not be the exact magnitude: it
is enough that it stands on the same side of every half step (a quotient or a root cut off, with a bit for the remainder).
-/

namespace Sys2Proof.Fp

/-! ### The integer that stands for an exact value -/

/-- m compares to every multiple of half of 2^d as x does, so both are rounded to the same multiple of 2^d. -/
def StandsFor {K : Type} [Field K] [LinearOrder K] (m : Nat) (x : K) (d : Nat) : Prop :=
  ∀ c : ℤ, (c * 2 ^ d ≤ 2 * (m : ℤ) ↔ (c : K) * 2 ^ d ≤ 2 * x) ∧ (2 * (m : ℤ) ≤ c * 2 ^ d ↔ 2 * x ≤ (c : K) * 2 ^ d)

section
variable {K : Type} [Field K] [LinearOrder K] [IsStrictOrderedRing K]

theorem StandsFor.self (m d : Nat) : StandsFor m (m : K) d := fun c => by
  constructor <;> exact_mod_cast Iff.rfl

theorem StandsFor.of_eq {m : Nat} {x : K} (d : Nat) (h : x = m) : StandsFor m x d := h ▸ StandsFor.self m d

/-- What `rneShift` makes of m is x rounded to a multiple of 2^d: within half of it, and even at exactly half. -/
theorem StandsFor.rneShift {m : Nat} {x : K} {d : Nat} (h : StandsFor m x d) :
    |(rneShift m d : K) * 2 ^ d - x| ≤ 2 ^ d / 2 ∧
      (|(rneShift m d : K) * 2 ^ d - x| = 2 ^ d / 2 → Fp.rneShift m d % 2 = 0) := by
  obtain ⟨hlo, hhi, heven⟩ := rneShift_spec m d
  generalize Fp.rneShift m d = q at *
  obtain ⟨aboveGe, aboveLe⟩ := h (2 * q + 1)
  obtain ⟨belowLe, belowGe⟩ := h (2 * q - 1)
  push_cast at aboveGe aboveLe belowLe belowGe
  have hlo' : (2 : ℤ) * m ≤ (2 * q + 1) * 2 ^ d := by
    have : (2 : ℤ) * m ≤ 2 * (q * 2 ^ d) + 2 ^ d := by exact_mod_cast hlo
    linarith
  have hhi' : (2 * q - 1) * 2 ^ d ≤ 2 * (m : ℤ) := by
    have : (2 : ℤ) * (q * 2 ^ d) ≤ 2 * m + 2 ^ d := by exact_mod_cast hhi
    linarith
  have hup := aboveLe.mp hlo'
  have hdown := belowLe.mp hhi'
  constructor
  · rw [abs_le]
    constructor <;> linarith
  · intro htie
    apply heven
    rcases eq_or_eq_neg_of_abs_eq htie with ht | ht
    · right
      have := belowGe.mpr (by linarith)
      have : (2 : ℤ) * (q * 2 ^ d) = 2 * m + 2 ^ d := by linarith
      exact_mod_cast this
    · left
      have := aboveGe.mpr (by linarith)
      have : (2 : ℤ) * m = 2 * (q * 2 ^ d) + 2 ^ d := by linarith
      exact_mod_cast this

/-- A multiple of P within half of it from y is a nearest one, and at exactly half where another is as near. -/
theorem nearest_multiple {y P : K} {q : ℤ} (h : |(q : K) * P - y| ≤ P / 2) (c : ℤ) :
    |(q : K) * P - y| ≤ |(c : K) * P - y| ∧
      (c ≠ q → |(q : K) * P - y| = |(c : K) * P - y| → |(q : K) * P - y| = P / 2) := by
  have hP : 0 ≤ P := by linarith [abs_nonneg ((q : K) * P - y)]
  by_cases hc : c = q
  · subst hc
    exact ⟨le_rfl, fun hn => absurd rfl hn⟩
  · have h1 : (1 : K) ≤ |(c : K) - q| := by exact_mod_cast Int.one_le_abs (sub_ne_zero.mpr hc)
    have hfar : P ≤ |(c : K) * P - q * P| := by
      rw [← sub_mul, abs_mul, abs_of_nonneg hP]
      nlinarith
    have htri : |(c : K) * P - q * P| ≤ |(c : K) * P - y| + |(q : K) * P - y| := by
      rw [abs_sub_comm (q * P : K) y]
      exact abs_sub_le _ _ _
    exact ⟨by linarith, fun _ he => by linarith⟩

end

/-- An odd number strictly within one of x is on the same side as x of every even number, so of every half step. -/
theorem StandsFor.of_between {q : Nat} {x : ℝ} {d : Nat} (hd : 2 ≤ d) (h0 : 2 * (q : ℝ) < x) (h1 : x < 2 * q + 2) :
    StandsFor (2 * q + 1) x d := by
  intro c
  obtain ⟨e, rfl⟩ := Nat.exists_eq_add_of_le hd
  have hc : c * 2 ^ (2 + e) = 4 * (c * 2 ^ e) := by ring
  have hcr : (c : ℝ) * 2 ^ (2 + e) = 4 * ((c * 2 ^ e : ℤ) : ℝ) := by push_cast; ring
  rw [hc, hcr]
  generalize c * 2 ^ e = g
  push_cast
  refine ⟨⟨fun h => ?_, fun h => ?_⟩, fun h => ?_, fun h => ?_⟩
  · have : (g : ℝ) ≤ q := by exact_mod_cast (show g ≤ q by omega)
    linarith
  · have : (g : ℝ) < q + 1 := by linarith
    have : g < q + 1 := by exact_mod_cast this
    omega
  · have : (q : ℝ) + 1 ≤ g := by exact_mod_cast (show (q : ℤ) + 1 ≤ g by omega)
    linarith
  · have : (q : ℝ) < g := by linarith
    have : (q : ℤ) < g := by exact_mod_cast this
    omega

/-- A value cut off to q below a bit that says whether anything was cut. -/
theorem StandsFor.of_cut {q : Nat} {x : ℝ} {d : Nat} {isExact : Prop} [Decidable isExact] (hd : 2 ≤ d)
    (he : isExact → x = q) (h0 : ¬ isExact → (q : ℝ) < x) (h1 : x < q + 1) :
    StandsFor (2 * q + if isExact then 0 else 1) (2 * x) d := by
  split
  next h => exact StandsFor.of_eq d (by rw [he h]; push_cast; ring)
  next h => exact StandsFor.of_between hd (by linarith [h0 h]) (by linarith)

theorem StandsFor.shift {m : Nat} {x : ℝ} {d : Nat} (h : StandsFor m x d) (j : Nat) :
    StandsFor (m * 2 ^ j) (x * 2 ^ j) (d + j) := by
  intro c
  have hj : (0 : ℤ) < 2 ^ j := by positivity
  have hjr : (0 : ℝ) < 2 ^ j := by positivity
  obtain ⟨h1, h2⟩ := h c
  push_cast
  rw [pow_add, pow_add, ← mul_assoc, ← mul_assoc, ← mul_assoc, ← mul_assoc, mul_le_mul_iff_left₀ hj, mul_le_mul_iff_left₀ hj,
    mul_le_mul_iff_left₀ hjr, mul_le_mul_iff_left₀ hjr]
  exact ⟨h1, h2⟩

/-! ### The nearest value -/

/-- The significand `round` makes of m / 2^k units; times 2^`spacingLog m k` it is the rounded unit count. -/
def roundedSig (m k : Nat) : Nat := rneShift m (k + spacingLog m k)

theorem roundedSig_bounds (m k : Nat) : roundedSig m k ≤ 2 ^ 53 ∧ (0 < spacingLog m k → 2 ^ 52 ≤ roundedSig m k) :=
  rneShift_bounds m k

section
variable {m k : Nat} {y : ℝ} (h : StandsFor m (y * 2 ^ k) (k + spacingLog m k))
include h

/-- The rounded significand times its spacing is within half a spacing of y, and even at exactly half. -/
theorem roundedSig_close :
    |(roundedSig m k : ℝ) * 2 ^ spacingLog m k - y| ≤ 2 ^ spacingLog m k / 2 ∧
      (|(roundedSig m k : ℝ) * 2 ^ spacingLog m k - y| = 2 ^ spacingLog m k / 2 →
        roundedSig m k % 2 = 0) := by
  obtain ⟨hle, heq⟩ := h.rneShift
  rw [← roundedSig] at hle heq
  generalize roundedSig m k = q at *
  generalize spacingLog m k = p at *
  have hk : (0 : ℝ) < 2 ^ k := by positivity
  have hscale : |(q : ℝ) * 2 ^ (k + p) - y * 2 ^ k| = |(q : ℝ) * 2 ^ p - y| * 2 ^ k := by
    rw [← abs_of_pos hk, ← abs_mul, abs_of_pos hk]
    ring_nf
  have hhalf : (2 : ℝ) ^ (k + p) / 2 = 2 ^ p / 2 * 2 ^ k := by ring
  rw [hscale, hhalf] at hle heq
  exact ⟨le_of_mul_le_mul_right hle hk, fun he => heq (by rw [he])⟩

/-- Above the least spacing the value has at least 53 significant bits. -/
theorem le_of_spacingLog_pos (hp : 0 < spacingLog m k) : (2 : ℝ) ^ 52 * 2 ^ spacingLog m k ≤ y := by
  have hm : m ≠ 0 := by
    rintro rfl
    simp [spacingLog] at hp
  have hlo : 2 ^ (52 + (k + spacingLog m k)) ≤ m := by
    refine le_trans (Nat.pow_le_pow_right (by norm_num) ?_) (Nat.log2_self_le hm)
    unfold spacingLog at *
    omega
  obtain ⟨hc, -⟩ := h (2 ^ 53)
  have hint : (2 ^ 53 : ℤ) * 2 ^ (k + spacingLog m k) ≤ 2 * m := by
    have : (2 : ℤ) ^ (52 + (k + spacingLog m k)) ≤ m := by exact_mod_cast hlo
    rw [pow_add] at this
    linarith
  have hy := hc.mp hint
  have hk : (0 : ℝ) < 2 ^ k := by positivity
  push_cast at hy
  rw [pow_add] at hy
  refine le_of_mul_le_mul_right ?_ hk
  linarith

/-- No value on the grid of binary64 is nearer to y than the rounded one, and an equally near one leaves it even. -/
theorem roundedSig_nearest (w : ℤ) (hgrid : 2 ^ (52 + spacingLog m k) ≤ w.natAbs → 2 ^ spacingLog m k ∣ w.natAbs) :
    |(roundedSig m k : ℝ) * 2 ^ spacingLog m k - y| ≤ |(w : ℝ) - y| ∧
      ((w : ℝ) ≠ roundedSig m k * 2 ^ spacingLog m k →
        |(roundedSig m k : ℝ) * 2 ^ spacingLog m k - y| = |(w : ℝ) - y| →
        roundedSig m k % 2 = 0) := by
  obtain ⟨hclose, heven⟩ := roundedSig_close h
  have hbig := le_of_spacingLog_pos h
  generalize roundedSig m k = q at *
  generalize spacingLog m k = p at *
  have hnear := nearest_multiple (q := q) hclose
  by_cases hdvd : (2 : ℤ) ^ p ∣ w
  · obtain ⟨c, rfl⟩ := hdvd
    obtain ⟨hle, htie⟩ := hnear c
    push_cast at hle htie ⊢
    rw [mul_comm ((2 : ℝ) ^ p)]
    exact ⟨hle, fun hne he => heven (htie (by rintro rfl; exact hne (by push_cast; rfl)) he)⟩
  · have hp : 0 < p := by
      by_contra h0
      exact hdvd (by simp [Nat.eq_zero_of_not_pos h0])
    have hw : w.natAbs < 2 ^ (52 + p) := by
      by_contra hge
      refine hdvd (Int.natAbs_dvd_natAbs.mp ?_)
      simpa [Int.natAbs_pow] using hgrid (not_lt.mp hge)
    have hwr : (w : ℝ) < 2 ^ 52 * 2 ^ p := by
      have habs : (w.natAbs : ℤ) < 2 ^ (52 + p) := by exact_mod_cast hw
      rw [← pow_add]
      exact_mod_cast lt_of_le_of_lt Int.le_natAbs habs
    have hy := hbig hp
    obtain ⟨hle, -⟩ := hnear (2 ^ 52)
    simp only [Int.cast_natCast, Int.cast_pow, Int.cast_ofNat] at hle
    rw [abs_of_nonpos (show (2 : ℝ) ^ 52 * 2 ^ p - y ≤ 0 by linarith)] at hle
    rw [abs_of_neg (show (w : ℝ) - y < 0 by linarith)]
    exact ⟨by linarith, fun _ he => by linarith⟩

/-- A finite result stays below half a spacing above the largest finite value; there the tie goes to infinity. -/
theorem lt_of_round_finite (hfin : spacingLog m k * 2 ^ 52 + roundedSig m k < 2047 * 2 ^ 52) :
    y < (2 ^ 54 - 1) * 2 ^ 2044 := by
  obtain ⟨hq, hq'⟩ := roundedSig_bounds m k
  obtain ⟨hclose, heven⟩ := roundedSig_close h
  generalize roundedSig m k = q at *
  generalize spacingLog m k = p at *
  rcases Nat.lt_or_ge p 2045 with hp | hp
  · have hP : (2 : ℝ) ^ p ≤ 2 ^ 2044 := pow_le_pow_right₀ (by norm_num) (by omega)
    have hqr : (q : ℝ) ≤ 2 ^ 53 := by exact_mod_cast hq
    have hy : y ≤ (q + 1 / 2) * 2 ^ p := by linarith [(abs_le.mp hclose).1]
    have hT : (0 : ℝ) < 2 ^ 2044 := by positivity
    have hle : ((q : ℝ) + 1 / 2) * 2 ^ p ≤ (2 ^ 53 + 1 / 2) * 2 ^ 2044 := by gcongr
    generalize (2 : ℝ) ^ 2044 = T at *
    linarith
  · obtain rfl : p = 2045 := by
      by_contra hne
      have := hq' (by omega)
      omega
    have hT : (0 : ℝ) < 2 ^ 2044 := by positivity
    rw [show (2 : ℝ) ^ 2045 = 2 * 2 ^ 2044 from pow_succ' 2 2044] at hclose heven
    generalize (2 : ℝ) ^ 2044 = T at *
    by_contra hge
    have hqr : (q : ℝ) + 1 ≤ 2 ^ 53 := by exact_mod_cast (show q + 1 ≤ 2 ^ 53 by omega)
    have hqT : ((q : ℝ) + 1) * T ≤ 2 ^ 53 * T := by gcongr
    have hlo := (abs_le.mp hclose).1
    have hqge : (2 ^ 53 : ℝ) ≤ q + 1 := le_of_mul_le_mul_right (by linarith) hT
    have hqn : 2 ^ 53 ≤ q + 1 := by exact_mod_cast hqge
    have hqm : ((q : ℝ) + 1) * T = 2 ^ 53 * T := le_antisymm hqT (by gcongr)
    have := heven (by rw [abs_of_nonpos (by linarith)]; linarith)
    omega

/-- An infinite result comes only from half a spacing above the largest finite value on. -/
theorem le_of_round_infinite (hinf : 2047 * 2 ^ 52 ≤ spacingLog m k * 2 ^ 52 + roundedSig m k) :
    (2 ^ 54 - 1) * 2 ^ 2044 ≤ y := by
  obtain ⟨hq, -⟩ := roundedSig_bounds m k
  obtain ⟨hclose, -⟩ := roundedSig_close h
  have hbig := le_of_spacingLog_pos h
  generalize roundedSig m k = q at *
  generalize spacingLog m k = p at *
  have hT : (0 : ℝ) < 2 ^ 2044 := by positivity
  rcases Nat.lt_or_ge p 2046 with hp | hp
  · obtain rfl : p = 2045 := by omega
    obtain rfl : q = 2 ^ 53 := by omega
    rw [show (2 : ℝ) ^ 2045 = 2 * 2 ^ 2044 from pow_succ' 2 2044] at hclose
    generalize (2 : ℝ) ^ 2044 = T at *
    have hup := (abs_le.mp hclose).2
    push_cast at hup
    linarith
  · have hP : (2 : ℝ) ^ 2046 ≤ 2 ^ p := pow_le_pow_right₀ (by norm_num) hp
    have hy := hbig (by omega)
    rw [show (2 : ℝ) ^ 2046 = 4 * 2 ^ 2044 by rw [pow_add _ 2044 2]; ring] at hP
    generalize (2 : ℝ) ^ 2044 = T at *
    linarith

end

/-! ### `round` is correct -/

/-- r is v rounded to nearest, ties to even (`RoundsTo` but for the sign of a zero), for a real v. -/
def Nearest (v : ℝ) (r : F64) : Prop :=
  (r.isFinite = true ∧ |v| < 2 ^ 1024 - 2 ^ 970 ∧
    ∀ z : F64, z.isFinite = true → |val r - v| ≤ |val z - v| ∧
      (val z ≠ val r → |val r - v| = |val z - v| → r.bits.toNat % 2 = 0)) ∨
  (r.isInf = true ∧ 2 ^ 1024 - 2 ^ 970 ≤ |v|)

/-- The factor of a sign. -/
def signFactor (neg : Bool) : ℤ := if neg then -1 else 1

theorem signFactor_mul_self (neg : Bool) : signFactor neg * signFactor neg = 1 := by cases neg <;> rfl

theorem signFactor_ne_zero (neg : Bool) : signFactor neg ≠ 0 := by cases neg <;> decide

theorem signFactor_bne (a b : Bool) : signFactor (a != b) = signFactor a * signFactor b := by cases a <;> cases b <;> rfl

theorem abs_signFactor (neg : Bool) : |(signFactor neg : ℝ)| = 1 := by cases neg <;> simp [signFactor]

theorem units_eq (x : F64) : x.units = signFactor x.sign * x.magUnits := by
  unfold F64.units signFactor
  cases x.sign <;> simp

theorem natAbs_units (x : F64) : x.units.natAbs = x.magUnits := by
  unfold F64.units
  cases x.sign <;> simp

theorem natAbs_signFactor_mul_units (neg : Bool) (z : F64) : (signFactor neg * z.units).natAbs = z.magUnits := by
  rw [← natAbs_units z]
  cases neg <;> simp [signFactor]

/-- The distance of a value from the magnitude y with a sign, in units of 2^-1074. -/
theorem abs_val_sub_signed (neg : Bool) (z : F64) (y : ℝ) :
    |val z - signFactor neg * y / 2 ^ 1074| = |((signFactor neg * z.units : ℤ) : ℝ) - y| / 2 ^ 1074 := by
  have hs : (signFactor neg : ℝ) * signFactor neg = 1 := by exact_mod_cast signFactor_mul_self neg
  have hU : (0 : ℝ) < 2 ^ 1074 := by positivity
  rw [val_units, ← sub_div, abs_div, abs_of_pos hU]
  congr 1
  calc |(z.units : ℝ) - signFactor neg * y|
      = |(signFactor neg : ℝ)| * |(z.units : ℝ) - signFactor neg * y| := by rw [abs_signFactor, one_mul]
    _ = |((signFactor neg * z.units : ℤ) : ℝ) - y| := by
      rw [← abs_mul, mul_sub, ← mul_assoc, hs, one_mul, Int.cast_mul]

theorem round_eq_inf (neg : Bool) {m k : Nat}
    (h : 2047 * 2 ^ 52 ≤ spacingLog m k * 2 ^ 52 + roundedSig m k) : round neg m k = inf neg := if_pos h

theorem round_eq_ofFields (neg : Bool) {m k : Nat}
    (h : spacingLog m k * 2 ^ 52 + roundedSig m k < 2047 * 2 ^ 52) :
    round neg m k = ⟨BitVec.ofNat 64 ((if neg then 2 ^ 63 else 0) +
      (spacingLog m k * 2 ^ 52 + roundedSig m k))⟩ := if_neg (not_le.mpr h)

/-- A finite result is one whose pattern stays below the infinity's. -/
theorem lt_of_isFinite_round {neg : Bool} {m k : Nat} (h : (round neg m k).isFinite = true) :
    spacingLog m k * 2 ^ 52 + roundedSig m k < 2047 * 2 ^ 52 := by
  by_contra hge
  rw [round_eq_inf neg (not_lt.mp hge), inf_isFinite] at h
  cases h

/-- The pattern's last bit is the rounded significand's. -/
theorem round_bits_parity {neg : Bool} {m k : Nat} (h : (round neg m k).isFinite = true) :
    (round neg m k).bits.toNat % 2 = roundedSig m k % 2 := by
  rw [round_eq_ofFields neg (lt_of_isFinite_round h), BitVec.toNat_ofNat]
  generalize roundedSig m k = q
  generalize spacingLog m k = p
  have hs : (if neg then 2 ^ 63 else 0) % 2 = 0 := by cases neg <;> rfl
  omega

theorem round_sign (neg : Bool) (m k : Nat) : (round neg m k).sign = neg := by
  rcases round_cases neg m k with ⟨-, hs, -⟩ | ⟨he, -⟩
  · exact hs
  · rw [he, inf_sign]

theorem maxFinite_bound : (2 ^ 1024 - 2 ^ 970 : ℝ) * 2 ^ 1074 = (2 ^ 54 - 1) * 2 ^ 2044 := by
  rw [show (2044 : ℕ) = 970 + 1074 by norm_num, pow_add, show (2 : ℝ) ^ 1024 = 2 ^ 54 * 2 ^ 970 by rw [← pow_add]]
  ring

/-- `round` of an integer that stands for the magnitude y units is the correctly rounded value of y units, with its sign. -/
theorem round_nearest (neg : Bool) {m k : Nat} {y : ℝ} (hy : 0 ≤ y)
    (h : StandsFor m (y * 2 ^ k) (k + spacingLog m k)) :
    Nearest (signFactor neg * y / 2 ^ 1074) (round neg m k) := by
  have hU : (0 : ℝ) < 2 ^ 1074 := by positivity
  have habs : |signFactor neg * y / 2 ^ 1074| = y / 2 ^ 1074 := by
    rw [abs_div, abs_mul, abs_signFactor, one_mul, abs_of_nonneg hy, abs_of_pos hU]
  have hcases := round_cases neg m k
  unfold Nearest
  rw [habs, div_lt_iff₀ hU, le_div_iff₀ hU, maxFinite_bound]
  rcases hcases with ⟨hfin, hsign, hmag⟩ | ⟨heq, hinf⟩
  · left
    have hr : signFactor neg * (round neg m k).units = roundedSig m k * 2 ^ spacingLog m k := by
      rw [units_eq, hsign, ← mul_assoc, signFactor_mul_self, one_mul, hmag]
      push_cast
      rfl
    refine ⟨hfin, lt_of_round_finite h (lt_of_isFinite_round hfin), fun z _ => ?_⟩
    obtain ⟨hle, htie⟩ := roundedSig_nearest h (signFactor neg * z.units) fun hge => by
      rw [natAbs_signFactor_mul_units] at hge ⊢
      exact magUnits_grid z _ hge
    rw [abs_val_sub_signed, abs_val_sub_signed, hr, round_bits_parity hfin]
    push_cast
    push_cast at hle htie
    refine ⟨div_le_div_of_nonneg_right hle hU.le, fun hne he => htie (fun hw => hne ?_) ((div_left_inj' hU.ne').mp he)⟩
    have hunits : signFactor neg * z.units = signFactor neg * (round neg m k).units := by
      rw [hr]
      exact_mod_cast hw
    rw [val_units, val_units, mul_left_cancel₀ (signFactor_ne_zero neg) hunits]
  · right
    refine ⟨?_, le_of_round_infinite h hinf⟩
    rw [heq, inf_isInf]

end Sys2Proof.Fp
end

section
/-!
SUPPORT and PROOFS. The rounded operations on finite values (00_scope.md R10): each hands `round` an integer that stands for
the exact result.
-/

namespace Sys2Proof.Fp

open Sys2Proof.Machine

/-! ### From magnitudes to values -/

theorem val_eq_signed (x : F64) : val x = signFactor x.sign * x.magUnits / 2 ^ 1074 := by
  rw [val_units, units_eq]
  push_cast
  rfl

/-- `RoundsTo` for the rounding of an integer that stands for the exact magnitude y units. -/
theorem roundsTo_round (neg : Bool) {m k : Nat} {y : ℝ} {v : ℚ} (hy : 0 ≤ y)
    (hv : (v : ℝ) = signFactor neg * y / 2 ^ 1074) (h : StandsFor m (y * 2 ^ k) (k + spacingLog m k)) :
    RoundsTo v (round neg m k) := by
  have hnear := round_nearest neg hy h
  rw [← hv] at hnear
  refine ⟨?_, fun hv0 => ?_⟩
  · refine hnear.imp (fun ⟨hfin, hb, hz⟩ => ⟨hfin, by exact_mod_cast hb, fun z hzf => ?_⟩) fun ⟨hinf, hb⟩ =>
      ⟨hinf, by exact_mod_cast hb⟩
    obtain ⟨hle, htie⟩ := hz z hzf
    unfold val at hle htie
    exact ⟨by exact_mod_cast hle, fun hne he => htie (by exact_mod_cast hne) (by exact_mod_cast he)⟩
  · rw [round_sign, eq_comm]
    have hy0 : y ≠ 0 := by
      rintro rfl
      rw [mul_zero, zero_div] at hv
      exact hv0 (by exact_mod_cast hv)
    have hpos : 0 < y / 2 ^ 1074 := div_pos (lt_of_le_of_ne hy hy0.symm) (by positivity)
    rw [mul_div_assoc] at hv
    cases neg with
    | false =>
      rw [signFactor, if_neg Bool.false_ne_true, Int.cast_one, one_mul] at hv
      rw [← hv] at hpos
      exact decide_eq_false (not_lt.mpr (by exact_mod_cast hpos.le))
    | true =>
      rw [signFactor, if_pos rfl, Int.cast_neg, Int.cast_one, neg_one_mul] at hv
      refine decide_eq_true ?_
      have : (v : ℝ) < 0 := by rw [hv]; linarith
      exact_mod_cast this

theorem roundsTo_zero (z : F64) (h : z.isZero = true) : RoundsTo 0 z := by
  refine ⟨.inl ⟨isFinite_of_isZero z h, ?_, fun w _ => ?_⟩, fun h0 => absurd rfl h0⟩
  · rw [abs_zero, sub_pos]
    exact pow_lt_pow_right₀ (by norm_num) (by norm_num)
  · rw [toRat_zero z h, sub_zero, sub_zero, abs_zero]
    exact ⟨abs_nonneg _, fun hne he => absurd (abs_eq_zero.mp he.symm) hne⟩

/-! ### Sums -/

theorem add_of_finite {x y : F64} (hx : x.isFinite = true) (hy : y.isFinite = true) :
    add x y = if x.units + y.units = 0 then zeroOf (x.sign && y.sign)
      else round (decide (x.units + y.units < 0)) (x.units + y.units).natAbs 0 := by
  obtain ⟨hxn, hxi⟩ := not_special x hx
  obtain ⟨hyn, hyi⟩ := not_special y hy
  simp [add, sum, hxn, hyn, hxi, hyi]

theorem sub_of_finite {x y : F64} (hx : x.isFinite = true) (hy : y.isFinite = true) : sub x y = add x (neg y) := by
  obtain ⟨hxn, hxi⟩ := not_special x hx
  obtain ⟨hyn, hyi⟩ := not_special y hy
  simp [sub, add, sum, hxn, hyn, hxi, hyi]

theorem toRat_add_toRat (x y : F64) : x.toRat + y.toRat = ((x.units + y.units : ℤ) : ℚ) / 2 ^ 1074 := by
  rw [F64.toRat, F64.toRat, ← add_div, Int.cast_add]

theorem toRat_add_eq_zero_iff (x y : F64) : x.toRat + y.toRat = 0 ↔ x.units + y.units = 0 := by
  rw [toRat_add_toRat, div_eq_zero_iff, or_iff_left (by positivity), Int.cast_eq_zero]

theorem toRat_neg (x : F64) : (neg x).toRat = -x.toRat := by
  have h := val_neg x
  unfold val at h
  exact_mod_cast h

theorem signFactor_mul_natAbs (s : ℤ) : signFactor (decide (s < 0)) * (s.natAbs : ℤ) = s := by
  rcases lt_or_ge s 0 with h | h
  · simp [signFactor, h, abs_of_neg h]
  · simp [signFactor, not_lt.mpr h, abs_of_nonneg h]

theorem add_roundsTo {x y : F64} (hx : x.isFinite = true) (hy : y.isFinite = true) :
    RoundsTo (x.toRat + y.toRat) (add x y) := by
  rw [add_of_finite hx hy]
  split
  next h =>
    rw [(toRat_add_eq_zero_iff x y).mpr h]
    exact roundsTo_zero _ (zeroOf_isZero _)
  next =>
    refine roundsTo_round _ (Nat.cast_nonneg _) ?_ (StandsFor.of_eq _ (by rw [pow_zero, mul_one]))
    have hs := congrArg (Int.cast : ℤ → ℝ) (signFactor_mul_natAbs (x.units + y.units))
    rw [Int.cast_mul, Int.cast_natCast] at hs
    rw [toRat_add_toRat, hs]
    push_cast
    rfl

theorem add_sign_of_zero {x y : F64} (hx : x.isFinite = true) (hy : y.isFinite = true) (h : x.toRat + y.toRat = 0) :
    (add x y).sign = (x.sign && y.sign) := by
  rw [add_of_finite hx hy, if_pos ((toRat_add_eq_zero_iff x y).mp h), zeroOf_sign]

/-- Settles O54: the sum of two unit counts is exact, and the difference is the sum with the negated operand. -/
theorem addAndSubRoundToNearest : Obligations.AddAndSubRoundToNearest := by
  intro x y hx hy
  have hn : (neg y).isFinite = true := isFinite_neg y hy
  rw [sub_of_finite hx hy, sub_eq_add_neg, ← toRat_neg, ← neg_sign]
  exact ⟨add_roundsTo hx hy, add_roundsTo hx hn, add_sign_of_zero hx hy, add_sign_of_zero hx hn⟩

/-! ### Products and quotients -/

theorem mul_of_finite {x y : F64} (hx : x.isFinite = true) (hy : y.isFinite = true) :
    mul x y = round (x.sign != y.sign) (x.magUnits * y.magUnits) 1074 := by
  obtain ⟨hxn, hxi⟩ := not_special x hx
  obtain ⟨hyn, hyi⟩ := not_special y hy
  simp [mul, hxn, hyn, hxi, hyi]

theorem div_of_finite {x y : F64} (hx : x.isFinite = true) (hy : y.isFinite = true) (hy0 : y.isZero = false) :
    div x y = round (x.sign != y.sign) (2 * (x.magUnits * 2 ^ 1075 / y.magUnits) +
      (if x.magUnits * 2 ^ 1075 % y.magUnits = 0 then 0 else 1)) 2 := by
  obtain ⟨hxn, hxi⟩ := not_special x hx
  obtain ⟨hyn, hyi⟩ := not_special y hy
  simp [div, hxn, hyn, hxi, hyi, hy0]

theorem mul_roundsTo {x y : F64} (hx : x.isFinite = true) (hy : y.isFinite = true) :
    RoundsTo (x.toRat * y.toRat) (mul x y) := by
  rw [mul_of_finite hx hy]
  refine roundsTo_round (y := x.magUnits * y.magUnits / 2 ^ 1074) _ (by positivity) ?_ (StandsFor.of_eq _ ?_)
  · push_cast
    change val x * val y = _
    rw [val_eq_signed x, val_eq_signed y, signFactor_bne]
    generalize (2 : ℝ) ^ 1074 = U
    push_cast
    ring
  · rw [div_mul_cancel₀ _ (by positivity)]
    push_cast
    rfl

/-- A quotient of naturals lies from its integer part to below the next integer, and is it when nothing remains. -/
theorem standsFor_quotient (n : Nat) {y d : Nat} (hy : 0 < y) (hd : 2 ≤ d) :
    StandsFor (2 * (n / y) + if n % y = 0 then 0 else 1) (2 * ((n : ℝ) / y)) d := by
  have hyr : (0 : ℝ) < y := by exact_mod_cast hy
  have hdm : (y : ℝ) * (n / y : ℕ) + (n % y : ℕ) = n := by exact_mod_cast Nat.div_add_mod n y
  have hlt : ((n % y : ℕ) : ℝ) < y := by exact_mod_cast Nat.mod_lt n hy
  refine StandsFor.of_cut hd (fun h0 => ?_) (fun h0 => ?_) ?_
  · rw [div_eq_iff hyr.ne', ← hdm, h0]
    push_cast
    ring
  · have : (0 : ℝ) < (n % y : ℕ) := by exact_mod_cast Nat.pos_of_ne_zero h0
    rw [lt_div_iff₀ hyr]
    linarith
  · rw [div_lt_iff₀ hyr]
    linarith

theorem div_roundsTo {x y : F64} (hx : x.isFinite = true) (hy : y.isFinite = true) (hy0 : y.isZero = false) :
    RoundsTo (x.toRat / y.toRat) (div x y) := by
  have hm : 0 < y.magUnits := by
    refine Nat.pos_of_ne_zero fun h => ?_
    rw [(magUnits_eq_zero_iff y).mp h] at hy0
    cases hy0
  have hmr : (0 : ℝ) < y.magUnits := by exact_mod_cast hm
  rw [div_of_finite hx hy hy0]
  refine roundsTo_round (y := x.magUnits / y.magUnits * 2 ^ 1074) _ (by positivity) ?_ ?_
  · push_cast
    change val x / val y = _
    rw [val_eq_signed x, val_eq_signed y, signFactor_bne]
    have hs : (signFactor y.sign : ℝ) * signFactor y.sign = 1 := by exact_mod_cast signFactor_mul_self y.sign
    have hs0 : (signFactor y.sign : ℝ) ≠ 0 := by exact_mod_cast signFactor_ne_zero y.sign
    have hU : (2 : ℝ) ^ 1074 ≠ 0 := by positivity
    generalize (2 : ℝ) ^ 1074 = U at *
    rw [div_div_div_cancel_right₀ hU, ← mul_assoc, mul_div_cancel_right₀ _ hU, div_eq_iff (mul_ne_zero hs0 hmr.ne'),
      mul_mul_mul_comm, div_mul_cancel₀ _ hmr.ne']
    push_cast
    linear_combination (-(signFactor x.sign : ℝ) * x.magUnits) * hs
  · have hn : (x.magUnits / y.magUnits * 2 ^ 1074 * 2 ^ 2 : ℝ) = 2 * ((x.magUnits * 2 ^ 1075 : ℕ) / y.magUnits) := by
      push_cast
      rw [pow_succ _ 1074]
      generalize (2 : ℝ) ^ 1074 = U
      ring
    rw [hn]
    exact standsFor_quotient _ hm (Nat.le_add_right 2 _)

/-- Settles O55: the product of two unit counts is exact, and the quotient is cut off with a bit for the remainder. -/
theorem mulAndDivRoundToNearest : Obligations.MulAndDivRoundToNearest := by
  intro x y hx hy
  refine ⟨mul_roundsTo hx hy, ?_, fun hy0 => ⟨div_roundsTo hx hy hy0, ?_⟩⟩
  · rw [mul_of_finite hx hy, round_sign]
  · rw [div_of_finite hx hy hy0, round_sign]

end Sys2Proof.Fp
end

section
/-!
SUPPORT and PROOFS. The square root (00_scope.md R10): the integer root cut off with an exactness bit stands for the real root.
-/

namespace Sys2Proof.Fp

/-! ### The integer square root -/

theorem isqrtBits_eq_sqrt (n : Nat) : ∀ i r, r ^ 2 ≤ n → n < (r + 2 ^ i) ^ 2 → isqrtBits n i r = n.sqrt
  | 0, r, hlo, hhi => Nat.eq_sqrt'.mpr ⟨hlo, hhi⟩
  | i + 1, r, hlo, hhi => by
    unfold isqrtBits
    split
    next h => exact isqrtBits_eq_sqrt n i _ h (by rwa [add_assoc, ← two_mul, ← pow_succ'])
    next h => exact isqrtBits_eq_sqrt n i r hlo (not_le.mp h)

theorem isqrt_eq_sqrt {n : Nat} (h : n < 2 ^ 164) : isqrt n = n.sqrt :=
  isqrtBits_eq_sqrt n 82 0 (Nat.zero_le n) (by rwa [zero_add, ← pow_mul])

/-- The integer root and, below it, a bit that says whether n is no square. -/
def rootWithBit (n : Nat) : Nat := 2 * n.sqrt + if n.sqrt ^ 2 = n then 0 else 1

/-- A real root lies from the integer root to below the next integer, and is it for a square. -/
theorem standsFor_rootWithBit {n d : Nat} (hd : 2 ≤ d) : StandsFor (rootWithBit n) (2 * √(n : ℝ)) d := by
  refine StandsFor.of_cut hd (fun h => ?_) (fun h => ?_) Real.real_sqrt_lt_nat_sqrt_succ
  · conv_lhs => rw [← h]
    rw [Nat.cast_pow, Real.sqrt_sq (Nat.cast_nonneg _)]
  · refine lt_of_le_of_ne Real.nat_sqrt_le_real_sqrt fun he => h ?_
    have hsq : ((n.sqrt : ℝ)) ^ 2 = n := by rw [he, Real.sq_sqrt (Nat.cast_nonneg _)]
    exact_mod_cast hsq

/-! ### The root of a positive value -/

/-- The exponent that `sqrtPos` halves. -/
def rootExp (x : F64) : Nat := x.expField - 1 + 1074

/-- The integer whose root `sqrtPos` takes. -/
def radicand (x : F64) : Nat := x.significand * 2 ^ (rootExp x % 2 + 110)

theorem radicand_lt (x : F64) : radicand x < 2 ^ 164 :=
  calc radicand x < 2 ^ 53 * 2 ^ (rootExp x % 2 + 110) := Nat.mul_lt_mul_of_pos_right (significand_lt x) (Nat.two_pow_pos _)
    _ ≤ 2 ^ 53 * 2 ^ 111 := Nat.mul_le_mul_left _ (Nat.pow_le_pow_right (by norm_num) (by omega))
    _ = 2 ^ 164 := by norm_num

/-- The root has its full precision above the bits that rounding drops. -/
theorem rootWithBit_radicand_ge {x : F64} (h : x.isZero = false) : 2 ^ 56 ≤ rootWithBit (radicand x) := by
  have hs : 0 < x.significand := by
    refine Nat.pos_of_ne_zero fun h0 => ?_
    rw [(magUnits_eq_zero_iff x).mp (by rw [F64.magUnits, h0, Nat.zero_mul])] at h
    cases h
  have hroot : 2 ^ 55 ≤ (radicand x).sqrt := by
    rw [Nat.le_sqrt', ← pow_mul]
    exact (Nat.pow_le_pow_right (by norm_num) (by omega)).trans (Nat.le_mul_of_pos_left _ hs)
  unfold rootWithBit
  omega

theorem sqrtPos_eq (x : F64) : sqrtPos x = round false (rootWithBit (radicand x) * 2 ^ (rootExp x / 2 - 55)) 1 := by
  rw [rootWithBit, ← isqrt_eq_sqrt (radicand_lt x)]
  rfl

/-- Rounding a shifted integer of 57 bits or more drops at least two bits beside the shift. -/
theorem spacingLog_shifted {r : Nat} (hr : 2 ^ 56 ≤ r) (j : Nat) : ∃ d, 2 ≤ d ∧ 1 + spacingLog (r * 2 ^ j) 1 = d + j := by
  have hm : 2 ^ (56 + j) ≤ r * 2 ^ j := by
    rw [pow_add]
    exact Nat.mul_le_mul_right _ hr
  have hlog := (Nat.le_log2 (lt_of_lt_of_le (Nat.two_pow_pos _) hm).ne').mpr hm
  unfold spacingLog
  generalize (r * 2 ^ j).log2 = l at *
  exact ⟨l - 52 - j, by omega, by omega⟩

/-- The real root in units of 2^-1074. -/
theorem sqrt_toRat_eq (x : F64) (hs : x.sign = false) :
    √(x.toRat : ℝ) = √(radicand x : ℝ) * 2 ^ (rootExp x / 2 - 55) / 2 ^ 1074 := by
  have hsq : (x.toRat : ℝ) = (√(radicand x : ℝ) * 2 ^ (rootExp x / 2 - 55) / 2 ^ 1074) ^ 2 := by
    have hexp : rootExp x % 2 + 110 + (rootExp x / 2 - 55) * 2 = x.expField - 1 + 1074 := by
      unfold rootExp
      omega
    change val x = _
    rw [val_eq, hs, div_pow, mul_pow, Real.sq_sqrt (Nat.cast_nonneg _), radicand, Nat.cast_mul, mul_assoc, ← pow_mul,
      Nat.cast_pow, Nat.cast_ofNat, ← pow_add, hexp, F64.magUnits, Nat.cast_mul, Nat.cast_pow, Nat.cast_ofNat, pow_add]
    have hU : (2 : ℝ) ^ 1074 ≠ 0 := by positivity
    generalize (2 : ℝ) ^ 1074 = U at *
    rw [if_neg Bool.false_ne_true]
    field_simp
  rw [hsq, Real.sqrt_sq (by positivity)]

theorem sqrtPos_nearest {x : F64} (hs : x.sign = false) (h0 : x.isZero = false) :
    Nearest √(x.toRat : ℝ) (sqrtPos x) := by
  rw [sqrt_toRat_eq x hs, sqrtPos_eq]
  have hr := rootWithBit_radicand_ge h0
  generalize rootExp x / 2 - 55 = j
  generalize radicand x = n at *
  obtain ⟨d, hd, hspacing⟩ := spacingLog_shifted hr j
  have hstands : StandsFor (rootWithBit n * 2 ^ j) (√(n : ℝ) * 2 ^ j * 2 ^ 1) (1 + spacingLog (rootWithBit n * 2 ^ j) 1) := by
    rw [hspacing, show √(n : ℝ) * 2 ^ j * 2 ^ 1 = 2 * √(n : ℝ) * 2 ^ j by ring]
    exact (standsFor_rootWithBit hd).shift j
  have hround := round_nearest false (by positivity) hstands
  rwa [signFactor, if_neg Bool.false_ne_true, Int.cast_one, one_mul] at hround

/-- A root is far below the largest finite value. -/
theorem sqrt_toRat_lt {x : F64} (hx : x.isFinite = true) : √(x.toRat : ℝ) < 2 ^ 1024 - 2 ^ 970 := by
  have hv : (x.toRat : ℝ) < 2 ^ 1024 := by
    refine lt_of_le_of_lt (le_abs_self _) ?_
    rw [abs_toRat, div_lt_iff₀ (by positivity), ← pow_add]
    exact_mod_cast magUnits_lt_inf x hx
  have hroot : √(x.toRat : ℝ) < 2 ^ 512 := by
    rw [Real.sqrt_lt' (by positivity), ← pow_mul]
    exact hv
  have h512 : (2 : ℝ) ^ 512 ≤ 2 ^ 970 := pow_le_pow_right₀ (by norm_num) (by norm_num)
  have h1024 : (2 : ℝ) ^ 1024 = 2 ^ 54 * 2 ^ 970 := by rw [← pow_add]
  have hpos : (0 : ℝ) < 2 ^ 970 := by positivity
  rw [h1024]
  generalize (2 : ℝ) ^ 970 = B at *
  exact (hroot.trans_le h512).trans_le (by linarith only [hpos])

/-- Settles O56: the root's rounding is `round`'s, and it cannot overflow. -/
theorem sqrtRoundsToNearest : Obligations.SqrtRoundsToNearest := by
  intro x z hx hs hz
  obtain ⟨hn, hi⟩ := not_special x hx
  cases h0 : x.isZero with
  | true =>
    have he : sqrt x = x := by simp [sqrt, hn, h0]
    rw [he, toRat_zero x h0]
    refine ⟨hx, hs, ?_⟩
    simp
  | false =>
    have he : sqrt x = sqrtPos x := by simp [sqrt, hn, h0, hs, hi]
    rw [he]
    have hsign : (sqrtPos x).sign = false := by rw [sqrtPos_eq, round_sign]
    rcases sqrtPos_nearest hs h0 with ⟨hfin, -, hnear⟩ | ⟨-, hbig⟩
    · exact ⟨hfin, hsign, (hnear z hz).1⟩
    · rw [abs_of_nonneg (Real.sqrt_nonneg _)] at hbig
      exact absurd (sqrt_toRat_lt hx) (not_lt.mpr hbig)

end Sys2Proof.Fp
end

section
/-!
PROOFS. The comparisons (00_scope.md R10): on values that are no NaN they are those of the unit counts, the infinities'
beyond every finite one.
-/

namespace Sys2Proof.Fp

open Sys2Proof.Machine

section
variable {x y : F64} (hx : x.isNaN = false) (hy : y.isNaN = false)
include hx hy

theorem lt_of_not_nan : lt x y = decide (x.units < y.units) := by simp [lt, hx, hy]
theorem le_of_not_nan : le x y = decide (x.units ≤ y.units) := by simp [le, hx, hy]
theorem eq_of_not_nan : Fp.eq x y = decide (x.units = y.units) := by simp [Fp.eq, hx, hy]

end

theorem toRat_lt_iff (x y : F64) : x.toRat < y.toRat ↔ x.units < y.units := by
  rw [F64.toRat, F64.toRat, div_lt_div_iff_of_pos_right (by positivity), Int.cast_lt]

theorem toRat_le_iff (x y : F64) : x.toRat ≤ y.toRat ↔ x.units ≤ y.units := by
  rw [F64.toRat, F64.toRat, div_le_div_iff_of_pos_right (by positivity), Int.cast_le]

theorem toRat_eq_iff (x y : F64) : x.toRat = y.toRat ↔ x.units = y.units := by
  rw [F64.toRat, F64.toRat, div_left_inj' (by positivity), Int.cast_inj]

theorem inf_units (b : Bool) : (inf b).units = signFactor b * 2 ^ 2098 := by
  rw [units_eq, inf_sign, inf_magUnits]
  push_cast
  rfl

/-- The unit counts of finite values lie strictly between those of the infinities. -/
theorem units_between_infs {x : F64} (h : x.isFinite = true) : (inf true).units < x.units ∧ x.units < (inf false).units := by
  have habs : |x.units| < 2 ^ 2098 := by
    rw [Int.abs_eq_natAbs, natAbs_units]
    exact_mod_cast magUnits_lt_inf x h
  rw [inf_units, inf_units, signFactor, signFactor, if_pos rfl, if_neg Bool.false_ne_true, one_mul, neg_one_mul]
  exact abs_lt.mp habs

theorem comparisons_with_nan {x y : F64} (h : x.isNaN = true ∨ y.isNaN = true) :
    lt x y = false ∧ le x y = false ∧ Fp.eq x y = false := by
  rcases h with h | h <;> simp [lt, le, Fp.eq, h]

theorem comparisons_with_inf {x : F64} (h : x.isFinite = true) :
    lt x (inf false) = true ∧ le x (inf false) = true ∧ lt (inf false) x = false ∧ le (inf false) x = false ∧
    lt (inf true) x = true ∧ le (inf true) x = true ∧ lt x (inf true) = false ∧ le x (inf true) = false ∧
    ∀ b : Bool, Fp.eq x (inf b) = false ∧ Fp.eq (inf b) x = false := by
  have hn := (not_special x h).1
  obtain ⟨hlo, hhi⟩ := units_between_infs h
  have hi := inf_isNaN
  simp only [lt_of_not_nan hn (hi _), lt_of_not_nan (hi _) hn, le_of_not_nan hn (hi _), le_of_not_nan (hi _) hn,
    eq_of_not_nan hn (hi _), eq_of_not_nan (hi _) hn, decide_eq_true_eq, decide_eq_false_iff_not, not_lt, not_le]
  refine ⟨hhi, hhi.le, hhi.le, hhi, hlo, hlo.le, hlo.le, hlo, fun b => ?_⟩
  cases b with
  | false => exact ⟨hhi.ne, hhi.ne'⟩
  | true => exact ⟨hlo.ne', hlo.ne⟩

theorem comparisons_of_infs (a b : Bool) :
    lt (inf a) (inf b) = (a && !b) ∧ le (inf a) (inf b) = (a || !b) ∧ Fp.eq (inf a) (inf b) = (a == b) := by
  have h0 : (inf true).units < (inf false).units := by
    have h := units_between_infs (zeroOf_isFinite false)
    exact h.1.trans h.2
  rw [lt_of_not_nan (inf_isNaN a) (inf_isNaN b), le_of_not_nan (inf_isNaN a) (inf_isNaN b),
    eq_of_not_nan (inf_isNaN a) (inf_isNaN b)]
  cases a <;> cases b <;> simp [h0, h0.le, h0.ne, h0.ne', not_lt.mpr h0.le, not_le.mpr h0]

/-- Settles O57: on values that are no NaN the comparisons are those of the unit counts. -/
theorem comparisonsFollowTheValues : Obligations.ComparisonsFollowTheValues := by
  refine ⟨fun _ _ h => comparisons_with_nan h, fun x y hx hy => ?_, fun _ h => comparisons_with_inf h,
    comparisons_of_infs, ?_⟩
  · have hxn := (not_special x hx).1
    have hyn := (not_special y hy).1
    rw [lt_of_not_nan hxn hyn, le_of_not_nan hxn hyn, eq_of_not_nan hxn hyn, toRat_lt_iff, toRat_le_iff, toRat_eq_iff]
    simp only [decide_eq_true_eq, and_self]
  · decide

end Sys2Proof.Fp
end

section
/-!
PROOFS. Conversions (00_scope.md R12, R13): an integer below 2^53 is on the grid of binary64; q16 clamps the integer part
of the magnitude with the sign.
-/

namespace Sys2Proof.Fp

open Sys2Proof.Machine

theorem rneShift_of_dvd {m d : Nat} (h : 2 ^ d ∣ m) : rneShift m d * 2 ^ d = m := by
  have hr : m % 2 ^ d = 0 := Nat.mod_eq_zero_of_dvd h
  have hpos : 0 < 2 ^ d := Nat.two_pow_pos d
  unfold rneShift
  rw [hr, if_neg (by omega)]
  exact Nat.div_mul_cancel h

theorem log2_mul_two_pow_lt {n b : Nat} (e : Nat) (hb : 0 < b) (h : n < 2 ^ b) : (n * 2 ^ e).log2 < b + e := by
  rcases Nat.eq_zero_or_pos n with rfl | hn
  · simp [hb]
  · rw [Nat.log2_lt (Nat.mul_pos hn (Nat.two_pow_pos _)).ne', pow_add]
    exact Nat.mul_lt_mul_of_pos_right h (Nat.two_pow_pos _)

/-- An integer of at most 53 bits, in units, is on the grid, so nothing is rounded. -/
theorem round_integer (neg : Bool) {n : Nat} (h : n < 2 ^ 53) :
    (round neg (n * 2 ^ 1074) 0).isFinite = true ∧ (round neg (n * 2 ^ 1074) 0).units = signFactor neg * (n * 2 ^ 1074) := by
  have hp : spacingLog (n * 2 ^ 1074) 0 ≤ 1074 := by
    have hlog := log2_mul_two_pow_lt 1074 (by norm_num) h
    unfold spacingLog
    omega
  have hdvd : 2 ^ (0 + spacingLog (n * 2 ^ 1074) 0) ∣ n * 2 ^ 1074 :=
    Dvd.dvd.mul_left (pow_dvd_pow 2 (by rwa [Nat.zero_add])) n
  have hexact := rneShift_of_dvd hdvd
  obtain ⟨hq, -⟩ := rneShift_bounds (n * 2 ^ 1074) 0
  rcases round_cases neg (n * 2 ^ 1074) 0 with ⟨hfin, hsign, hmag⟩ | ⟨-, hinf⟩
  · refine ⟨hfin, ?_⟩
    rw [Nat.zero_add] at hexact hmag
    rw [units_eq, hsign, hmag, hexact]
    push_cast
    rfl
  · omega

theorem toRat_of_units {x : F64} {i : ℤ} (h : x.units = i * 2 ^ 1074) : x.toRat = i := by
  rw [F64.toRat, h, Int.cast_mul, Int.cast_pow, Int.cast_ofNat, mul_div_cancel_right₀ _ (by positivity)]

theorem ofInt_exact {i : ℤ} (h : i.natAbs < 2 ^ 53) : (ofInt i).isFinite = true ∧ (ofInt i).toRat = i := by
  obtain ⟨hfin, hunits⟩ := round_integer (decide (i < 0)) h
  refine ⟨hfin, toRat_of_units ?_⟩
  rw [ofInt, hunits, ← mul_assoc, signFactor_mul_natAbs]

theorem ofNat_exact {n : Nat} (h : n < 2 ^ 53) : (ofNat n).isFinite = true ∧ (ofNat n).toRat = n := by
  obtain ⟨hfin, hunits⟩ := round_integer false h
  refine ⟨hfin, ?_⟩
  have := toRat_of_units (i := n) (hunits.trans (one_mul _))
  exact_mod_cast this

theorem clamp16_eq (r : ℤ) : clamp16 r = max (-32768) (min 32767 r) := by
  unfold clamp16
  omega

theorem q16_of_finite (q : QRound) {x : F64} (h : x.isFinite = true) :
    q16 q x = max (-32768) (min 32767 (signFactor x.sign * integerPart q x)) := by
  rw [q16, h, clamp16_eq, signFactor]
  cases x.sign <;> simp

theorem toRat_eq_signed (x : F64) : x.toRat = signFactor x.sign * (x.magUnits / 2 ^ 1074 : ℚ) := by
  rw [F64.toRat, units_eq]
  push_cast
  ring

/-- The integer part toward zero. -/
theorem signed_integerPart_trunc (x : F64) :
    signFactor x.sign * (integerPart .trunc x : ℤ) = if x.toRat < 0 then ⌈x.toRat⌉ else ⌊x.toRat⌋ := by
  have hfloor : ⌊(x.magUnits / 2 ^ 1074 : ℚ)⌋ = (integerPart .trunc x : ℤ) := by
    have := Rat.floor_natCast_div_natCast x.magUnits (2 ^ 1074)
    push_cast at this
    exact_mod_cast this
  have hnonneg : 0 ≤ (x.magUnits / 2 ^ 1074 : ℚ) := by positivity
  rw [toRat_eq_signed, ← hfloor]
  generalize (x.magUnits / 2 ^ 1074 : ℚ) = a at *
  cases x.sign with
  | false => simp [signFactor, not_lt.mpr hnonneg]
  | true =>
    rcases eq_or_lt_of_le hnonneg with rfl | hpos
    · simp
    · simp [signFactor, hpos, Int.ceil_neg]

/-- A multiple of 1 within half of v is a nearest integer, and even where it is exactly half away. -/
theorem nearestInteger_of_close {v : ℚ} {r : ℤ} (h : |(r : ℚ) - v| ≤ 1 / 2) (ht : |(r : ℚ) - v| = 1 / 2 → r % 2 = 0) :
    NearestInteger v r := by
  intro n
  obtain ⟨hle, htie⟩ := nearest_multiple (P := (1 : ℚ)) (by rwa [mul_one]) n
  rw [mul_one, mul_one] at hle htie
  exact ⟨hle, fun hne he => ht (htie hne he)⟩

/-- The integer part to nearest, ties to even. -/
theorem nearestInteger_integerPart (x : F64) :
    NearestInteger x.toRat (signFactor x.sign * (integerPart .nearestEven x : ℤ)) := by
  obtain ⟨hle, htie⟩ := (StandsFor.self (K := ℚ) x.magUnits 1074).rneShift
  have hU : (0 : ℚ) < 2 ^ 1074 := by positivity
  have hdist : |((signFactor x.sign * (integerPart .nearestEven x : ℤ) : ℤ) : ℚ) - x.toRat| =
      |(rneShift x.magUnits 1074 : ℚ) * 2 ^ 1074 - x.magUnits| / 2 ^ 1074 := by
    have hs : |(signFactor x.sign : ℚ)| = 1 := by cases x.sign <;> simp [signFactor]
    rw [toRat_eq_signed, Int.cast_mul, ← mul_sub, abs_mul, hs, one_mul, Int.cast_natCast, integerPart]
    rw [← abs_of_pos hU, ← abs_div, abs_of_pos hU, sub_div, mul_div_cancel_right₀ _ hU.ne']
  refine nearestInteger_of_close ?_ fun he => ?_
  · rw [hdist, div_le_iff₀ hU, one_div_mul_eq_div]
    exact hle
  · rw [hdist, div_eq_iff hU.ne', one_div_mul_eq_div] at he
    have heven := htie he
    exact Int.emod_eq_zero_of_dvd (Dvd.dvd.mul_left (by exact_mod_cast Nat.dvd_of_mod_eq_zero heven) _)

/-- Settles O59: a small integer is on the grid, and `q16` clamps the integer part of the magnitude with its sign. -/
theorem conversionsAreExactAndClamped : Obligations.ConversionsAreExactAndClamped := by
  refine ⟨fun _ h => ofInt_exact h, fun _ h => ofNat_exact h, fun x h => ⟨?_, _, nearestInteger_integerPart x, ?_⟩⟩
  · rw [q16_of_finite _ h, signed_integerPart_trunc]
  · exact q16_of_finite _ h

end Sys2Proof.Fp
end

section
/-!
PROOFS. The operations on NaNs, infinities and zeros (00_scope.md R10).
-/

namespace Sys2Proof.Fp

open Sys2Proof.Machine

theorem operations_with_nan {x y : F64} (h : x.isNaN = true ∨ y.isNaN = true) :
    (add x y).isNaN = true ∧ (sub x y).isNaN = true ∧ (mul x y).isNaN = true ∧ (div x y).isNaN = true := by
  rcases h with h | h <;> simp [add, sub, mul, div, h, nan_isNaN]

/-- Settles O58: each clause is one branch of its operation. -/
theorem invalidOperationsGiveNaN : Obligations.InvalidOperationsGiveNaN := by
  refine ⟨fun x y h => operations_with_nan h, fun x h => ?_, fun b => ?_, fun a b => ?_, fun x hf hz hs => ?_, ?_, ?_,
    fun b => ?_, fun b => ?_, fun x b hf => ?_, fun x b hn hz => ?_⟩
  · simp [sqrt, h, nan_isNaN]
  · simp [sub, add, sum, nan_isNaN]
  · simp [mul, div, nan_isNaN]
  · simp [sqrt, (not_special x hf).1, hz, hs, nan_isNaN]
  · simp [sqrt, nan_isNaN]
  · simp [sqrt]
  · simp [sqrt]
  · simp [add, sub, sum]
  · obtain ⟨hn, hi⟩ := not_special x hf
    simp [add, sub, sum, div, hn, hi]
  · simp [mul, div, hn, hz]

end Sys2Proof.Fp
end

section
/-!
PROOFS. The elementary functions (00_scope.md R14).
-/

namespace Sys2Proof.Fp

open Sys2Proof.Machine

/-- Settles O60: P1 from the values said at the exact arguments, P2 and P3 from the functions' own properties. -/
theorem elementaryFunctionProperties : Obligations.ElementaryFunctionProperties := by
  refine ⟨if_pos (zeroOf_isZero false), if_pos (zeroOf_isZero true), if_pos (zeroOf_isZero false),
    if_pos (zeroOf_isZero true), if_pos rfl, fun x h => ?_, fun x h hp => log10_close x h hp⟩
  obtain ⟨hcf, hc⟩ := within_cos x h
  obtain ⟨hsf, hs⟩ := within_sin x h
  unfold val at hc hs
  exact ⟨hcf, by exact_mod_cast hc, hsf, by exact_mod_cast hs, cos_close x h, sin_close x h⟩

end Sys2Proof.Fp
end

section
/-!
SUPPORT. The register block (10_state.md R31 to R41): the words of ID, CTRL, STATUS and CMD by their fields, the register at
an offset, and what a read answers and a write leaves.
-/

namespace Sys2Proof.Machine

/-! ### Words by their fields -/

/-- Fields side by side are a sum of shifted values. -/
theorem toNat_append_eq_add {n m : Nat} (x : BitVec n) (y : BitVec m) :
    (x ++ y).toNat = x.toNat * 2 ^ m + y.toNat := by
  rw [BitVec.toNat_append, ← Nat.shiftLeft_add_eq_or_of_lt y.isLt, Nat.shiftLeft_eq]

theorem toNat_decide (p : Prop) [Decidable p] : (decide p).toNat = if p then 1 else 0 :=
  apply_ite Bool.toNat p true false

/-- A bit of a word as a field of width 1. -/
theorem getLsbD_eq_of_div_mod {w : Word} {i : Nat} {b : Bool} (h : w.toNat / 2 ^ i % 2 = b.toNat) : w.getLsbD i = b := by
  rw [← BitVec.testBit_toNat, Nat.testBit_eq_decide_div_mod_eq, h]
  cases b <;> rfl

/-- 10_state.md R35: the fields of STATUS at their places. -/
theorem State.statusWord_toNat (s : State) :
    s.statusWord.toNat = s.lastOp.toNat * 2 ^ 16 + s.errCode.code.toNat * 2 ^ 8 + s.err.toNat * 2 ^ 2 + s.done.toNat * 2 +
      (decide (s.phase = .busy)).toNat := by
  unfold State.statusWord
  rw [toNat_append_eq_add (n := 63), toNat_append_eq_add, toNat_append_eq_add, toNat_append_eq_add, toNat_append_eq_add,
    toNat_append_eq_add]
  simp only [BitVec.toNat_ofBool, BitVec.toNat_ofNat]
  omega

/-- 10_state.md R35: each field of STATUS, and 0 elsewhere. -/
theorem State.statusWord_fields (s : State) :
    let w := s.statusWord
    w.getLsbD 0 = decide (s.phase = .busy) ∧ w.getLsbD 1 = s.done ∧ w.getLsbD 2 = s.err ∧
      w.toNat / 2 ^ 3 % 2 ^ 5 = 0 ∧ w.toNat / 2 ^ 8 % 2 ^ 8 = s.errCode.code.toNat ∧
      w.toNat / 2 ^ 16 % 2 ^ 8 = s.lastOp.toNat ∧ w.toNat / 2 ^ 24 = 0 := by
  have hw := s.statusWord_toNat
  have hop := s.lastOp.isLt
  have hcode := s.errCode.code.isLt
  have herr := s.err.toNat_le
  have hdone := s.done.toNat_le
  have hbusy := (decide (s.phase = .busy)).toNat_le
  refine ⟨getLsbD_eq_of_div_mod ?_, getLsbD_eq_of_div_mod ?_, getLsbD_eq_of_div_mod ?_, ?_, ?_, ?_, ?_⟩ <;> omega

/-- 10_state.md R33: the fields of ID at their places, DMEM_KIB cut to its 32 bits (log 9). -/
theorem idWord_toNat (c : Config) :
    (idWord c).toNat = c.dmemSize / 1024 % 2 ^ 32 * 2 ^ 32 + (decide (c.qround = .nearestEven)).toNat * 2 ^ 26 +
      (decide (c.fwdSign = .minus)).toNat * 2 ^ 25 + c.hasNlms.toNat * 2 ^ 24 + c.log2nMax % 2 ^ 8 * 2 ^ 16 + 1 := by
  unfold idWord
  rw [toNat_append_eq_add (n := 48), toNat_append_eq_add, toNat_append_eq_add, toNat_append_eq_add, toNat_append_eq_add,
    toNat_append_eq_add]
  simp only [BitVec.toNat_ofBool, BitVec.toNat_ofNat]
  omega

/-- 10_state.md R34: only IE's bit of CTRL reads as other than 0. -/
theorem State.ctrlWord_eq (s : State) : s.ctrlWord = if s.ie = true then 2#64 else 0#64 := by
  unfold State.ctrlWord
  cases s.ie <;> rfl

/-- 10_state.md R37: the upper half of CMD reads 0. -/
theorem State.cmdWord_toNat (s : State) : s.cmdWord.toNat = s.cmd.toNat := by
  unfold State.cmdWord
  rw [toNat_append_eq_add (n := 32)]
  simp

/-! ### The register at an offset (10_state.md R31) -/

theorem regAt_arg (n : Fin 8) : regAt (0x20 + 8 * n.val) = .arg n := by fin_cases n <;> rfl

theorem regAt_res (n : Fin 4) : regAt (0x60 + 8 * n.val) = .res n := by fin_cases n <;> rfl

theorem regAt_eq_status_iff (off : Nat) : regAt off = .status ↔ off / 8 = 2 := by
  unfold regAt
  split <;> simp <;> omega

theorem regAt_ne_res {off : Nat} (h : off < 0x60 ∨ 0x80 ≤ off) (n : Fin 4) : regAt off ≠ .res n := by
  unfold regAt
  split <;> simp <;> omega

theorem regAt_res_or_reserved {off : Nat} (h : 0x60 ≤ off) : (∃ n, regAt off = .res n) ∨ regAt off = .reserved := by
  unfold regAt
  split <;> simp <;> omega

theorem regAt_reserved {off : Nat} (h : 0x80 ≤ off) : regAt off = .reserved :=
  (regAt_res_or_reserved (by omega)).resolve_left fun ⟨n, hn⟩ => regAt_ne_res (.inr h) n hn

/-! ### The ARG registers -/

theorem Args.get_set (a : Args) (n k : Fin 8) (v : Word) : (a.set n v).get k = if k = n then v else a.get k := by
  fin_cases n <;> fin_cases k <;> rfl

/-! ### What a write leaves -/

section
variable {s : State} {v : Word}

/-- 10_state.md R34: IE first, then START. -/
theorem State.writeCtrl_of_start (hi : s.phase = .idle) (hv : v.getLsbD 0 = true) :
    s.writeCtrl v = ({ s with ie := v.getLsbD 1 } : State).acceptStart := if_pos ⟨hv, hi⟩

/-- 10_state.md R34: without START a write of CTRL sets IE only. -/
theorem State.writeCtrl_of_noStart (hv : v.getLsbD 0 = false) : s.writeCtrl v = { s with ie := v.getLsbD 1 } :=
  if_neg fun ⟨hs, _⟩ => Bool.false_ne_true (hv.symm.trans hs)

/-- 10_state.md R34: START while BUSY is dropped. -/
theorem State.writeCtrl_of_busy (hb : s.phase = .busy) : s.writeCtrl v = { s with ie := v.getLsbD 1 } :=
  if_neg (by simp [hb])

theorem State.writeCtrl_ie : (s.writeCtrl v).ie = v.getLsbD 1 := by
  unfold State.writeCtrl
  dsimp only
  split <;> rfl

/-- 10_state.md R36: while IDLE bit 1 clears DONE. -/
theorem State.writeStatus_of_idle (hi : s.phase = .idle) :
    s.writeStatus v = { s with done := s.done && !v.getLsbD 1 } := by
  unfold State.writeStatus
  cases v.getLsbD 1
  · simp
  · simp [hi]

theorem State.writeStatus_of_busy (hb : s.phase = .busy) : s.writeStatus v = s := if_neg (by simp [hb])

theorem State.writeRegister_cmd_of_idle (hi : s.phase = .idle) :
    s.writeRegister .cmd v = { s with cmd := v.setWidth 32 } := if_neg (by simp [hi])

theorem State.writeRegister_arg_of_idle (n : Fin 8) (hi : s.phase = .idle) :
    s.writeRegister (.arg n) v = { s with args := s.args.set n v } := if_neg (by simp [hi])

/-- 10_state.md R37, R38: CMD and ARG writes while BUSY are ignored. -/
theorem State.writeRegister_cmd_of_busy (hb : s.phase = .busy) : s.writeRegister .cmd v = s := if_pos hb

theorem State.writeRegister_arg_of_busy (n : Fin 8) (hb : s.phase = .busy) : s.writeRegister (.arg n) v = s := if_pos hb

end

/-- No register write reaches the configuration. -/
@[simp] theorem State.writeRegister_config (s : State) (r : Reg) (v : Word) : (s.writeRegister r v).config = s.config := by
  cases r with
  | ctrl => simp only [State.writeRegister, State.writeCtrl]; split <;> rfl
  | status => simp only [State.writeRegister, State.writeStatus]; split <;> rfl
  | cmd => simp only [State.writeRegister]; split <;> rfl
  | arg n => simp only [State.writeRegister]; split <;> rfl
  | id => rfl
  | res n => rfl
  | reserved => rfl

/-! ### What a read answers -/

/-- A read changes only what the host has read: the word, and, for a STATUS read with DONE = 1, duty H6's record. -/
theorem State.answerRegister_eq (s : State) (r : Reg) :
    s.answerRegister r = { s with
      readData := s.readRegister r, unread := if r = .status ∧ s.done = true then [] else s.unread } := by
  unfold State.answerRegister
  by_cases h : r = .status
  · subst h
    simp [State.answerStatus, State.answer, State.readRegister]
  · simp [h, State.answer]

/-- The words read do not depend on the host's own bookkeeping. -/
theorem State.readRegister_turnTaken (s : State) (r : Reg) (host : List HostAction) (delay : Nat) :
    ({ s with host := host, delay := delay } : State).readRegister r = s.readRegister r := by
  cases r <;> rfl

end Sys2Proof.Machine
end

section
/-!
SUPPORT. One step, taken apart (00_scope.md R16): the engine's turn is a completion, the host's turn is one access, and what
each access answers.
-/

namespace Sys2Proof.Machine

/-- While IDLE the turn is the host's. -/
theorem State.engineTurn_of_idle {s : State} (h : s.phase = .idle) : s.engineTurn = false := by
  simp [State.engineTurn, h]

/-- On the host's turn its next access is performed, taken off the list, and one turn of the command is used up. -/
theorem step_hostAccess {s : State} {a : HostAction} {rest : List HostAction} (ht : s.engineTurn = false)
    (hh : s.host = a :: rest) (hw : a ≠ .waitDone) :
    step s = ({ s with host := rest, delay := s.delay - 1 } : State).perform a := by
  simp [step, ht, State.hostTurn, hh, State.repeats, hw]

theorem State.hostReadReg_eq_next_iff (s t : State) (off width : Nat) :
    s.hostReadReg off width = .next t ↔
      registerAccessOk off width = true ∧ s.unreadRegister (regAt off) = false ∧ s.answerRegister (regAt off) = t := by
  unfold State.hostReadReg
  cases registerAccessOk off width <;> cases s.unreadRegister (regAt off) <;> simp

theorem State.hostWriteReg_eq_next_iff (s t : State) (off width : Nat) (v : Word) :
    s.hostWriteReg off width v = .next t ↔ registerAccessOk off width = true ∧ s.writeRegister (regAt off) v = t := by
  unfold State.hostWriteReg
  cases registerAccessOk off width <;> simp

theorem State.hostReadMem_eq_next_iff (s t : State) (addr width : Nat) :
    s.hostReadMem addr width = .next t ↔
      portRefusal s addr width = none ∧ s.unreadBytes addr width = false ∧
        s.answer (BitVec.ofNat 64 (Memory.memRead s.dmem addr width)) = t := by
  unfold State.hostReadMem
  cases portRefusal s addr width <;> cases s.unreadBytes addr width <;> simp

theorem State.hostWriteMem_eq_next_iff (s t : State) (addr width : Nat) (v : Word) :
    s.hostWriteMem addr width v = .next t ↔
      portRefusal s addr width = none ∧
        { s with
          dmem := Memory.memWrite s.dmem addr width v.toNat
          unread := s.unread.map (Unread.overwrite addr width) } = t := by
  unfold State.hostWriteMem
  cases portRefusal s addr width <;> simp

/-- Where duty H6 does not speak against the read of a register (70_reset_and_hazards.md R345). -/
theorem State.unreadRegister_eq_false {s : State} {off : Nat}
    (h : s.phase = .busy ∨ (∀ p ∈ s.unread, p.res = false) ∨ off < 0x60 ∨ 0x80 ≤ off) :
    s.unreadRegister (regAt off) = false := by
  unfold State.unreadRegister
  split
  next n hn =>
    rcases h with hb | hu | ho
    · simp [hb]
    · have hnone : s.unread.any Unread.res = false := List.any_eq_false.mpr fun p hp => by simp [hu p hp]
      rw [hnone, Bool.false_and]
    · exact absurd hn (regAt_ne_res ho n)
  next => rfl

/-- 10_state.md R32: a register read as a step. -/
theorem step_readReg {s : State} {off : Nat} {rest : List HostAction} (ht : s.engineTurn = false) (h8 : off % 8 = 0)
    (hlt : off < 256) (hh : s.host = .readReg off 8 :: rest) (hu : s.unreadRegister (regAt off) = false) :
    step s = .next { s with
      readData := s.readRegister (regAt off), host := rest, delay := s.delay - 1
      unread := if off = 0x10 ∧ s.done = true then [] else s.unread } := by
  rw [step_hostAccess ht hh (by simp), State.perform, State.hostReadReg_eq_next_iff]
  refine ⟨by simp [registerAccessOk, h8, hlt], hu, ?_⟩
  have hoff : regAt off = .status ↔ off = 0x10 := by
    rw [regAt_eq_status_iff]
    omega
  rw [State.answerRegister_eq, State.readRegister_turnTaken]
  simp only [hoff]

/-- 10_state.md R32: a register write as a step. -/
theorem step_writeReg {s : State} {off : Nat} {v : Word} {rest : List HostAction} (ht : s.engineTurn = false)
    (h8 : off % 8 = 0) (hlt : off < 256) (hh : s.host = .writeReg off 8 v :: rest) :
    step s = .next (({ s with host := rest, delay := s.delay - 1 } : State).writeRegister (regAt off) v) := by
  rw [step_hostAccess ht hh (by simp), State.perform, State.hostWriteReg_eq_next_iff]
  exact ⟨by simp [registerAccessOk, h8, hlt], rfl⟩

/-- Whatever the engine runs, its turn is one completion (60_exceptions.md R306). -/
theorem engineStep_complete {s t : State} (h : engineStep s = .next t) : ∃ f, t = s.complete f := by
  unfold engineStep at h
  split at h
  next i _ =>
    rw [exec_next] at h
    cases h
    exact ⟨_, rfl⟩
  next =>
    cases h
    exact ⟨_, rfl⟩

/-- The configuration is a constant: no host access changes it, not even a reset (70_reset_and_hazards.md R340). -/
theorem State.perform_config {s t : State} {a : HostAction} (h : s.perform a = .next t) : t.config = s.config := by
  cases a with
  | readReg off width =>
    obtain ⟨-, -, rfl⟩ := (s.hostReadReg_eq_next_iff t off width).mp h
    rw [State.answerRegister_eq]
  | writeReg off width v =>
    obtain ⟨-, rfl⟩ := (s.hostWriteReg_eq_next_iff t off width v).mp h
    exact s.writeRegister_config _ v
  | readMem addr width =>
    obtain ⟨-, -, rfl⟩ := (s.hostReadMem_eq_next_iff t addr width).mp h
    rfl
  | writeMem addr width v =>
    obtain ⟨-, rfl⟩ := (s.hostWriteMem_eq_next_iff t addr width v).mp h
    rfl
  | waitDone => cases h; rfl
  | check => cases h; rfl
  | reset => cases h; rfl

/-- No step changes the configuration. -/
theorem step_config {s t : State} (h : step s = .next t) : t.config = s.config := by
  unfold step at h
  split at h
  · obtain ⟨f, rfl⟩ := engineStep_complete h
    rfl
  · unfold State.hostTurn at h
    split at h
    · cases h
      rfl
    · rw [State.perform_config h]

end Sys2Proof.Machine
end

section
/-!
PROOFS. The register block and the interrupt output (10_state.md R33 to R47).
-/

namespace Sys2Proof.Machine

/-- Settles O46: STATUS by its fields, and the two branches of its write. -/
theorem statusReadsAndWrites : Obligations.StatusReadsAndWrites :=
  fun s _ => ⟨s.statusWord_fields, State.writeStatus_of_idle, State.writeStatus_of_busy⟩

/-- 10_state.md R37, R38: what CMD and each ARG register keep of a write, and what a write of one changes. -/
theorem State.writeRegister_cmd_arg_of_idle {s : State} (hi : s.phase = .idle) (v : Word) (n : Fin 8) :
    ((s.writeRegister .cmd v).readRegister .cmd).toNat = v.toNat % 2 ^ 32 ∧
      { s.writeRegister .cmd v with cmd := s.cmd } = s ∧
      (s.writeRegister (.arg n) v).readRegister (.arg n) = v ∧
      (∀ k : Fin 8, k ≠ n → (s.writeRegister (.arg n) v).args.get k = s.args.get k) ∧
      { s.writeRegister (.arg n) v with args := s.args } = s := by
  rw [State.writeRegister_cmd_of_idle hi, State.writeRegister_arg_of_idle n hi]
  exact ⟨(State.cmdWord_toNat _).trans (BitVec.toNat_setWidth _ _), rfl, (Args.get_set _ n n v).trans (if_pos rfl),
    fun k hk => (Args.get_set _ n k v).trans (if_neg hk), rfl⟩

/-- 10_state.md R33, R39, R40: ID, RES0 to RES3 and the reserved offsets ignore every write. -/
theorem State.writeRegister_readOnly (s : State) (v : Word) {off : Nat} (h : off = 0 ∨ 0x60 ≤ off) :
    s.writeRegister (regAt off) v = s := by
  rcases h with rfl | h
  · rfl
  · obtain ⟨n, hn⟩ | hn := regAt_res_or_reserved h <;> rw [hn] <;> rfl

/-- Settles O47: the registers at their offsets, then the two accesses as steps. -/
theorem registerWrites : Obligations.RegisterWrites := by
  refine ⟨fun s v => ⟨fun n => ?_, fun off _ _ => ⟨s.writeRegister_readOnly v, fun h => ?_⟩⟩, fun s n => ?_,
    fun s off rest ht h8 hlt => ⟨fun hh hu => step_readReg ht h8 hlt hh (State.unreadRegister_eq_false hu),
      fun v => step_writeReg ht h8 hlt⟩⟩
  · rw [regAt_arg]
    exact ⟨fun hb => ⟨State.writeRegister_cmd_of_busy hb, State.writeRegister_arg_of_busy n hb⟩,
      fun hi => State.writeRegister_cmd_arg_of_idle hi v n⟩
  · rw [regAt_reserved h]
    rfl
  · rw [regAt_res]
    rfl

/-- Settles O48: ID's fields from its word; no step changes the configuration it shows. -/
theorem idIdentifiesConfiguration : Obligations.IdIdentifiesConfiguration := by
  refine ⟨fun s hl hsize => ?_, by decide, fun s t h => ⟨step_config h, congrArg idWord (step_config h)⟩⟩
  have hlog : s.config.log2nMax ≤ 26 := by
    simp only [Config.legal, Bool.and_eq_true, decide_eq_true_eq] at hl
    obtain ⟨⟨hlog, -⟩, -⟩ := hl
    exact hlog
  have hid : (s.readRegister (regAt 0x00)).toNat = _ := idWord_toNat s.config
  have hq := (decide (s.config.qround = .nearestEven)).toNat_le
  have hf := (decide (s.config.fwdSign = .minus)).toNat_le
  have hn := s.config.hasNlms.toNat_le
  simp only [hid, ← toNat_decide, Bool.decide_eq_true]
  refine ⟨?_, ?_, ?_, ?_, ?_, ?_, ?_⟩ <;> omega

/-- Settles O5: the hypotheses make it the engine's turn. -/
theorem stepRunsDecodedCommand : Obligations.StepRunsDecodedCommand := by
  intro s i hb hturn hi
  have ht : s.engineTurn = true := by
    rcases hturn with h | h <;> simp [State.engineTurn, hb, h]
  simp [step, ht, engineStep, hi]

/-- Settles O44: CTRL's word and the three ways of its write. -/
theorem ctrlReadsAndWrites : Obligations.CtrlReadsAndWrites :=
  ⟨rfl, fun s _ => ⟨s.ctrlWord_eq, State.writeCtrl_of_start, fun _ => State.writeCtrl_of_noStart,
    State.writeCtrl_of_busy⟩⟩

/-- Settles O45: the write is the host's turn, and it is START acceptance. -/
theorem startIsAccepted : Obligations.StartIsAccepted := by
  intro s v rest hi hv hh
  have hw := step_writeReg (State.engineTurn_of_idle hi) (by decide) (by decide) hh
  refine ⟨_, hw.trans (congrArg _ (State.writeCtrl_of_start hi hv)), rfl, rfl, rfl, rfl, ?_, rfl, rfl, rfl, rfl, rfl, rfl,
    rfl, rfl⟩
  simp

/-- Settles O49: a completion sets DONE and leaves IE; each write sets the one or the other. -/
theorem interruptFollowsDoneAndEnable : Obligations.InterruptFollowsDoneAndEnable := by
  refine ⟨rfl, fun s => by simp [State.irq], fun i s t h => ?_, fun s v hi hv => ?_, fun s v hv => ?_,
    fun s v hi hv => ?_, fun s v hv hie => ?_⟩
  · rw [exec_next] at h
    cases h
    simp [State.irq]
  · simp [State.writeRegister, State.writeStatus_of_idle hi, State.irq, hv]
  · rw [State.writeRegister, State.irq, State.writeCtrl_ie, hv, Bool.and_false]
  · simp [State.writeRegister, State.writeCtrl_of_start hi hv, State.irq]
  · simp [State.writeRegister, State.writeCtrl_of_noStart hv, State.irq, hie]

end Sys2Proof.Machine
end

section
/-!
SUPPORT. The frame of a command (20_memory.md R95): what each body leaves outside the buffers its command writes, and what
`exec` leaves of everything else (10_state.md R39, R41).
-/

namespace Sys2Proof.Machine

/-! ### What a body touches -/

theorem loadResponse_outside (c : Config) (m : Memory) (wy n resp e cnt : Nat) (two : Bool) (a : Nat)
    (h : a < wy ∨ wy + 16 * n ≤ a) : Memory.read (loadResponse c m wy n resp e cnt two) a = Memory.read m a := by
  unfold loadResponse
  split
  · exact load16Body_outside c m wy n _ _ a h
  · exact load16Body_outside c m wy n _ _ a h

theorem normqBody_outside {c : Config} {m m' : Memory} {dst n : Nat} {fmt : Fmt} {src : Nat} {peak : F64}
    (hb : normqBody c m dst n fmt src = some (m', peak)) {a : Nat} (h : a < dst ∨ dst + 2 * n ≤ a) :
    Memory.read m' a = Memory.read m a := by
  rcases normqBody_cases c m dst n fmt src with ⟨-, hn⟩ | ⟨-, hs⟩
  · rw [hn] at hb
    cases hb
  · rw [hs] at hb
    cases hb
    exact writePcms_outside m dst _ a (by simpa using h)

theorem tspgenWorkMem_outside (s : State) {a : Nat}
    (h : a < s.args.a2.toNat ∨ s.args.a2.toNat + 16 * s.points ≤ a) :
    Memory.read (tspgenWorkMem s) a = Memory.read s.dmem a :=
  (fftCore_outside _ _ _ _ _ a h).trans (tspSynth_outside _ _ _ _ a h)

/-- 42_deconv.md R207: each of steps 2 to 7 stays inside its third of the work buffer. -/
theorem deconvWorkMem_outside (s : State) {a : Nat}
    (h : a < s.args.a6.toNat ∨ s.args.a6.toNat + 48 * s.deconvSize ≤ a) :
    Memory.read (deconvWorkMem s) a = Memory.read s.dmem a := by
  have hx : a < s.args.a6.toNat ∨ s.args.a6.toNat + 16 * s.deconvSize ≤ a := by omega
  have hy : a < s.args.a6.toNat + 16 * s.deconvSize ∨ s.args.a6.toNat + 16 * s.deconvSize + 16 * s.deconvSize ≤ a := by
    omega
  have hg : a < s.args.a6.toNat + 32 * s.deconvSize ∨ s.args.a6.toNat + 32 * s.deconvSize + 16 * s.deconvSize ≤ a := by
    omega
  unfold deconvWorkMem
  rw [fftCore_outside _ _ _ _ _ a hy, deconvMulBody_outside _ _ _ _ _ _ _ a hy, tspSynth_outside _ _ _ _ a hg,
    fftCore_outside _ _ _ _ _ a hy, fftCore_outside _ _ _ _ _ a hx, loadResponse_outside _ _ _ _ _ _ _ _ a hy,
    load16Body_outside _ _ _ _ _ _ a hx]

/-- A filter that passes the checks has a coefficient, so both vectors keep its length (43_nlms.md R241). -/
theorem nlmsResult_length {fmt : Fmt} {s : State} (h : nlmsCheck fmt s = none) :
    (nlmsResult fmt s).h.length = s.args.a4.toNat ∧ (nlmsResult fmt s).xb.length = s.args.a4.toNat := by
  refine nlmsRun_length _ _ _ _ _ _ (Nat.pos_of_ne_zero fun h0 => ?_)
  have hempty := rest_of_check_none (rest_of_check_none h)
  simp [h0] at hempty

/-! ### What a command touches -/

theorem writes_eq_false_iff (i : Instr) (s : State) (a : Nat) :
    writes i s a = false ↔ ∀ b ∈ writtenBuffers i s, a < b.base ∨ b.base + b.bytes ≤ a := by
  rw [writes, List.any_eq_false]
  refine forall₂_congr fun b _ => ?_
  rw [Buffer.holds_iff]
  omega

/-- 20_memory.md R95: past its checks a command's body leaves every byte outside the buffers it writes. -/
theorem commandFinish_read_of_not_writes {i : Instr} {s : State} {a : Nat} (hc : commandCheck i s = none)
    (ha : writes i s a = false) : Memory.read (commandFinish i s).dmem a = Memory.read s.dmem a := by
  rw [writes_eq_false_iff] at ha
  cases i with
  | nop => rfl
  | fft => exact fftCore_outside _ _ _ _ _ a (ha s.fftBuf List.mem_cons_self)
  | ifft => exact fftCore_outside _ _ _ _ _ a (ha s.fftBuf List.mem_cons_self)
  | tspUp => exact tspSynth_outside _ _ _ _ a (ha s.fftBuf List.mem_cons_self)
  | tspDown => exact tspSynth_outside _ _ _ _ a (ha s.fftBuf List.mem_cons_self)
  | tspgen =>
    have hwork := tspgenWorkMem_outside s (ha s.tspgenWork (by simp [writtenBuffers]))
    simp only [commandFinish, tspgenFinish]
    split
    · exact hwork
    next hb => exact (normqBody_outside hb (ha s.tspgenDst List.mem_cons_self)).trans hwork
  | load16 => exact load16Body_outside _ _ _ _ _ _ a (ha s.fftBuf List.mem_cons_self)
  | deconvMul => exact deconvMulBody_outside _ _ _ _ _ _ _ a (ha s.fftBuf List.mem_cons_self)
  | normq fmt =>
    simp only [commandFinish, normqFinish]
    split
    · rfl
    next hb => exact normqBody_outside hb (ha s.normqDst List.mem_cons_self)
  | deconv =>
    have hw : a < s.args.a6.toNat ∨ s.args.a6.toNat + 16 * (3 * s.deconvSize) ≤ a :=
      ha s.deconvWork (by simp [writtenBuffers])
    have hwork := deconvWorkMem_outside s (a := a) (by omega)
    simp only [commandFinish, deconvFinish]
    split
    · exact hwork
    next hb => exact (normqBody_outside hb (ha s.deconvDst List.mem_cons_self)).trans hwork
  | nlms fmt =>
    obtain ⟨hh, hx⟩ := nlmsResult_length hc
    exact (writeReals_outside _ _ _ a (by rw [hx]; exact ha s.nlmsLine (by simp [writtenBuffers]))).trans
      (writeReals_outside _ _ _ a (by rw [hh]; exact ha s.nlmsH List.mem_cons_self))
  | schroeder fmt =>
    simp only [commandFinish, schroederFinish]
    split
    · rfl
    · split
      · rfl
      · exact writeReals_outside _ _ _ a (by
          rw [decayCurve_length, readReals_length]
          exact ha s.schroederDst List.mem_cons_self)
  | decayFit => rw [commandFinish, decayFitFinish_dmem]

section
variable {i : Instr} {s t : State} (h : exec i s = .next t)
include h

/-- The two ways a command ends: with a failing check's code and nothing written, or as its body says. -/
theorem exec_cases :
    (∃ c, t = s.complete (s.raise c)) ∨ (commandCheck i s = none ∧ t = s.complete (commandFinish i s)) := by
  rw [exec_next] at h
  cases h
  cases commandCheck i s with
  | some c => exact .inl ⟨c, rfl⟩
  | none => exact .inr ⟨rfl, rfl⟩

/-- 10_state.md R41: a command writes STATUS, RES and DMEM only. -/
theorem exec_sameOutside : SameOutside s t := by
  obtain ⟨c, rfl⟩ | ⟨-, rfl⟩ := exec_cases h <;> exact ⟨rfl, rfl, rfl, rfl, rfl, rfl, rfl, rfl, rfl, rfl, rfl, rfl⟩

/-- 10_state.md R39: RES is left, or as the body left it. -/
theorem exec_res_of {P : Results → Prop} (hs : P s.res) (hf : P (commandFinish i s).res) : P t.res := by
  obtain ⟨c, rfl⟩ | ⟨-, rfl⟩ := exec_cases h
  · exact hs
  · exact hf

theorem exec_res_of_keeps (hk : (commandFinish i s).res = s.res) : t.res = s.res :=
  exec_res_of h (P := (· = s.res)) rfl hk

/-- 20_memory.md R95: a command leaves every byte outside the buffers it writes. -/
theorem exec_read_of_not_writes {a : Nat} (ha : writes i s a = false) :
    Memory.read t.dmem a = Memory.read s.dmem a := by
  obtain ⟨c, rfl⟩ | ⟨hc, rfl⟩ := exec_cases h
  · rfl
  · exact commandFinish_read_of_not_writes hc ha

theorem exec_sameMemory (hw : writtenBuffers i s = []) : SameMemory s t := fun _ =>
  exec_read_of_not_writes h (by simp [writes, hw])

theorem exec_sameMemoryBut {b : Buffer} (hw : writtenBuffers i s = [b]) : SameMemoryBut s t b.base b.bytes := fun a ha =>
  exec_read_of_not_writes h (by simpa [writes_eq_false_iff, hw] using ha)

theorem exec_sameMemoryButTwo {b c : Buffer} (hw : writtenBuffers i s = [b, c]) :
    SameMemoryButTwo s t b.base b.bytes c.base c.bytes := fun a hb hc =>
  exec_read_of_not_writes h (by simpa [writes_eq_false_iff, hw] using ⟨hb, hc⟩)

end

/-! ### Which RES registers a body names -/

theorem normqFinish_res (fmt : Fmt) (s : State) :
    (normqFinish fmt s).res = { s.res with r0 := (normqFinish fmt s).res.r0 } := by
  unfold normqFinish
  split <;> rfl

theorem tspgenFinish_res (s : State) :
    (tspgenFinish s).res = { s.res with r0 := (tspgenFinish s).res.r0, r1 := (tspgenFinish s).res.r1 } := by
  unfold tspgenFinish
  split <;> rfl

theorem schroederFinish_res (fmt : Fmt) (s : State) :
    (schroederFinish fmt s).res = { s.res with r0 := (schroederFinish fmt s).res.r0 } := by
  fun_cases schroederFinish fmt s <;> rfl

end Sys2Proof.Machine
end

section
/-!
PROOFS. The frames of the commands and the overlap of buffers (20_memory.md R85, R95).
-/

namespace Sys2Proof.Machine

/-- Settles O12: each of the six writes the CPLX128 ×N buffer at ARG0 and its body keeps RES. -/
theorem spectralCommandsFrame : Obligations.SpectralCommandsFrame := by
  intro i s t hi h
  have hbody : writtenBuffers i s = [s.fftBuf] ∧ (commandFinish i s).res = s.res := by
    rcases hi with rfl | rfl | rfl | rfl | rfl | rfl <;> exact ⟨rfl, rfl⟩
  obtain ⟨hw, hres⟩ := hbody
  exact ⟨exec_sameOutside h, exec_res_of_keeps h hres, exec_sameMemoryBut h hw⟩

/-- Settles O13: the buffers each command writes and the RES registers its body names. -/
theorem sampleCommandsFrame : Obligations.SampleCommandsFrame := by
  refine ⟨fun fmt s t h => ⟨exec_sameOutside h, ?_, exec_sameMemoryBut h (b := s.normqDst) rfl⟩,
    fun s t h => ⟨exec_sameOutside h, ?_, exec_sameMemoryButTwo h (b := s.tspgenDst) (c := s.tspgenWork) rfl⟩,
    fun s t h => ⟨exec_sameOutside h, ?_⟩⟩
  · exact exec_res_of h (P := fun r => r = { s.res with r0 := r.r0 }) rfl (normqFinish_res fmt s)
  · exact exec_res_of h (P := fun r => r = { s.res with r0 := r.r0, r1 := r.r1 }) rfl (tspgenFinish_res s)
  · have hwork : s.deconvWork.bytes = 48 * s.deconvSize := (Nat.mul_assoc 16 3 s.deconvSize).symm
    rw [← hwork]
    exact exec_sameMemoryButTwo h (b := s.deconvDst) (c := s.deconvWork) rfl

/-- Settles O14: NLMS's body keeps RES, SCHROEDER's names RES0. -/
theorem realCommandsFrame : Obligations.RealCommandsFrame := by
  refine ⟨fun fmt s t h => ⟨exec_sameOutside h, exec_res_of_keeps h rfl,
      exec_sameMemoryButTwo h (b := s.nlmsH) (c := s.nlmsLine) rfl⟩,
    fun fmt s t h => ⟨exec_sameOutside h, ?_, exec_sameMemoryBut h (b := s.schroederDst) rfl⟩⟩
  exact exec_res_of h (P := fun r => r = { s.res with r0 := r.r0 }) rfl (schroederFinish_res fmt s)

/-- Settles O15: neither command writes a buffer. -/
theorem storelessCommandsFrame : Obligations.StorelessCommandsFrame :=
  ⟨fun _ _ h => ⟨exec_sameOutside h, exec_res_of_keeps h rfl, exec_sameMemory h rfl⟩,
    fun _ _ h => ⟨exec_sameOutside h, exec_sameMemory h rfl⟩⟩

/-- Settles O17: where two buffers overlap, the higher of their bases lies in both. -/
theorem overlapIsASharedByte : Obligations.OverlapIsASharedByte := by
  intro b c
  simp only [Buffer.overlaps_iff, Buffer.holds_iff]
  constructor
  · intro h
    exact ⟨max b.base c.base, by omega⟩
  · rintro ⟨a, hb, hc⟩
    omega

end Sys2Proof.Machine
end

section
/-!
SUPPORT and PROOFS. The host port on DMEM (20_memory.md R80, R86, R87): a write and a read as steps of an IDLE core, and what
the read finds.
-/

namespace Sys2Proof.Machine

/-! ### Little-endian bytes in memory -/

/-- 20_memory.md R80: byte j is bits 8j + 7 to 8j. -/
theorem leBytes_getElem_toNat (n v j : Nat) (hj : j < (leBytes n v).length) :
    (leBytes n v)[j].toNat = v / 2 ^ (8 * j) % 256 := by
  induction n generalizing v j with
  | zero => exact absurd hj (Nat.not_lt_zero j)
  | succ n ih =>
    cases j with
    | zero => simp [leBytes]
    | succ j =>
      have hpow : 2 ^ (8 * (j + 1)) = 256 * 2 ^ (8 * j) := by rw [Nat.mul_succ, Nat.pow_add, Nat.mul_comm]
      simp only [leBytes, List.getElem_cons_succ]
      rw [ih, Nat.div_div_eq_div_mul, hpow]

theorem Memory.read_memWrite_inside (m : Memory) (a n v : Nat) {j : Nat} (hj : j < n) :
    (Memory.read (Memory.memWrite m a n v) (a + j)).toNat = v / 2 ^ (8 * j) % 256 := by
  rw [Memory.memWrite, Memory.read_writeBytes_inside m a _ j (by simpa using hj), leBytes_getElem_toNat]

theorem Memory.read_memWrite_outside (m : Memory) (a n v : Nat) {b : Nat} (hb : b < a ∨ a + n ≤ b) :
    Memory.read (Memory.memWrite m a n v) b = Memory.read m b :=
  Memory.read_writeBytes_outside m a _ b (by simpa using hb)

theorem Memory.memRead_memWrite (m : Memory) (a n v : Nat) :
    Memory.memRead (Memory.memWrite m a n v) a n = v % 256 ^ n := by
  rw [← ofLeBytes_leBytes]
  exact Memory.memRead_eq _ a n _ (leBytes_length n v) fun j hj => Memory.read_writeBytes_inside m a _ j hj

/-! ### The two accesses as steps -/

/-- 20_memory.md R86, R96: the accesses the host port takes. -/
theorem portRefusal_eq_none {s : State} {a n : Nat} (hi : s.phase = .idle) (hn : n = 1 ∨ n = 2 ∨ n = 4 ∨ n = 8)
    (ha : a % n = 0) (hsize : a + n ≤ s.config.dmemSize) : portRefusal s a n = none := by
  have hok : portAccessOk s.config.dmemSize a n = true := by
    simpa [portAccessOk, ha, hsize, or_assoc] using hn
  simp [portRefusal, hok, hi]

/-- The state after the host has written the low n bytes of v at a, its other accesses still to come. -/
def State.portWritten (s : State) (a n : Nat) (v : Word) (rest : List HostAction) : State :=
  { s with
    dmem := Memory.memWrite s.dmem a n v.toNat, host := rest, delay := s.delay - 1
    unread := s.unread.map (Unread.overwrite a n) }

/-- Duty H6 does not keep the host's own bytes from it (70_reset_and_hazards.md R345). -/
theorem State.unreadBytes_portWritten (s : State) (a n : Nat) (v : Word) (rest : List HostAction) :
    (s.portWritten a n v rest).unreadBytes a n = false :=
  State.unreadBytes_overwrite
    { s with dmem := Memory.memWrite s.dmem a n v.toNat, host := rest, delay := s.delay - 1 } a n

section
variable {s : State} {a n : Nat} {rest : List HostAction} (hi : s.phase = .idle) (hp : portRefusal s a n = none)
include hi hp

theorem step_writeMem {v : Word} (hh : s.host = .writeMem a n v :: rest) :
    step s = .next (s.portWritten a n v rest) := by
  rw [step_hostAccess (State.engineTurn_of_idle hi) hh (by simp), State.perform, State.hostWriteMem_eq_next_iff]
  exact ⟨hp, rfl⟩

theorem step_readMem (hh : s.host = .readMem a n :: rest) (hu : s.unreadBytes a n = false) :
    step s = .next { s with
      readData := BitVec.ofNat 64 (Memory.memRead s.dmem a n), host := rest, delay := s.delay - 1 } := by
  rw [step_hostAccess (State.engineTurn_of_idle hi) hh (by simp), State.perform, State.hostReadMem_eq_next_iff]
  exact ⟨hp, hu, rfl⟩

end

theorem core_run_succ {s t : State} (k : Nat) (h : step s = .next t) : core.run (k + 1) s = core.run k t := by
  simp [Host.Core.run, core, h]

/-- Settles O50: the write makes the bytes the host's own, so duty H6 lets the read through. -/
theorem hostPortReadsWhatItWrote : Obligations.HostPortReadsWhatItWrote := by
  intro s a n v rest hi hn ha hsize hh
  have hp := portRefusal_eq_none hi hn ha hsize
  have hread := step_readMem (s := s.portWritten a n v (.readMem a n :: rest)) hi hp rfl (s.unreadBytes_portWritten a n v _)
  refine ⟨_, (core_run_succ 1 (step_writeMem hi hp hh)).trans (core_run_succ 0 hread), ?_,
    fun j hj => Memory.read_memWrite_inside s.dmem a n v.toNat hj,
    fun b hb => Memory.read_memWrite_outside s.dmem a n v.toNat hb, rfl⟩
  have hlt : v.toNat % 256 ^ n < 2 ^ 64 := lt_of_le_of_lt (Nat.mod_le _ _) v.isLt
  rw [State.portWritten, BitVec.toNat_ofNat, Memory.memRead_memWrite, Nat.mod_eq_of_lt hlt]

end Sys2Proof.Machine
end

section
/-!
SUPPORT and PROOFS. A PCM16 sample as a real (20_memory.md R81, 00_scope.md R12): the quotient by 2^15 is on the grid of
binary64, so the division rounds nothing.
-/

namespace Sys2Proof.Fp

open Sys2Proof.Machine

/-- `round_integer` at every scale: a magnitude of at most 53 bits times a power of two, in units, is on the grid. -/
theorem round_dyadic (neg : Bool) {n e : Nat} (h : n < 2 ^ 53) (he : e ≤ 2044) :
    (round neg (n * 2 ^ e) 0).isFinite = true ∧ (round neg (n * 2 ^ e) 0).units = signFactor neg * (n * 2 ^ e) := by
  have hp : spacingLog (n * 2 ^ e) 0 ≤ e := by
    have hlog := log2_mul_two_pow_lt e (by norm_num) h
    unfold spacingLog
    omega
  have hexact := rneShift_of_dvd (Dvd.dvd.mul_left (pow_dvd_pow 2 hp) n)
  obtain ⟨hq, -⟩ := rneShift_bounds (n * 2 ^ e) 0
  rcases round_cases neg (n * 2 ^ e) 0 with ⟨hfin, hsign, hmag⟩ | ⟨-, hinf⟩
  · refine ⟨hfin, ?_⟩
    rw [Nat.zero_add] at hmag
    rw [units_eq, hsign, hmag, hexact]
    push_cast
    rfl
  · omega

/-- Every integer of at most 53 bits over 2^15 is a binary64 value. -/
theorem exists_toRat_eq_div {i : ℤ} (h : i.natAbs < 2 ^ 53) :
    ∃ z : F64, z.isFinite = true ∧ z.toRat = (i : ℚ) / 32768 := by
  obtain ⟨hfin, hunits⟩ := round_dyadic (decide (i < 0)) (e := 1059) h (by norm_num)
  have hpow : (2 : ℚ) ^ 1074 = 32768 * 2 ^ 1059 := by
    rw [show (32768 : ℚ) = 2 ^ 15 by norm_num, ← pow_add]
  refine ⟨_, hfin, ?_⟩
  rw [F64.toRat, hunits, ← mul_assoc, signFactor_mul_natAbs, hpow, Int.cast_mul, Int.cast_pow, Int.cast_ofNat,
    mul_div_mul_right _ _ (by positivity)]

/-- A finite rounded result of a value of the format is that value. -/
theorem toRat_eq_of_roundsTo {y : ℚ} {r z : F64} (h : RoundsTo y r) (hr : r.isFinite = true) (hz : z.isFinite = true)
    (hzy : z.toRat = y) : r.toRat = y := by
  obtain ⟨⟨-, -, hnear⟩ | ⟨hinf, -⟩, -⟩ := h
  · obtain ⟨hle, -⟩ := hnear z hz
    rw [hzy, sub_self, abs_zero] at hle
    exact sub_eq_zero.mp (abs_nonpos_iff.mp hle)
  · obtain ⟨-, hni⟩ := not_special r hr
    rw [hni] at hinf
    cases hinf

/-- `PCM_IN_SCALE` is 32768 (00_scope.md R6). -/
theorem pcmInScale_exact : Config.thisHardware.pcmInScale.isFinite = true ∧
    Config.thisHardware.pcmInScale.isZero = false ∧ Config.thisHardware.pcmInScale.toRat = 32768 := by
  have h : ofNat 32768 = Config.thisHardware.pcmInScale := by decide +kernel
  obtain ⟨hfin, hval⟩ := ofNat_exact (n := 32768) (by norm_num)
  rw [h] at hfin hval
  exact ⟨hfin, by decide, by exact_mod_cast hval⟩

/-- A 16-bit sample lies in [−2^15, 2^15 − 1]. -/
theorem readPcm_bounds (m : Memory) (a : Nat) : -32768 ≤ readPcm m a ∧ readPcm m a ≤ 32767 := by
  have hlo := BitVec.le_toInt (BitVec.ofNat 16 (Memory.memRead m a 2))
  have hhi := BitVec.toInt_lt (x := BitVec.ofNat 16 (Memory.memRead m a 2))
  unfold readPcm
  norm_num at hlo hhi
  omega

theorem readReal_pcm16_toRat (c : Config) (hc : c.docLiterals = true) (m : Memory) (b i : Nat) :
    (readReal c .pcm16 m b i).toRat = (readPcm m (b + 2 * i) : ℚ) / 32768 := by
  have hfin := (within_pcm c hc m b i).1
  rw [readReal, pcmInScale_of_doc c hc] at hfin ⊢
  obtain ⟨hlo, hhi⟩ := readPcm_bounds m (b + 2 * i)
  generalize readPcm m (b + 2 * i) = v at *
  have hv : v.natAbs < 2 ^ 53 := by omega
  obtain ⟨hvfin, hvval⟩ := ofInt_exact hv
  obtain ⟨hsfin, hs0, hsval⟩ := pcmInScale_exact
  obtain ⟨z, hz, hzval⟩ := exists_toRat_eq_div hv
  have hround := div_roundsTo hvfin hsfin hs0
  rw [hvval, hsval] at hround
  exact toRat_eq_of_roundsTo hround hfin hz hzval

/-- Settles O28: the exact quotient, and the range of a 16-bit sample over 2^15. -/
theorem pcmReadsExactly : Obligations.PcmReadsExactly := by
  intro c m b i hc
  have hval := readReal_pcm16_toRat c hc m b i
  obtain ⟨hlo, hhi⟩ := readPcm_bounds m (b + 2 * i)
  have hloq : (-32768 : ℚ) ≤ readPcm m (b + 2 * i) := by exact_mod_cast hlo
  have hhiq : (readPcm m (b + 2 * i) : ℚ) ≤ 32767 := by exact_mod_cast hhi
  refine ⟨(within_pcm c hc m b i).1, hval, ?_, ?_⟩ <;> rw [hval]
  · linarith
  · linarith

end Sys2Proof.Fp
end

section
/-!
SUPPORT and PROOFS. The command word (30_encoding.md R110 to R117): a command is named by its two fields, and a word decodes to
a command exactly when it is that command's word and the configuration has the command.
-/

namespace Sys2Proof

/-! ### The fields of a word -/

theorem opField_toNat (w : BitVec 32) : (w.extractLsb' 0 8).toNat = w.toNat % 2 ^ 8 := by
  simp [BitVec.extractLsb'_toNat]

theorem fmtField_toNat (w : BitVec 32) : (w.extractLsb' 8 2).toNat = w.toNat / 2 ^ 8 % 4 := by
  simp [BitVec.extractLsb'_toNat, Nat.shiftRight_eq_div_pow]

theorem rsvField_toNat (w : BitVec 32) : (w.extractLsb' 10 22).toNat = w.toNat / 2 ^ 10 := by
  have hw := w.isLt
  simp only [BitVec.extractLsb'_toNat, Nat.shiftRight_eq_div_pow]
  omega

/-! ### The fields of a command -/

theorem encodedFields (i : Instr) : Laws.EncodedFields.Statement i :=
  match i with
  | .nop => Laws.EncodedFields.nop
  | .fft => Laws.EncodedFields.fft
  | .ifft => Laws.EncodedFields.ifft
  | .tspUp => Laws.EncodedFields.tspUp
  | .tspDown => Laws.EncodedFields.tspDown
  | .tspgen => Laws.EncodedFields.tspgen
  | .load16 => Laws.EncodedFields.load16
  | .deconvMul => Laws.EncodedFields.deconvMul
  | .normq fmt => Laws.EncodedFields.normq fmt
  | .deconv => Laws.EncodedFields.deconv
  | .nlms fmt => Laws.EncodedFields.nlms fmt
  | .schroeder fmt => Laws.EncodedFields.schroeder fmt
  | .decayFit => Laws.EncodedFields.decayFit

/-- The three fields make up the whole word, so they decide whether it is a command's. -/
theorem encode_eq_iff (i : Instr) (w : BitVec 32) :
    encode i = w ↔ i.opcode = w.toNat % 2 ^ 8 ∧ i.fmtField = w.toNat / 2 ^ 8 % 4 ∧ w.toNat / 2 ^ 10 = 0 := by
  have hfields := encodedFields i
  rw [Laws.EncodedFields.Statement, opField_toNat, fmtField_toNat, rsvField_toNat] at hfields
  obtain ⟨hop, hfmt, hrsv⟩ := hfields
  constructor
  · rintro rfl
    exact ⟨hop.symm, hfmt.symm, hrsv⟩
  · rintro ⟨hop', hfmt', hrsv'⟩
    apply BitVec.eq_of_toNat_eq
    omega

theorem Instr.opcode_le (i : Instr) : i.opcode ≤ 0x0C := by cases i <;> simp [Instr.opcode]

/-- 30_encoding.md R115: of the commands only NLMS can be absent. -/
theorem Instr.wellFormed_iff (c : Config) (i : Instr) :
    i.wellFormed c = true ↔ (i.opcode = 0x0A → c.hasNlms = true) := by
  cases i <;> simp [Instr.wellFormed, Instr.opcode]

/-- The format a command's row of the opcode table is found under: REAL64, whose field is 0, for a command without one. -/
def Instr.fmt (i : Instr) : Fmt :=
  match i with
  | .normq f => f
  | .nlms f => f
  | .schroeder f => f
  | _ => .real64

theorem encodeFmt_fmt (i : Instr) : encodeFmt i.fmt = i.fmtField := by cases i <;> rfl

/-! ### The FMT field -/

theorem encodeFmt_lt (f : Fmt) : encodeFmt f < 3 := by cases f <;> decide

theorem encodeFmt_eq_zero_iff (f : Fmt) : encodeFmt f = 0 ↔ f = .real64 := by cases f <;> decide

theorem decodeFmt_encodeFmt (f : Fmt) : decodeFmt (encodeFmt f) = some f := by cases f <;> rfl

theorem decodeFmt_eq_some_iff (n : Nat) (f : Fmt) : decodeFmt n = some f ↔ encodeFmt f = n := by
  constructor
  · intro h
    unfold decodeFmt at h
    split at h <;> cases h <;> rfl
  · rintro rfl
    exact decodeFmt_encodeFmt f

/-- 30_encoding.md R111: the formats fill the field's values below 3. -/
theorem exists_encodeFmt_eq_iff (n : Nat) : (∃ f, encodeFmt f = n) ↔ n < 3 := by
  constructor
  · rintro ⟨f, rfl⟩
    exact encodeFmt_lt f
  · intro h
    interval_cases n
    · exact ⟨.real64, rfl⟩
    · exact ⟨.pcm16, rfl⟩
    · exact ⟨.cplx128, rfl⟩

/-! ### The word as a write of CMD -/

/-- 30_encoding.md R117: a command's word as a value for the 64-bit CMD register. -/
theorem encode_setWidth (i : Instr) : (encode i).setWidth 64 = BitVec.ofNat 64 (i.fmtField * 256 + i.opcode) := by
  have hop := i.opcode_le
  have hfmt := encodeFmt_lt i.fmt
  rw [encodeFmt_fmt] at hfmt
  exact BitVec.setWidth_ofNat_of_le_of_lt (by decide) (by omega)

/-! ### The opcode table -/

/-- 30_encoding.md R114: a row is found by its opcode and its format. -/
theorem decodeOp_eq_ok_iff (op : Nat) (f : Fmt) (i : Instr) : decodeOp op f = .ok i ↔ i.opcode = op ∧ i.fmt = f := by
  constructor
  · intro h
    unfold decodeOp at h
    split at h <;> cases h <;> exact ⟨rfl, rfl⟩
  · rintro ⟨rfl, rfl⟩
    cases i <;> rfl

/-- 30_encoding.md R114: which opcodes have a row for a format. -/
theorem exists_decodeOp_iff (op : Nat) (f : Fmt) :
    (∃ i, decodeOp op f = .ok i) ↔ op ≤ 0x0C ∧ (f = .real64 ∨ op = 0x08 ∨ op = 0x0A ∨ op = 0x0B) := by
  constructor
  · rintro ⟨i, h⟩
    obtain ⟨rfl, rfl⟩ := (decodeOp_eq_ok_iff op f i).mp h
    cases i <;> simp [Instr.opcode, Instr.fmt]
  · rintro ⟨hop, rfl | rfl | rfl | rfl⟩
    · interval_cases op <;> exact ⟨_, rfl⟩
    · exact ⟨.normq f, rfl⟩
    · exact ⟨.nlms f, rfl⟩
    · exact ⟨.schroeder f, rfl⟩

/-! ### Decode -/

/-- 30_encoding.md R115: decode's tests on the three fields, then the opcode table. -/
theorem decode_eq_some_iff (c : Config) (w : BitVec 32) (i : Instr) :
    decode c w = some i ↔ w.toNat / 2 ^ 10 = 0 ∧ w.toNat % 2 ^ 8 ≤ 0x0C ∧ (w.toNat % 2 ^ 8 = 0x0A → c.hasNlms = true) ∧
      ∃ f, encodeFmt f = w.toNat / 2 ^ 8 % 4 ∧ decodeOp (w.toNat % 2 ^ 8) f = .ok i := by
  rw [decode, decodeCmd]
  simp only [opField_toNat, fmtField_toNat, rsvField_toNat, ← decodeFmt_eq_some_iff]
  generalize w.toNat / 2 ^ 10 = rsv, w.toNat % 2 ^ 8 = op, w.toNat / 2 ^ 8 % 4 = fmt
  split_ifs with hrsv hop habsent
  · simp [hrsv]
  · simp [Nat.not_le.mpr hop]
  · simp [habsent]
  · have hnlms : op = 0x0A → c.hasNlms = true := by simpa using habsent
    cases decodeFmt fmt with
    | none => simp
    | some f =>
      cases hj : decodeOp op f with
      | error e => simp [hj]
      | ok j => simpa [hj, not_not.mp hrsv, Nat.not_lt.mp hop] using fun _ : j = i => hnlms

/-- 30_encoding.md R115, R116: decode inverts encode, on the commands of the configuration and on nothing else. -/
theorem decode_eq_some_iff_encode (c : Config) (w : BitVec 32) (i : Instr) :
    decode c w = some i ↔ encode i = w ∧ i.wellFormed c = true := by
  rw [decode_eq_some_iff, encode_eq_iff, Instr.wellFormed_iff, ← encodeFmt_fmt]
  simp only [decodeOp_eq_ok_iff]
  constructor
  · rintro ⟨hrsv, -, hnlms, f, hfmt, hop, rfl⟩
    exact ⟨⟨hop, hfmt, hrsv⟩, fun h => hnlms (hop ▸ h)⟩
  · rintro ⟨⟨hop, hfmt, hrsv⟩, hnlms⟩
    rw [← hop]
    exact ⟨hrsv, i.opcode_le, hnlms, i.fmt, hfmt, rfl, rfl⟩

/-- 30_encoding.md R115: the legal words. -/
theorem decode_isSome_iff (c : Config) (w : BitVec 32) :
    (decode c w).isSome = true ↔
      w.toNat / 2 ^ 10 = 0 ∧ w.toNat % 2 ^ 8 ≤ 0x0C ∧ (w.toNat % 2 ^ 8 = 0x0A → c.hasNlms = true) ∧
      w.toNat / 2 ^ 8 % 4 ≠ 3 ∧
      (w.toNat / 2 ^ 8 % 4 = 0 ∨ w.toNat % 2 ^ 8 = 0x08 ∨ w.toNat % 2 ^ 8 = 0x0A ∨ w.toNat % 2 ^ 8 = 0x0B) := by
  rw [Option.isSome_iff_exists]
  simp only [decode_eq_some_iff]
  constructor
  · rintro ⟨i, hrsv, hop, hnlms, f, hfmt, hi⟩
    obtain ⟨-, hrow⟩ := (exists_decodeOp_iff _ f).mp ⟨i, hi⟩
    rw [← encodeFmt_eq_zero_iff, hfmt] at hrow
    exact ⟨hrsv, hop, hnlms, hfmt ▸ (encodeFmt_lt f).ne, hrow⟩
  · rintro ⟨hrsv, hop, hnlms, hne, hrow⟩
    obtain ⟨f, hfmt⟩ := (exists_encodeFmt_eq_iff (w.toNat / 2 ^ 8 % 4)).mpr (by omega)
    rw [← hfmt, encodeFmt_eq_zero_iff] at hrow
    obtain ⟨i, hi⟩ := (exists_decodeOp_iff _ f).mpr ⟨hop, hrow⟩
    exact ⟨i, hrsv, hop, hnlms, f, hfmt, hi⟩

/-- Settles O1: the command's word has the command's fields. -/
theorem decodeOfEncode : Obligations.DecodeOfEncode :=
  fun c i hwf => (decode_eq_some_iff_encode c (encode i) i).mpr ⟨rfl, hwf⟩

/-- Settles O2: the converse reading of the same equivalence. -/
theorem encodeOfDecode : Obligations.EncodeOfDecode :=
  fun c w i => (decode_eq_some_iff_encode c w i).mp

/-- Settles O3: the fields of a legal word; while BUSY an illegal one makes it the engine's turn. -/
theorem legalWordsAndIllegalCompletion : Obligations.LegalWordsAndIllegalCompletion := by
  refine ⟨decode_isSome_iff, fun s hbusy hillegal => ?_⟩
  have ht : s.engineTurn = true := by simp [Machine.State.engineTurn, hbusy, hillegal]
  rw [Machine.step, if_pos ht, Machine.engineStep, hillegal]
  exact Machine.execIllegal_eq s

/-- Settles O4: each word is its command's own. -/
theorem exampleWords : Obligations.ExampleWords :=
  ⟨decodeOfEncode _ .fft rfl, decodeOfEncode _ .decayFit rfl, decodeOfEncode _ (.schroeder .pcm16) rfl,
    decodeOfEncode _ (.normq .cplx128) rfl⟩

end Sys2Proof
end

section
/-!
SUPPORT and PROOFS. Assembly lines and what they do (30_encoding.md R118, R119): the accesses of a line performed from IDLE, the
expansions, and CHECK as a step.
-/

namespace Sys2Proof.Machine

/-! ### A line's accesses as steps of an IDLE core -/

/-- The accesses after a line's operand writes: CMD, CTRL and WAIT (30_encoding.md R118). -/
def commandAccesses (ie : Bool) (i : Instr) : List HostAction :=
  [.writeReg 0x18 8 ((encode i).setWidth 64), .writeReg 0x08 8 (startWord ie), .waitDone]

section
variable {s : State} {v : Word} {rest : List HostAction} (hi : s.phase = .idle)
include hi

theorem step_writeArg (n : Fin 8) (hh : s.host = writeArg n v :: rest) :
    step s = .next { s with host := rest, delay := s.delay - 1, args := s.args.set n v } := by
  rw [step_writeReg (State.engineTurn_of_idle hi) (by omega) (by omega) hh, regAt_arg, State.writeRegister_arg_of_idle]
  exact hi

theorem step_writeCmd (i : Instr) (hh : s.host = .writeReg 0x18 8 ((encode i).setWidth 64) :: rest) :
    step s = .next { s with host := rest, delay := s.delay - 1, cmd := encode i } := by
  have hcmd : ((encode i).setWidth 64).setWidth 32 = encode i := BitVec.setWidth_setWidth_of_le _ (by decide)
  have hw := State.writeRegister_cmd_of_idle (s := { s with host := rest, delay := s.delay - 1 })
    (v := (encode i).setWidth 64) hi
  rw [hcmd] at hw
  exact (step_writeReg (State.engineTurn_of_idle hi) (by decide) (by decide) hh).trans (congrArg _ hw)

theorem step_startWord (ie : Bool) (hh : s.host = .writeReg 0x08 8 (startWord ie) :: rest) :
    step s = .next ({ s with host := rest, delay := s.delay - 1, ie := ie } : State).acceptStart := by
  rw [step_writeReg (State.engineTurn_of_idle hi) (by decide) (by decide) hh]
  cases ie <;> exact congrArg _ (State.writeCtrl_of_start hi rfl)

end

/-- From IDLE a line's accesses start its command on the operands it has put in the ARG registers, the WAIT next. -/
theorem run_lineAccesses (ie : Bool) (i : Instr) (rest : List HostAction) (ws : List (Fin 8 × Word)) {s : State}
    (hi : s.phase = .idle) (hh : s.host = ws.map (fun w => writeArg w.1 w.2) ++ (commandAccesses ie i ++ rest)) :
    core.run (ws.length + 2) s = .next
      ({ s with
        host := .waitDone :: rest, args := ws.foldl (fun a w => a.set w.1 w.2) s.args, cmd := encode i, ie := ie
        } : State).acceptStart := by
  induction ws generalizing s with
  | nil => exact (core_run_succ 1 (step_writeCmd hi i hh)).trans (core_run_succ 0 (step_startWord (by exact hi) ie rfl))
  | cons w ws ih => exact (core_run_succ _ (step_writeArg hi w.1 hh)).trans (ih hi rfl)

/-! ### What a line assembles to -/

section
variable (ie : Bool) (fmt : Fmt) (d l c fs stop : Word)

theorem assembleLine_fft (b n : Word) :
    assembleLine ie ⟨.fft, [(.buf, b), (.log2n, n)]⟩ = some ([writeArg 0 b, writeArg 1 n] ++ commandAccesses ie .fft) := rfl

theorem assembleLine_deconv (e x m r w rateE rateR : Word) :
    assembleLine ie ⟨.deconv, [(.dst, d), (.e, e), (.exc, x), (.m, m), (.resp, r), (.fsE, rateE), (.fsR, rateR), (.work, w)]⟩ =
      some ([writeArg 0 d, writeArg 1 e, writeArg 2 x, writeArg 3 m, writeArg 4 r,
        writeArg 5 (rateE ||| (rateR <<< (32 : Nat))), writeArg 6 w] ++ commandAccesses ie .deconv) := rfl

theorem assembleLine_normq :
    assembleLine ie ⟨.normq fmt, [(.dst, d), (.len, l), (.src, c)]⟩ =
      some ([writeArg 0 d, writeArg 1 l, writeArg 2 c] ++ commandAccesses ie (.normq fmt)) := rfl

theorem assembleLine_nlms_nil : assembleLine ie ⟨.nlms fmt, []⟩ = some (commandAccesses ie (.nlms fmt)) := rfl

theorem assembleLine_schroeder :
    assembleLine ie ⟨.schroeder fmt, [(.dst, d), (.len, l), (.src, c)]⟩ =
      some ([writeArg 0 d, writeArg 1 l, writeArg 2 c] ++ commandAccesses ie (.schroeder fmt)) := rfl

theorem assembleLine_decayFit :
    assembleLine ie ⟨.decayFit, [(.len, l), (.curve, d), (.fs, fs), (.startDb, minusFive), (.endDb, stop)]⟩ =
      some ([writeArg 1 l, writeArg 2 d, writeArg 3 fs, writeArg 4 minusFive, writeArg 5 stop] ++
        commandAccesses ie .decayFit) := rfl

/-- 30_encoding.md R119: T10 and T20 are a SCHROEDER and a DECAY_FIT line. -/
theorem assembleLines_decayLines :
    assembleLines ie (decayLines fmt d l c fs stop) =
      some (([writeArg 0 d, writeArg 1 l, writeArg 2 c] ++ commandAccesses ie (.schroeder fmt)) ++
        ([writeArg 1 l, writeArg 2 d, writeArg 3 fs, writeArg 4 minusFive, writeArg 5 stop] ++
          commandAccesses ie .decayFit)) := by
  simp only [decayLines, assembleLines, assembleLine_schroeder, assembleLine_decayFit, List.append_nil]

end

/-- 30_encoding.md R113: DECONV's rates, fs_r in the upper half of ARG5 and fs_e in the lower. -/
theorem toNat_rates {e r : Word} (he : e.toNat < 2 ^ 32) (hr : r.toNat < 2 ^ 32) :
    (e ||| (r <<< (32 : Nat))).toNat = r.toNat * 2 ^ 32 + e.toNat := by
  rw [BitVec.toNat_or, BitVec.toNat_shiftLeft, Nat.mod_eq_of_lt (by rw [Nat.shiftLeft_eq]; omega), Nat.or_comm,
    ← Nat.shiftLeft_add_eq_or_of_lt he, Nat.shiftLeft_eq]

/-- 30_encoding.md R119: IE's choice holds for the lines after it. -/
theorem assemble_ie (ie on : Bool) (ts : List Stmt) :
    assemble ie (.ie on :: ts) =
      (assemble on ts).map fun h => .writeReg 0x08 8 (if on = true then 0x2#64 else 0x0#64) :: h := by
  simp only [assemble, assembleStmt, nextIe]
  cases assemble on ts <;> rfl

/-- 30_encoding.md R119: CHECK as a step. -/
theorem step_check {s : State} {rest : List HostAction} (ht : s.engineTurn = false) (hh : s.host = .check :: rest) :
    step s = .next { s with
      readData := s.statusWord, host := rest, delay := s.delay - 1
      unread := if s.done = true then [] else s.unread
      checkFailed := s.checkFailed || s.err } :=
  step_hostAccess ht hh (by simp)

/-- No step but a CHECK that finds STATUS.ERR = 1 records a failure. -/
theorem check_of_checkFailed_ne {s t : State} (h : step s = .next t) (hne : t.checkFailed ≠ s.checkFailed) :
    s.err = true ∧ ∃ rest, s.host = .check :: rest := by
  unfold step at h
  split at h
  · obtain ⟨f, rfl⟩ := engineStep_complete h
    exact absurd rfl hne
  · unfold State.hostTurn at h
    split at h
    next =>
      cases h
      exact absurd rfl hne
    next a rest hh =>
      rw [State.perform_checkFailed _ t a h] at hne
      have hcheck : (decide (a = .check) && s.err) = true := by
        by_contra hno
        exact hne (by rw [Bool.eq_false_of_not_eq_true hno]; exact Bool.or_false _)
      obtain ⟨ha, herr⟩ := Bool.and_eq_true_iff.mp hcheck
      exact ⟨herr, rest, of_decide_eq_true ha ▸ hh⟩

/-- Settles O53: FFT's line by the run of any line's accesses, the others by their expansions, CHECK by what a step can do to
the record. -/
theorem assembledFftLineStarts : Obligations.AssembledFftLineStarts := by
  refine ⟨fun s b n rest hi => ⟨_, assembleLine_fft false b n, fun hh => ?_⟩,
    fun ie d e x m r w rateE rateR hE hR => ⟨_, toNat_rates hE hR, ?_⟩, fun ie fmt d l c fs => ?_,
    fun ie on n v ts => ⟨rfl, rfl, rfl, rfl, assemble_ie ie on ts⟩, by decide +kernel, fun s rest => step_check,
    fun s t => check_of_checkFailed_ne⟩
  · exact ⟨_, run_lineAccesses false .fft rest [(0, b), (1, n)] hi hh, rfl, rfl, rfl, decodeOfEncode _ .fft rfl, rfl, rfl,
      rfl⟩
  · rw [assembleLine_deconv, commandAccesses, encode_setWidth]
    rfl
  · simp only [assembleStmt, assembleLine_normq, assembleLine_nlms_nil, assembleLine_schroeder, assembleLines_decayLines,
      commandAccesses, encode_setWidth]
    cases fmt <;> exact ⟨rfl, rfl, rfl, rfl, rfl⟩

end Sys2Proof.Machine
end

section
/-!
PROOFS. The bit-reversal permutation (40_transform.md R140): bitrev by its bits, its own inverse, and what the swaps leave.
-/

namespace Sys2Proof.Machine

open Sys2Proof.Fp

/-! ### bitrev -/

theorem bitrev_lt (m i : Nat) : bitrev m i < 2 ^ m := by
  induction m generalizing i with
  | zero => simp [bitrev]
  | succ m ih =>
    have hlow := ih (i / 2)
    rw [bitrev, pow_succ]
    rcases Nat.mod_two_eq_zero_or_one i with h | h <;> rw [h] <;> omega

theorem bitrev_testBit (m i t : Nat) (ht : t < m) : (bitrev m i).testBit t = i.testBit (m - 1 - t) := by
  induction m generalizing i with
  | zero => omega
  | succ m ih =>
    rw [bitrev, Nat.mul_comm, Nat.testBit_two_pow_mul_add _ (bitrev_lt m (i / 2))]
    split
    next h =>
      rw [ih _ h, Nat.testBit_div_two]
      congr 1
      omega
    next h =>
      have htm : t = m := by omega
      simp [htm]

theorem bitrev_bitrev {m i : Nat} (hi : i < 2 ^ m) : bitrev m (bitrev m i) = i := by
  refine Nat.eq_of_testBit_eq fun t => ?_
  by_cases ht : t < m
  · rw [bitrev_testBit m _ t ht, bitrev_testBit m i _ (by omega)]
    congr 1
    omega
  · have hpow : 2 ^ m ≤ 2 ^ t := Nat.pow_le_pow_right (by omega) (by omega)
    rw [Nat.testBit_lt_two_pow ((bitrev_lt m _).trans_le hpow), Nat.testBit_lt_two_pow (hi.trans_le hpow)]

/-- An index of the lower half is reversed to an even one. -/
theorem bitrev_succ_lower {m i : Nat} (hi : i < 2 ^ m) : bitrev (m + 1) i = 2 * bitrev m i := by
  induction m generalizing i with
  | zero => simp [bitrev, show i = 0 by omega]
  | succ m ih =>
    rw [bitrev, ih (by omega), bitrev]
    ring

/-- An index of the upper half is reversed to an odd one. -/
theorem bitrev_succ_upper {m i : Nat} (hi : i < 2 ^ m) : bitrev (m + 1) (2 ^ m + i) = 2 * bitrev m i + 1 := by
  induction m generalizing i with
  | zero => simp [bitrev, show i = 0 by omega]
  | succ m ih =>
    have hmod : (2 ^ (m + 1) + i) % 2 = i % 2 := by omega
    have hdiv : (2 ^ (m + 1) + i) / 2 = 2 ^ m + i / 2 := by omega
    rw [bitrev, hmod, hdiv, ih (by omega), bitrev]
    ring

/-! ### The swaps -/

theorem set_set_getD {a : List Cplx} {i j : Nat} (hi : i < a.length) (hj : j < a.length) (x y : Cplx) (k : Nat) :
    ((a.set i x).set j y).getD k czero = if k = j then y else if k = i then x else a.getD k czero := by
  rw [getD_set, getD_set, List.length_set]
  simp only [hi, hj, and_true]

theorem swap_getD {a : List Cplx} {i j : Nat} (hi : i < a.length) (hj : j < a.length) (k : Nat) :
    (swap a i j).getD k czero =
      if k = j then a.getD i czero else if k = i then a.getD j czero else a.getD k czero :=
  set_set_getD hi hj _ _ k

/-- After the first n swaps: the elements whose own index or reversed index is below n are in place, the others not moved. -/
def SwappedBelow (m : Nat) (a : List Cplx) (n : Nat) (b : List Cplx) : Prop :=
  b.length = a.length ∧
    ∀ k, k < 2 ^ m → b.getD k czero = if k < n ∨ bitrev m k < n then a.getD (bitrev m k) czero else a.getD k czero

theorem SwappedBelow.succ {m n : Nat} {a b : List Cplx} (ha : a.length = 2 ^ m) (hn : n < 2 ^ m)
    (h : SwappedBelow m a n b) :
    SwappedBelow m a (n + 1) (if n < bitrev m n then swap b n (bitrev m n) else b) := by
  obtain ⟨hlen, hb⟩ := h
  have hr := bitrev_lt m n
  have hinv := bitrev_bitrev hn
  have hmoved : ∀ k, k < 2 ^ m → (bitrev m k = n ↔ k = bitrev m n) := fun k hk =>
    ⟨fun e => by rw [← e, bitrev_bitrev hk], fun e => by rw [e, hinv]⟩
  refine ⟨by split <;> simp [hlen], fun k hk => ?_⟩
  have hk' := hmoved k hk
  by_cases hlt : n < bitrev m n
  · rw [if_pos hlt, swap_getD (by omega) (by omega), hb n hn, hb _ hr, hb k hk, hinv]
    by_cases hkr : k = bitrev m n
    · simp [hkr, hinv, hlt.not_gt]
    · by_cases hkn : k = n
      · simp [hkn, hlt.ne, hlt.not_gt]
      · rw [if_neg hkr, if_neg hkn]
        exact if_congr (by omega) rfl rfl
  · rw [if_neg hlt, hb k hk]
    by_cases hkn : k = n
    · subst hkn
      rcases (not_lt.mp hlt).eq_or_lt with hfix | hdone
      · simp [hfix]
      · simp [hdone]
    · exact if_congr (by omega) rfl rfl

theorem permute_getD {m : Nat} {a : List Cplx} (ha : a.length = 2 ^ m) {i : Nat} (hi : i < 2 ^ m) :
    (permute m a).getD i czero = a.getD (bitrev m i) czero := by
  have hall : SwappedBelow m a (2 ^ m) (permute m a) :=
    forUp_index (SwappedBelow m a) _ _ a ⟨rfl, by simp⟩ fun _ _ hn h => h.succ ha hn
  obtain ⟨-, hb⟩ := hall
  rw [hb i hi, if_pos (.inl hi)]

/-- Settles O22: bitrev by induction on its width, the permutation by the invariant `SwappedBelow` of the swaps. -/
theorem bitReversalPermutes : Obligations.BitReversalPermutes :=
  ⟨rfl, bitrev_testBit, fun _ _ ha _ hi => permute_getD ha hi⟩

end Sys2Proof.Machine
end

section
/-!
SUPPORT. The stages on a list cut in two halves (40_transform.md R142): every stage but the last works on each half alone,
and the last one is the butterflies of the two halves.
-/

namespace Sys2Proof.Machine

open Sys2Proof.Fp

/-! ### Loops -/

/-- A relation kept by every iteration of two loops holds of their results. -/
theorem forUp_rel {α β : Type} (R : α → β → Prop) (n : Nat) {f : Nat → α → α} {g : Nat → β → β} {a : α} {b : β}
    (h0 : R a b) (hs : ∀ i x y, i < n → R x y → R (f i x) (g i y)) : R (forUp n f a) (forUp n g b) := by
  induction n with
  | zero => exact h0
  | succ n ih => exact hs n _ _ (Nat.lt_succ_self n) (ih fun i x y hi => hs i x y (by omega))

theorem forUp_add {α : Type} (m n : Nat) (f : Nat → α → α) (a : α) :
    forUp (m + n) f a = forUp n (fun i => f (m + i)) (forUp m f a) := by
  induction n with
  | zero => rfl
  | succ n ih => rw [← Nat.add_assoc, forUp, ih, forUp]

/-! ### A butterfly and a block on one half -/

theorem butterfly_append_left (wl w : Cplx) {h i : Nat} {b : List Cplx} (c : List Cplx) (hi : i + h < b.length) :
    butterfly wl h i (b ++ c, w) = ((butterfly wl h i (b, w)).1 ++ c, (butterfly wl h i (b, w)).2) := by
  simp only [butterfly]
  rw [List.getD_append _ _ _ _ hi, List.getD_append _ _ _ _ (by omega), List.set_append_left _ _ (by omega),
    List.set_append_left _ _ (by simpa using hi)]

theorem butterfly_append_right (wl w : Cplx) (h i : Nat) (b c : List Cplx) :
    butterfly wl h (b.length + i) (b ++ c, w) = (b ++ (butterfly wl h i (c, w)).1, (butterfly wl h i (c, w)).2) := by
  simp only [butterfly]
  rw [List.getD_append_right _ _ _ _ (by omega), List.getD_append_right _ _ _ _ (by omega),
    List.set_append_right _ _ (by omega), List.set_append_right _ _ (by omega)]
  simp [Nat.add_assoc]

theorem block_append_left (wl : Cplx) {h i : Nat} {b : List Cplx} (c : List Cplx) (hi : i + 2 * h ≤ b.length) :
    block wl h i (b ++ c) = block wl h i b ++ c := by
  have key := forUp_rel
    (fun x y : List Cplx × Cplx => x = (y.1 ++ c, y.2) ∧ y.1.length = b.length) h
    (f := fun j st => butterfly wl h (i + j) st) (g := fun j st => butterfly wl h (i + j) st)
    (a := (b ++ c, cone)) (b := (b, cone)) ⟨rfl, rfl⟩ (by
      rintro j - ⟨d, w⟩ hj ⟨rfl, hd⟩
      have hfit : i + j + h < d.length := hd ▸ (by omega)
      exact ⟨butterfly_append_left wl w c hfit, by simpa [butterfly] using hd⟩)
  exact congrArg Prod.fst key.1

theorem block_append_right (wl : Cplx) (h i : Nat) (b c : List Cplx) :
    block wl h (b.length + i) (b ++ c) = b ++ block wl h i c := by
  have key := forUp_rel (fun x y : List Cplx × Cplx => x = (b ++ y.1, y.2)) h
    (f := fun j st => butterfly wl h (b.length + i + j) st) (g := fun j st => butterfly wl h (i + j) st)
    (a := (b ++ c, cone)) (b := (c, cone)) rfl (by
      rintro j - ⟨d, w⟩ - rfl
      rw [Nat.add_assoc]
      exact butterfly_append_right wl w h (i + j) b d)
  exact congrArg Prod.fst key

/-! ### A stage on both halves -/

/-- A stage whose blocks fit into a half is that stage on each half. -/
theorem stage_append (s : Int) {n len : Nat} {b c : List Cplx} (hlen : len ∣ n) (hb : b.length = n) :
    stage s (n + n) len (b ++ c) = stage s n len b ++ stage s n len c := by
  have hdiv : n / len * len = n := Nat.div_mul_cancel hlen
  unfold stage
  rw [Nat.add_div_of_dvd_left hlen, forUp_add]
  have hleft := forUp_rel (fun x y : List Cplx => x = y ++ c ∧ y.length = b.length) (n / len)
    (f := fun blk a => block (stageTwiddle s len) (len / 2) (blk * len) a)
    (g := fun blk a => block (stageTwiddle s len) (len / 2) (blk * len) a) (a := b ++ c) (b := b) ⟨rfl, rfl⟩ (by
      rintro q - d hq ⟨rfl, hd⟩
      have hfit : (q + 1) * len ≤ n := hdiv ▸ Nat.mul_le_mul_right len hq
      have hstep : (q + 1) * len = q * len + len := by ring
      exact ⟨block_append_left _ c (by omega), by simpa using hd⟩)
  obtain ⟨hsplit, -⟩ := hleft
  rw [hsplit]
  exact forUp_rel (fun x y : List Cplx => x = _ ++ y) (n / len) rfl (by
    rintro q - d - rfl
    have hright := block_append_right (stageTwiddle s len) (len / 2) (q * len) (stage s n len b) d
    rw [stage_length, hb] at hright
    rw [Nat.add_mul, hdiv]
    exact hright)

/-- The stages of lengths 2, 4, …, 2^t over n elements (40_transform.md R142). -/
def stages (s : Int) (n t : Nat) (a : List Cplx) : List Cplx := forUp t (fun t a => stage s n (2 ^ (t + 1)) a) a

theorem transform_eq (f : FwdSign) (m : Nat) (inverse : Bool) (a : List Cplx) :
    transform f m inverse a =
      if inverse then (stages (twiddleSign f inverse) (2 ^ m) m (permute m a)).map fun z => cscale z (ofNat (2 ^ m))
      else stages (twiddleSign f inverse) (2 ^ m) m (permute m a) := rfl

theorem transform_forward (f : FwdSign) (m : Nat) (a : List Cplx) :
    transform f m false a = stages (twiddleSign f false) (2 ^ m) m (permute m a) := transform_eq f m false a

@[simp] theorem stages_length (s : Int) (n t : Nat) (a : List Cplx) : (stages s n t a).length = a.length :=
  forUp_induct (fun b : List Cplx => b.length = a.length) _ _ _ rfl fun _ _ _ hb => (stage_length _ _ _ _).trans hb

theorem stages_append (s : Int) {m t : Nat} {b c : List Cplx} (ht : t ≤ m) (hb : b.length = 2 ^ m) :
    stages s (2 ^ (m + 1)) t (b ++ c) = stages s (2 ^ m) t b ++ stages s (2 ^ m) t c := by
  induction t with
  | zero => rfl
  | succ t ih =>
    calc stages s (2 ^ (m + 1)) (t + 1) (b ++ c)
        = stage s (2 ^ m + 2 ^ m) (2 ^ (t + 1)) (stages s (2 ^ m) t b ++ stages s (2 ^ m) t c) := by
          rw [← ih (by omega), ← Nat.two_mul, ← pow_succ']
          rfl
      _ = _ := stage_append s (pow_dvd_pow 2 ht) ((stages_length s _ t b).trans hb)

/-! ### The last stage -/

/-- After the first n butterflies of the only block: the running twiddle, the pairs already combined and those to come. -/
structure Butterflied (wl : Cplx) (h : Nat) (a : List Cplx) (n : Nat) (st : List Cplx × Cplx) : Prop where
  length : st.1.length = a.length
  twiddle : st.2 = runningTwiddle wl n
  combined : ∀ j, j < n →
    st.1.getD j czero = cadd (a.getD j czero) (cmul (a.getD (j + h) czero) (runningTwiddle wl j)) ∧
    st.1.getD (j + h) czero = csub (a.getD j czero) (cmul (a.getD (j + h) czero) (runningTwiddle wl j))
  rest : ∀ j, n ≤ j → j < h → st.1.getD j czero = a.getD j czero ∧ st.1.getD (j + h) czero = a.getD (j + h) czero

theorem butterfly_getD (wl : Cplx) {h i : Nat} (st : List Cplx × Cplx) (hi : i + h < st.1.length) (k : Nat) :
    (butterfly wl h i st).1.getD k czero =
      if k = i + h then csub (st.1.getD i czero) (cmul (st.1.getD (i + h) czero) st.2)
      else if k = i then cadd (st.1.getD i czero) (cmul (st.1.getD (i + h) czero) st.2)
      else st.1.getD k czero :=
  set_set_getD (by omega) hi _ _ k

theorem Butterflied.succ {wl : Cplx} {h n : Nat} {a : List Cplx} {st : List Cplx × Cplx} (ha : 2 * h ≤ a.length)
    (hn : n < h) (hst : Butterflied wl h a n st) : Butterflied wl h a (n + 1) (butterfly wl h n st) := by
  obtain ⟨hlow, hhigh⟩ := hst.rest n le_rfl hn
  have hget := butterfly_getD wl (h := h) (i := n) st (by rw [hst.length]; omega)
  rw [hlow, hhigh, hst.twiddle] at hget
  refine ⟨by simpa [butterfly] using hst.length, ?_, fun j hj => ?_, fun j hj hjh => ?_⟩
  · simp [butterfly, hst.twiddle, runningTwiddle]
  · rw [hget j, hget (j + h)]
    by_cases hjn : j = n
    · subst hjn
      simp [show h ≠ 0 by omega]
    · rw [if_neg (by omega), if_neg hjn, if_neg (by omega), if_neg (by omega)]
      exact hst.combined j (by omega)
  · rw [hget j, hget (j + h), if_neg (by omega), if_neg (by omega), if_neg (by omega), if_neg (by omega)]
    exact hst.rest j (by omega) hjh

theorem block_getD (wl : Cplx) {h : Nat} {a : List Cplx} (ha : 2 * h ≤ a.length) {j : Nat} (hj : j < h) :
    (block wl h 0 a).getD j czero = cadd (a.getD j czero) (cmul (a.getD (j + h) czero) (runningTwiddle wl j)) ∧
    (block wl h 0 a).getD (j + h) czero = csub (a.getD j czero) (cmul (a.getD (j + h) czero) (runningTwiddle wl j)) := by
  have hall : Butterflied wl h a h (forUp h (fun j st => butterfly wl h (0 + j) st) (a, cone)) :=
    forUp_index (Butterflied wl h a) h _ (a, cone) ⟨rfl, rfl, by simp, fun _ _ _ => ⟨rfl, rfl⟩⟩ fun n st hn hst => by
      rw [Nat.zero_add]
      exact hst.succ ha hn
  exact hall.combined j hj

/-- The stage whose length is the whole list is one block. -/
theorem stage_whole (s : Int) (m : Nat) (a : List Cplx) :
    stage s (2 ^ (m + 1)) (2 ^ (m + 1)) a = block (stageTwiddle s (2 ^ (m + 1))) (2 ^ m) 0 a := by
  have hone : 2 ^ (m + 1) / 2 ^ (m + 1) = 1 := Nat.div_self (by positivity)
  have hhalf : 2 ^ (m + 1) / 2 = 2 ^ m := by omega
  simp only [stage, hone, hhalf, forUp, Nat.zero_mul]

end Sys2Proof.Machine
end

section
/-!
PROOFS. The transform in recursive form, and what FFT and IFFT leave (40_transform.md R141 to R144).
-/

namespace Sys2Proof.Machine

open Sys2Proof.Fp

/-! ### Even and odd elements -/

theorem evens_length (a : List Cplx) : (evens a).length = (a.length + 1) / 2 := by
  fun_induction evens a with
  | case1 => rfl
  | case2 => simp
  | case3 z y zs ih =>
    simp only [List.length_cons, ih]
    omega

theorem odds_length (a : List Cplx) : (odds a).length = a.length / 2 := by
  rw [odds, evens_length, List.length_tail]
  omega

theorem evens_getD (a : List Cplx) (i : Nat) : (evens a).getD i czero = a.getD (2 * i) czero := by
  fun_induction evens a generalizing i with
  | case1 => simp
  | case2 z => cases i <;> simp [Nat.mul_succ]
  | case3 z y zs ih =>
    cases i with
    | zero => rfl
    | succ i => exact ih i

theorem odds_getD (a : List Cplx) (i : Nat) : (odds a).getD i czero = a.getD (2 * i + 1) czero := by
  rw [odds, evens_getD]
  cases a <;> rfl

/-- Two lists of one length with the same elements are one list. -/
theorem list_ext_getD {a b : List Cplx} (hl : a.length = b.length)
    (h : ∀ i, i < b.length → a.getD i czero = b.getD i czero) : a = b :=
  List.ext_getElem hl fun i hi hi' => by simpa [List.getD_eq_getElem, hi, hi'] using h i hi'

/-- The permutation brings the even elements into the lower half and the odd ones into the upper, each half permuted. -/
theorem permute_succ {m : Nat} {a : List Cplx} (ha : a.length = 2 ^ (m + 1)) :
    permute (m + 1) a = permute m (evens a) ++ permute m (odds a) := by
  have he : (evens a).length = 2 ^ m := by rw [evens_length]; omega
  have ho : (odds a).length = 2 ^ m := by rw [odds_length]; omega
  refine list_ext_getD (by simp only [List.length_append, permute_length]; omega) fun i hi => ?_
  simp only [List.length_append, permute_length, he, ho] at hi
  rw [permute_getD ha (by omega)]
  by_cases hlow : i < 2 ^ m
  · rw [List.getD_append _ _ _ _ (by simpa [he] using hlow), permute_getD he hlow, evens_getD, bitrev_succ_lower hlow]
  · obtain ⟨j, rfl⟩ := Nat.exists_eq_add_of_le (Nat.le_of_not_lt hlow)
    rw [List.getD_append_right _ _ _ _ (by simp [he]), permute_length, he, Nat.add_sub_cancel_left,
      permute_getD ho (by omega), odds_getD, bitrev_succ_upper (by omega)]

/-! ### The recursion -/

/-- The transform is the last stage on the transforms of the even and of the odd elements. -/
theorem transform_succ (f : FwdSign) {m : Nat} {a : List Cplx} (ha : a.length = 2 ^ (m + 1)) :
    transform f (m + 1) false a =
      block (stageTwiddle (twiddleSign f false) (2 ^ (m + 1))) (2 ^ m) 0
        (transform f m false (evens a) ++ transform f m false (odds a)) := by
  have he : (permute m (evens a)).length = 2 ^ m := by rw [permute_length, evens_length]; omega
  rw [← stage_whole, transform_forward f m, transform_forward f m, ← stages_append _ le_rfl he, ← permute_succ ha]
  rfl

/-- Settles O21: the last stage's butterflies on the two half transforms. -/
theorem transformIsRecursiveRadixTwo : Obligations.TransformIsRecursiveRadixTwo := by
  refine ⟨fun f z => rfl, fun f m a ha j hj => ?_⟩
  have he : (transform f m false (evens a)).length = 2 ^ m := by rw [transform_length, evens_length]; omega
  have ho : (transform f m false (odds a)).length = 2 ^ m := by rw [transform_length, odds_length]; omega
  have hb := block_getD (stageTwiddle (twiddleSign f false) (2 ^ (m + 1)))
    (a := transform f m false (evens a) ++ transform f m false (odds a)) (by simp [evens_length, odds_length]; omega) hj
  rw [List.getD_append _ _ _ _ (by omega), List.getD_append_right _ _ _ _ (by omega), he, Nat.add_sub_cancel,
    ← transform_succ f ha] at hb
  cases f <;> exact hb

/-- 40_transform.md R141, R142: the inverse transform is the forward one under the other sign, divided by N. -/
theorem transform_inverse (f : FwdSign) (m : Nat) (a : List Cplx) :
    transform f m true a = (transform (opposite f) m false a).map fun z => cscale z (ofNat (2 ^ m)) := by
  cases f <;> rfl

/-! ### FFT and IFFT -/

/-- The checks of a command with one CPLX128 ×N buffer at ARG0 pass (40_transform.md R143). -/
theorem transformChecks_of_placed {s : State} (hn : s.args.a1.toNat ≤ s.config.log2nMax)
    (hp : Placed s 8 s.args.a0.toNat (16 * 2 ^ s.args.a1.toNat)) :
    (if s.log2nBad then some ErrCode.badArg else bufferErrors s.config.dmemSize [s.fftBuf] false) = none := by
  obtain ⟨halign, hrange⟩ := hp
  exact (transformChecks_eq_none s).mpr
    ⟨hn, (Buffer.aligned_iff _).mpr halign, (Buffer.inRange_iff _ _).mpr (.inr hrange)⟩

theorem completedWith_complete (s : State) {f : Finish} {c : ErrCode} (hf : f.code = c) :
    CompletedWith c (s.complete f) := by
  subst hf
  exact ⟨rfl, rfl, rfl, rfl⟩

theorem fftCore_getD (f : FwdSign) (mem : Memory) (b m : Nat) (inverse : Bool) {k : Nat} (hk : k < 2 ^ m) :
    readCplx (fftCore f mem b m inverse) b k = (transform f m inverse (readCplxs mem b (2 ^ m))).getD k czero := by
  rw [fftCore_element f mem b m inverse k hk, List.getD_eq_getElem]

/-- Settles O19: the checks pass, and the buffer reads back as the transform that was written. -/
theorem fftStoresTransform : Obligations.FftStoresTransform := fun s hn hp =>
  ⟨_, exec_of_passed .fft s (transformChecks_of_placed hn hp), completedWith_complete _ rfl,
    fun _ => fftCore_getD _ s.dmem _ _ false⟩

/-- Settles O20: as FFT, with the inverse transform by the forward one. -/
theorem ifftStoresScaledTransform : Obligations.IfftStoresScaledTransform := by
  refine fun s hn hp => ⟨_, exec_of_passed .ifft s (transformChecks_of_placed hn hp), completedWith_complete _ rfl,
    fun k hk => ?_⟩
  refine (fftCore_getD _ s.dmem _ _ true hk).trans ?_
  rw [transform_inverse, List.getD_eq_getElem _ _ (by simpa using hk), List.getD_eq_getElem _ _ (by simpa using hk),
    List.getElem_map]

end Sys2Proof.Machine
end

section
/-!
SUPPORT. Operations with a zero, the test for a zero (00_scope.md R10), and the range of a quantized value (R13).
-/

namespace Sys2Proof.Fp

open Sys2Proof.Machine

theorem zero_eq_zeroOf : Config.zero = zeroOf false := rfl

theorem neg_twoPi : neg Config.twoPi = Config.negTwoPi := by decide

theorem round_zero (neg : Bool) (k : Nat) : round neg 0 k = zeroOf neg := by
  simp [round, spacingLog, rneShift, zeroOf]

theorem ofNat_zero : ofNat 0 = zeroOf false := by rw [ofNat, Nat.zero_mul, round_zero]

@[simp] theorem zeroOf_magUnits (b : Bool) : (zeroOf b).magUnits = 0 := (magUnits_eq_zero_iff _).mpr (zeroOf_isZero b)

theorem mul_zeroOf {x : F64} (hx : x.isFinite = true) (b : Bool) : mul x (zeroOf b) = zeroOf (x.sign != b) := by
  rw [mul_of_finite hx (zeroOf_isFinite b), zeroOf_magUnits, zeroOf_sign, Nat.mul_zero, round_zero]

theorem zeroOf_mul {x : F64} (hx : x.isFinite = true) (b : Bool) : mul (zeroOf b) x = zeroOf (b != x.sign) := by
  rw [mul_of_finite (zeroOf_isFinite b) hx, zeroOf_magUnits, zeroOf_sign, Nat.zero_mul, round_zero]

theorem zeroOf_div {x : F64} (hx : x.isFinite = true) (h0 : x.isZero = false) (b : Bool) :
    div (zeroOf b) x = zeroOf (b != x.sign) := by
  rw [div_of_finite (zeroOf_isFinite b) hx h0, zeroOf_magUnits, zeroOf_sign, Nat.zero_mul, Nat.zero_div,
    Nat.zero_mod, if_pos rfl, round_zero]

theorem mul_sign {x y : F64} (hx : x.isFinite = true) (hy : y.isFinite = true) : (mul x y).sign = (x.sign != y.sign) := by
  rw [mul_of_finite hx hy, round_sign]

@[simp] theorem ofNat_sign (n : Nat) : (ofNat n).sign = false := round_sign false _ _

theorem ofNat_finite {n : Nat} (h : n ≤ 2 ^ 60) : (ofNat n).isFinite = true := (ofNat_close n h).1

theorem ofNat_isZero {n : Nat} (h0 : 1 ≤ n) (h : n ≤ 2 ^ 60) : (ofNat n).isZero = false := by
  obtain ⟨-, hval⟩ := ofNat_ge n h0 h
  by_contra hz
  rw [val, toRat_zero _ (Bool.not_eq_false _ ▸ hz)] at hval
  norm_num at hval

/-- A comparison with +0.0 is the test for a zero of either sign. -/
theorem eq_zero (x : F64) : Fp.eq x Config.zero = x.isZero := by
  have hunits : x.units = 0 ↔ x.isZero = true := by rw [← Int.natAbs_eq_zero, natAbs_units, magUnits_eq_zero_iff]
  have hzero : Config.zero.isNaN = false ∧ Config.zero.units = 0 := by decide
  cases hz : x.isZero with
  | true =>
    obtain ⟨hn, -⟩ := not_special x (isFinite_of_isZero x hz)
    simp [Fp.eq, hn, hzero, hunits, hz]
  | false => simp [Fp.eq, hzero, hunits, hz]

/-- A quantized value is a signed 16-bit one (00_scope.md R13). -/
theorem q16_bounds (q : QRound) (x : F64) : -32768 ≤ q16 q x ∧ q16 q x ≤ 32767 := by
  rw [q16, clamp16_eq]
  omega

end Sys2Proof.Fp
end

section
/-!
SUPPORT. Buffers that meet a statement's hypotheses pass the checks (20_memory.md R83 to R85); a buffer written whole reads
back whole; what NORMQ's body stores (42_deconv.md R203).
-/

namespace Sys2Proof.Machine

open Sys2Proof.Fp

/-! ### Checks -/

theorem State.log2nBad_eq_false {s : State} (h : s.args.a1.toNat ≤ s.config.log2nMax) : s.log2nBad = false :=
  decide_eq_false (not_lt.mpr h)

theorem countBad_eq_false {w : Word} (h : w.toNat < 2 ^ 32) : countBad w = false := decide_eq_false (not_le.mpr h)

theorem Buffer.aligned_inRange_of_placed {s : State} {b : Buffer} (h : Placed s (elemAlign b.fmt) b.base b.bytes) :
    b.aligned = true ∧ b.inRange s.config.dmemSize = true := by
  obtain ⟨halign, hrange⟩ := h
  exact ⟨b.aligned_iff.mpr halign, (b.inRange_iff _).mpr (.inr hrange)⟩

theorem Buffer.overlaps_eq_false_iff (b c : Buffer) : b.overlaps c = false ↔ Apart b.base b.bytes c.base c.bytes := by
  rw [← Bool.not_eq_true, Buffer.overlaps_iff]
  omega

/-! ### Buffers written whole -/

theorem readCplxs_writeCplxs (m : Memory) (b : Nat) (zs : List Cplx) : readCplxs (writeCplxs m b zs) b zs.length = zs :=
  List.ext_getElem (by simp) fun i _ hi => by rw [readCplxs_getElem, readCplx_writeCplxs m b zs i hi]

theorem readCplxs_fftCore (f : FwdSign) (mem : Memory) (b m : Nat) (inverse : Bool) :
    readCplxs (fftCore f mem b m inverse) b (2 ^ m) = transform f m inverse (readCplxs mem b (2 ^ m)) := by
  simpa [fftCore] using readCplxs_writeCplxs mem b (transform f m inverse (readCplxs mem b (2 ^ m)))

theorem readCplxs_tspSynth (mem : Memory) (b m : Nat) (phase : Nat → F64) :
    readCplxs (tspSynth mem b m phase) b (2 ^ m) = spectrum (2 ^ m) phase := by
  simpa [tspSynth] using readCplxs_writeCplxs mem b (spectrum (2 ^ m) phase)

theorem readCplxs_getD (m : Memory) (b : Nat) {n k : Nat} (hk : k < n) :
    (readCplxs m b n).getD k czero = readCplx m b k := by
  rw [List.getD_eq_getElem _ _ (by simpa using hk), readCplxs_getElem]

/-- 10_state.md R43: a CPLX128 buffer read as reals is its re parts. -/
theorem readReals_cplx128 (c : Config) (m : Memory) (b n : Nat) :
    readReals c .cplx128 m b n = (readCplxs m b n).map Cplx.re := by
  rw [readCplxs, List.map_map]
  rfl

theorem readF64_writePcms_outside (m : Memory) {d a : Nat} {vs : List Int} (h : a + 8 ≤ d ∨ d + 2 * vs.length ≤ a) :
    readF64 (writePcms m d vs) a = readF64 m a := by
  rw [readF64, Memory.memRead_congr m _ a 8 fun j hj => writePcms_outside m d vs (a + j) (by omega), readF64]

theorem readCplx_writePcms_outside (m : Memory) {d b k : Nat} {vs : List Int}
    (h : b + 16 * k + 16 ≤ d ∨ d + 2 * vs.length ≤ b + 16 * k) :
    readCplx (writePcms m d vs) b k = readCplx m b k := by
  rw [readCplx, readF64_writePcms_outside m (by omega), readF64_writePcms_outside m (by omega), readCplx]

/-! ### NORMQ's body -/

theorem normqBody_of_finite (c : Config) (m : Memory) (dst n : Nat) (fmt : Fmt) (src : Nat)
    (h : ∀ v ∈ readReals c fmt m src n, v.isFinite = true) :
    normqBody c m dst n fmt src =
      some (writePcms m dst (normalized c (readReals c fmt m src n)), peakOf (readReals c fmt m src n)) := by
  rcases normqBody_cases c m dst n fmt src with ⟨⟨v, hv, hinf⟩, -⟩ | ⟨-, hs⟩
  · simp [h v hv] at hinf
  · exact hs

theorem normalized_getElem (c : Config) (vs : List F64) {k : Nat} (hk : k < vs.length) :
    (normalized c vs)[k]'(by simpa using hk) = if (peakOf vs).isZero = true then 0 else quantize c (peakOf vs) vs[k] := by
  simp only [normalized, eq_zero]
  split <;> simp

/-- A normalized sample fits into 16 bits. -/
theorem normalized_bounds (c : Config) (vs : List F64) : ∀ v ∈ normalized c vs, -32768 ≤ v ∧ v ≤ 32767 := by
  intro v hv
  obtain ⟨k, hk, rfl⟩ := List.getElem_of_mem hv
  rw [normalized_getElem c vs (by simpa using hk)]
  split
  · decide
  · exact q16_bounds _ _

theorem toInt_ofInt_of_bounds {v : Int} (h : -32768 ≤ v ∧ v ≤ 32767) : (BitVec.ofInt 16 v).toInt = v := by
  rw [BitVec.toInt_ofInt, Int.bmod_eq_of_le] <;> omega

/-- The samples NORMQ's body stores read back as the normalized ones. -/
theorem readPcm_normalized (c : Config) (m : Memory) (dst : Nat) (vs : List F64) {k : Nat} (hk : k < vs.length) :
    readPcm (writePcms m dst (normalized c vs)) (dst + 2 * k) =
      if (peakOf vs).isZero = true then 0 else quantize c (peakOf vs) vs[k] := by
  have hk' : k < (normalized c vs).length := by simpa using hk
  rw [readPcm_writePcms m dst _ k hk', toInt_ofInt_of_bounds (normalized_bounds c vs _ (List.getElem_mem hk')),
    normalized_getElem c vs hk]

end Sys2Proof.Machine
end

section
/-!
PROOFS. TSP synthesis (41_tsp.md R170 to R176): the bins of a spectrum, the phases at bin 0, what TSP_UP, TSP_DOWN and TSPGEN
leave.
-/

namespace Sys2Proof.Machine

open Sys2Proof.Fp

/-! ### Bins (41_tsp.md R172) -/

theorem spectrum_getD {n k : Nat} (phase : Nat → F64) (hk : k < n) :
    (spectrum n phase).getD k czero = spectrumBin n phase k := by
  rw [List.getD_eq_getElem _ _ (by simpa using hk)]
  simp [spectrum]

theorem spectrumBin_lower {n k : Nat} (phase : Nat → F64) (h : k < n / 2) : spectrumBin n phase k = expi (phase k) :=
  if_pos h

theorem spectrumBin_nyquist (n : Nat) (phase : Nat → F64) :
    spectrumBin n phase (n / 2) = ⟨Config.cos (phase (n / 2)), Config.zero⟩ := by simp [spectrumBin, expi]

theorem spectrumBin_upper {n k : Nat} (phase : Nat → F64) (h : n / 2 < k) :
    spectrumBin n phase k = conj (expi (phase (n - k))) := by
  rw [spectrumBin, if_neg h.not_gt, if_neg h.ne']

theorem spectrum_hermitian {n k : Nat} (phase : Nat → F64) (h1 : 1 ≤ k) (hk : k < n / 2) :
    (spectrum n phase).getD (n - k) czero = conj ((spectrum n phase).getD k czero) := by
  rw [spectrum_getD phase (by omega), spectrum_getD phase (by omega), spectrumBin_upper phase (by omega),
    spectrumBin_lower phase hk, Nat.sub_sub_self (by omega)]

/-! ### The phases at bin 0 -/

theorem binSquare_at_zero {n : Nat} (h1 : 1 ≤ n) (h2 : n ≤ 2 ^ 60) : binSquare n 0 = zeroOf false := by
  have hdiv : div (ofNat 0) (ofNat n) = zeroOf false := by
    rw [ofNat_zero, zeroOf_div (ofNat_finite h2) (ofNat_isZero h1 h2), ofNat_sign]
    rfl
  rw [binSquare, hdiv, mul_zeroOf (zeroOf_isFinite false), zeroOf_sign]
  rfl

/-- A multiple of ±TWO_PI by an integer is finite. -/
theorem mul_ofNat_finite {c : F64} (hc : Within 8 c) {j : Nat} (hj : j ≤ 2 ^ 60) : (mul c (ofNat j)).isFinite = true := by
  have wj := Within.ofNat j (2 ^ 60) (by exact_mod_cast hj) (by norm_num) le_rfl
  exact (hc.mul wj (by norm_num) (le_900 (by norm_num))).1

/-- At bin 0 the phase of H is −0.0: a −0.0 less a +0.0. -/
theorem thetaUp_at_zero {n : Nat} (h1 : 1 ≤ n) (h2 : n ≤ 2 ^ 60) : thetaUp n 0 = zeroOf true := by
  have hleft : mul (mul Config.negTwoPi (ofNat (n / 2))) (binSquare n 0) = zeroOf true := by
    have hhalf : n / 2 ≤ 2 ^ 60 := by omega
    rw [binSquare_at_zero h1 h2, mul_zeroOf (mul_ofNat_finite within_negTwoPi hhalf),
      mul_sign within_negTwoPi.1 (ofNat_finite hhalf), ofNat_sign]
    decide
  have hright : div (mul (mul Config.twoPi (ofNat 0)) (ofNat (n / 4))) (ofNat n) = zeroOf false := by
    rw [ofNat_zero, mul_zeroOf within_twoPi.1, zeroOf_mul (ofNat_finite (by omega)),
      zeroOf_div (ofNat_finite h2) (ofNat_isZero h1 h2), ofNat_sign, ofNat_sign]
    decide
  rw [thetaUp, hleft, hright]
  decide

/-- At bin 0 the phase of G is +0.0. -/
theorem phiDown_at_zero {n j : Nat} (h1 : 1 ≤ n) (h2 : n ≤ 2 ^ 60) (hj : j ≤ 2 ^ 60) : phiDown n j 0 = zeroOf false := by
  rw [phiDown, binSquare_at_zero h1 h2, mul_zeroOf (mul_ofNat_finite within_twoPi hj),
    mul_sign within_twoPi.1 (ofNat_finite hj), ofNat_sign]
  decide

/-- 00_scope.md R14, P1: exp(i · ±0.0) keeps the sign of the zero in its im part. -/
theorem expi_zeroOf (b : Bool) : expi (zeroOf b) = ⟨Config.one, zeroOf b⟩ := by simp [expi, Config.cos, Config.sin]

/-- Bin 0 of a spectrum whose phase is a zero there: that zero is kept in the im part, but for N = 1, where bin 0 is the
Nyquist bin. -/
theorem spectrum_bin_zero {n : Nat} {phase : Nat → F64} {b : Bool} (h1 : 1 ≤ n) (h : phase 0 = zeroOf b) :
    (spectrum n phase).getD 0 czero = ⟨Config.one, zeroOf (b && decide (2 ≤ n))⟩ := by
  rw [spectrum_getD phase h1]
  by_cases hn : 2 ≤ n
  · rw [spectrumBin_lower phase (by omega), h, expi_zeroOf, decide_eq_true hn, Bool.and_true]
  · obtain rfl : n = 1 := by omega
    have hcos : Config.cos (zeroOf b) = Config.one := congrArg Cplx.re (expi_zeroOf b)
    refine (spectrumBin_nyquist 1 phase).trans ?_
    rw [h, hcos, decide_eq_false hn, Bool.and_false, zero_eq_zeroOf]

/-- Settles O25: bin N − k is above the Nyquist bin and mirrors back to k; the phases at bin 0 are −0.0 and +0.0. -/
theorem spectraAreHermitian : Obligations.SpectraAreHermitian := by
  refine ⟨fun n phase k h1 hk => spectrum_hermitian phase h1 hk, fun n phase hn => ?_, fun m h1 hm => ?_,
    fun m j hm hj => ?_⟩
  · rw [spectrum_getD phase (by omega), spectrumBin_nyquist]
  · have htwo : 2 ≤ 2 ^ m := Nat.le_self_pow (by omega) 2
    rw [spectrum_bin_zero Nat.one_le_two_pow (thetaUp_at_zero Nat.one_le_two_pow (two_pow_le m hm)),
      decide_eq_true htwo, zero_eq_zeroOf, neg_zeroOf]
    rfl
  · rw [spectrum_bin_zero Nat.one_le_two_pow (phiDown_at_zero Nat.one_le_two_pow (two_pow_le m hm) (by omega))]
    rfl

/-! ### TSP_UP and TSP_DOWN -/

/-- Settles O23: the checks pass, and the synthesis leaves the bins of `thetaUp`, which is R170's order of operations. -/
theorem tspUpStoresExcitationSpectrum : Obligations.TspUpStoresExcitationSpectrum := by
  refine fun s hn hp => ⟨_, exec_of_passed .tspUp s (transformChecks_of_placed hn hp), completedWith_complete _ rfl,
    fun k hk => ?_⟩
  dsimp only
  rw [neg_twoPi]
  exact tspSynth_element s.dmem _ _ (thetaUp s.points) k hk

theorem tspDownCheck_of_placed {s : State} (hn : s.args.a1.toNat ≤ s.config.log2nMax) (hj : s.args.a2.toNat < 2 ^ 32)
    (hp : Placed s 8 s.args.a0.toNat (16 * 2 ^ s.args.a1.toNat)) : tspDownCheck s = none := by
  rw [tspDownCheck, countBad_eq_false hj, Bool.or_false]
  exact transformChecks_of_placed hn hp

/-- Settles O24: as TSP_UP, with the bins of `phiDown`. -/
theorem tspDownStoresInverseFilter : Obligations.TspDownStoresInverseFilter := fun s hn hj hp =>
  ⟨_, exec_of_passed .tspDown s (tspDownCheck_of_placed hn hj hp), completedWith_complete _ rfl,
    fun k hk => tspSynth_element s.dmem _ _ (phiDown s.points s.args.a2.toNat) k hk⟩

/-! ### TSPGEN (41_tsp.md R175) -/

theorem tspgenCheck_of_placed {s : State} (hn : s.args.a1.toNat ≤ s.config.log2nMax)
    (hdst : Placed s 2 s.args.a0.toNat (2 * 2 ^ s.args.a1.toNat))
    (hwork : Placed s 8 s.args.a2.toNat (16 * 2 ^ s.args.a1.toNat))
    (hapart : Apart s.args.a0.toNat (2 * 2 ^ s.args.a1.toNat) s.args.a2.toNat (16 * 2 ^ s.args.a1.toNat)) :
    tspgenCheck s = none := by
  have hd := Buffer.aligned_inRange_of_placed (b := s.tspgenDst) hdst
  have hw := Buffer.aligned_inRange_of_placed (b := s.tspgenWork) hwork
  have ho := (Buffer.overlaps_eq_false_iff s.tspgenDst s.tspgenWork).mpr hapart
  rw [tspgenCheck, State.log2nBad_eq_false hn, if_neg Bool.false_ne_true, bufferErrors_eq_none]
  simp [hd, hw, ho]

@[simp] theorem tspgenSignal_length (s : State) : (tspgenSignal s).length = s.points := by simp [tspgenSignal]

/-- After the synthesis and the inverse transform work holds the complex excitation. -/
theorem readCplxs_tspgenWorkMem (s : State) :
    readCplxs (tspgenWorkMem s) s.args.a2.toNat s.points = tspgenSignal s := by
  unfold tspgenWorkMem State.points
  rw [readCplxs_fftCore, readCplxs_tspSynth]
  rfl

/-- The excitation's re parts, which TSPGEN normalizes. -/
def tspgenSamples (s : State) : List F64 := (tspgenSignal s).map Cplx.re

@[simp] theorem tspgenSamples_length (s : State) : (tspgenSamples s).length = s.points := by simp [tspgenSamples]

/-- The excitation is finite, so NORMQ's body does not raise (log 16). -/
theorem tspgenFinish_eq {s : State} (h : s.log2n ≤ 26) :
    tspgenFinish s =
      ⟨.ok, { s.res with r0 := (peakOf (tspgenSamples s)).bits, r1 := BitVec.ofNat 64 s.points },
        writePcms (tspgenWorkMem s) s.args.a0.toNat (normalized s.config (tspgenSamples s))⟩ := by
  have hreals : readReals s.config .cplx128 (tspgenWorkMem s) s.args.a2.toNat s.points = tspgenSamples s := by
    rw [readReals_cplx128, readCplxs_tspgenWorkMem, tspgenSamples]
  have hfin : ∀ v ∈ tspgenSamples s, v.isFinite = true := by
    intro v hv
    obtain ⟨z, hz, rfl⟩ := List.mem_map.mp hv
    exact tspgenSignal_finite s h z hz
  rw [tspgenFinish, normqBody_of_finite _ _ _ _ _ _ (by rwa [hreals]), hreals]

/-- Settles O26: the checks pass, NORMQ's body does not raise, and dst is written apart from work. -/
theorem tspgenStoresExcitation : Obligations.TspgenStoresExcitation := by
  intro s hl hn hdst hwork hapart
  have hfinish := tspgenFinish_eq (log2n_le s hl hn)
  refine ⟨_, exec_of_passed .tspgen s (tspgenCheck_of_placed hn hdst hwork hapart),
    completedWith_complete _ (congrArg Finish.code hfinish), ?_⟩
  rw [State.complete_res, State.complete_dmem, commandFinish, hfinish]
  have hpts : s.points = 2 ^ s.args.a1.toNat := rfl
  rw [← hpts] at hapart ⊢
  refine ⟨rfl, rfl, fun k hk => ⟨?_, ?_⟩⟩
  · have hout : s.args.a2.toNat + 16 * k + 16 ≤ s.args.a0.toNat ∨
        s.args.a0.toNat + 2 * s.points ≤ s.args.a2.toNat + 16 * k := by omega
    rw [readCplx_writePcms_outside _ (by simpa using hout), ← readCplxs_getD _ _ hk, readCplxs_tspgenWorkMem]
  · rw [readPcm_normalized _ _ _ _ (by simpa using hk), List.getD_eq_getElem _ _ (by simpa using hk)]
    simp only [tspgenSamples, List.getElem_map]
    rfl

end Sys2Proof.Machine
end

section
/-!
SUPPORT. Rounding keeps order with the values of the format (00_scope.md R10), so a magnitude over a larger one is at most 1; the
integer part keeps order too (R13).
-/

namespace Sys2Proof.Fp

open Sys2Proof.Machine

/-! ### Magnitudes -/

theorem abs_toRat_eq (x : F64) : |x.toRat| = x.magUnits / 2 ^ 1074 := by
  rw [F64.toRat, abs_div, abs_of_pos (by positivity : (0 : ℚ) < 2 ^ 1074), ← Int.cast_abs, Int.abs_eq_natAbs, natAbs_units,
    Int.cast_natCast]

theorem abs_toRat_le_iff (x y : F64) : |x.toRat| ≤ |y.toRat| ↔ x.magUnits ≤ y.magUnits := by
  rw [abs_toRat_eq, abs_toRat_eq, div_le_div_iff_of_pos_right (by positivity), Nat.cast_le]

theorem abs_toRat_eq_iff (x y : F64) : |x.toRat| = |y.toRat| ↔ x.magUnits = y.magUnits := by
  rw [le_antisymm_iff, le_antisymm_iff, abs_toRat_le_iff, abs_toRat_le_iff]

theorem units_of_nonneg {x : F64} (h : x.sign = false) : x.units = x.magUnits := by simp [F64.units, h]

theorem toRat_nonneg {x : F64} (h : x.sign = false) : 0 ≤ x.toRat := by
  rw [F64.toRat, units_of_nonneg h]
  positivity

/-- The largest finite value is (2^53 − 1) · 2^971, half a spacing below the least magnitude that rounds to infinity. -/
theorem abs_toRat_lt {x : F64} (h : x.isFinite = true) : |x.toRat| < 2 ^ 1024 - 2 ^ 970 := by
  have hbound : (2 ^ 1024 - 2 ^ 970 : ℚ) * 2 ^ 1074 = (2 ^ 54 - 1) * 2 ^ 2044 := by exact_mod_cast maxFinite_bound
  have he : x.expField - 1 ≤ 2045 := by
    have hlt : x.expField < 2 ^ 11 := Nat.mod_lt _ (by norm_num)
    simp only [F64.isFinite, bne_iff_ne, ne_eq] at h
    omega
  have hmag : (x.magUnits : ℚ) ≤ (2 ^ 53 - 1) * 2 ^ 2045 := by
    have hsig : (x.significand : ℚ) ≤ 2 ^ 53 - 1 :=
      le_sub_iff_add_le.mpr (by exact_mod_cast Nat.succ_le_of_lt (significand_lt x))
    rw [F64.magUnits]
    push_cast
    exact mul_le_mul hsig (pow_le_pow_right₀ one_le_two he) (by positivity) (by norm_num)
  rw [abs_toRat_eq, div_lt_iff₀ (by positivity), hbound]
  refine hmag.trans_lt ?_
  rw [pow_succ (2 : ℚ) 2044, ← mul_assoc, mul_right_comm]
  exact mul_lt_mul_of_pos_right (by norm_num) (by positivity)

/-! ### Rounding keeps order -/

/-- An exact value between −z and z, for a finite z, rounds to a value between them: −z or z would be nearer. -/
theorem abs_toRat_le_of_roundsTo {y : ℚ} {r z : F64} (h : RoundsTo y r) (hz : z.isFinite = true) (hy : |y| ≤ z.toRat) :
    r.isFinite = true ∧ |r.toRat| ≤ z.toRat := by
  obtain ⟨⟨hfin, -, hnear⟩ | ⟨-, hlarge⟩, -⟩ := h
  · refine ⟨hfin, ?_⟩
    obtain ⟨hlo, hhi⟩ := abs_le.mp hy
    obtain ⟨hpos, -⟩ := hnear z hz
    obtain ⟨hneg, -⟩ := hnear (neg z) (by simpa using hz)
    rw [abs_of_nonneg (sub_nonneg.mpr hhi)] at hpos
    rw [toRat_neg, abs_of_nonpos (a := -z.toRat - y) (by linarith)] at hneg
    exact abs_le.mpr ⟨by linarith [(abs_le.mp hneg).1], by linarith [(abs_le.mp hpos).2]⟩
  · exact absurd (hlarge.trans (hy.trans (le_abs_self _))) (not_le.mpr (abs_toRat_lt hz))

/-- −z and z themselves round to themselves. -/
theorem abs_toRat_eq_of_roundsTo {y : ℚ} {r z : F64} (h : RoundsTo y r) (hz : z.isFinite = true) (hy : |y| = z.toRat) :
    |r.toRat| = z.toRat := by
  obtain ⟨hr, -⟩ := abs_toRat_le_of_roundsTo h hz hy.le
  rw [← hy]
  rcases abs_choice y with hpos | hneg
  · rw [toRat_eq_of_roundsTo h hr hz (by rw [← hy, hpos])]
  · rw [toRat_eq_of_roundsTo h hr (z := neg z) (by simpa using hz) (by rw [toRat_neg, ← hy, hneg, neg_neg])]

theorem one_exact : Config.one.isFinite = true ∧ Config.one.toRat = 1 := by
  have h : ofNat 1 = Config.one := by decide +kernel
  obtain ⟨hfin, hval⟩ := ofNat_exact (n := 1) (by norm_num)
  rw [h] at hfin hval
  exact ⟨hfin, by exact_mod_cast hval⟩

section
variable {v p : F64} (hv : v.isFinite = true) (hp : p.isFinite = true) (h0 : p.isZero = false)
include hv hp h0

/-- A magnitude over a larger one is at most 1. -/
theorem div_le_one_of_magUnits_le (hle : v.magUnits ≤ p.magUnits) :
    (div v p).isFinite = true ∧ |(div v p).toRat| ≤ 1 := by
  obtain ⟨hone, hval⟩ := one_exact
  have hquot : |v.toRat / p.toRat| ≤ Config.one.toRat := by
    rw [hval, abs_div]
    exact div_le_one_of_le₀ ((abs_toRat_le_iff v p).mpr hle) (abs_nonneg _)
  rw [← hval]
  exact abs_toRat_le_of_roundsTo (div_roundsTo hv hp h0) hone hquot

theorem div_eq_one_of_magUnits_eq (heq : v.magUnits = p.magUnits) : |(div v p).toRat| = 1 := by
  obtain ⟨hone, hval⟩ := one_exact
  have hne : |p.toRat| ≠ 0 := by
    have hmag : p.magUnits ≠ 0 := fun hm => by simp [(magUnits_eq_zero_iff p).mp hm] at h0
    rw [abs_toRat_eq]
    positivity
  have hquot : |v.toRat / p.toRat| = Config.one.toRat := by
    rw [hval, abs_div, (abs_toRat_eq_iff v p).mpr heq, div_self hne]
  rw [← hval]
  exact abs_toRat_eq_of_roundsTo (div_roundsTo hv hp h0) hone hquot

theorem div_sign : (div v p).sign = (v.sign != p.sign) := by rw [div_of_finite hv hp h0, round_sign]

end

section
variable {r g : F64} (hr : r.isFinite = true) (hg : g.isFinite = true) (hs : g.sign = false)
include hr hg hs

/-- A factor of magnitude at most 1 leaves a magnitude of at most the other factor's. -/
theorem mul_le_of_abs_le_one (hle : |r.toRat| ≤ 1) : (mul r g).isFinite = true ∧ (mul r g).magUnits ≤ g.magUnits := by
  have hprod : |r.toRat * g.toRat| ≤ g.toRat := by
    rw [abs_mul, abs_of_nonneg (toRat_nonneg hs)]
    exact mul_le_of_le_one_left (toRat_nonneg hs) hle
  obtain ⟨hfin, hval⟩ := abs_toRat_le_of_roundsTo (mul_roundsTo hr hg) hg hprod
  exact ⟨hfin, (abs_toRat_le_iff _ _).mp (hval.trans (le_abs_self _))⟩

theorem mul_eq_of_abs_eq_one (heq : |r.toRat| = 1) : (mul r g).magUnits = g.magUnits := by
  have hprod : |r.toRat * g.toRat| = g.toRat := by rw [abs_mul, heq, one_mul, abs_of_nonneg (toRat_nonneg hs)]
  have hval := abs_toRat_eq_of_roundsTo (mul_roundsTo hr hg) hg hprod
  rw [← abs_of_nonneg (toRat_nonneg hs)] at hval
  exact (abs_toRat_eq_iff _ _).mp hval

end

/-! ### The integer part keeps order -/

theorem rneShift_mono {m n : Nat} (d : Nat) (h : m ≤ n) : rneShift m d ≤ rneShift n d := by
  by_contra hlt
  have hne : m ≠ n := by
    rintro rfl
    exact hlt le_rfl
  obtain ⟨-, hm, -⟩ := rneShift_spec m d
  obtain ⟨hn, -, -⟩ := rneShift_spec n d
  have hstep : (rneShift n d + 1) * 2 ^ d ≤ rneShift m d * 2 ^ d := Nat.mul_le_mul_right _ (not_le.mp hlt)
  rw [Nat.add_one_mul] at hstep
  omega

theorem integerPart_mono (q : QRound) {x y : F64} (h : x.magUnits ≤ y.magUnits) : integerPart q x ≤ integerPart q y := by
  unfold integerPart
  cases q with
  | trunc => exact Nat.div_le_div_right h
  | nearestEven => exact rneShift_mono _ h

theorem integerPart_congr (q : QRound) {x y : F64} (h : x.magUnits = y.magUnits) : integerPart q x = integerPart q y :=
  le_antisymm (integerPart_mono q h.le) (integerPart_mono q h.ge)

/-! ### |x| -/

/-- |x| clears the sign bit and changes no other field (00_scope.md R10). -/
theorem abs_fields (x : F64) : (abs x).sign = false ∧ (abs x).expField = x.expField ∧ (abs x).frac = x.frac := by
  have hx := x.bits.isLt
  have ha : (abs x).bits.toNat = x.bits.toNat % 2 ^ 63 := by
    rw [abs, BitVec.toNat_ofNat]
    omega
  refine ⟨?_, ?_, ?_⟩
  · rw [F64.sign, ha, decide_eq_false_iff_not]
    omega
  · rw [F64.expField, F64.expField, ha]
    omega
  · rw [F64.frac, F64.frac, ha]
    omega

@[simp] theorem abs_sign (x : F64) : (abs x).sign = false := (abs_fields x).1
@[simp] theorem abs_isFinite (x : F64) : (abs x).isFinite = x.isFinite := by
  obtain ⟨-, he, -⟩ := abs_fields x
  rw [F64.isFinite, F64.isFinite, he]
@[simp] theorem abs_magUnits (x : F64) : (abs x).magUnits = x.magUnits := by
  obtain ⟨-, he, hf⟩ := abs_fields x
  rw [F64.magUnits, F64.magUnits, F64.significand, F64.significand, he, hf]

theorem lt_of_nonneg {x y : F64} (hx : x.isFinite = true) (hy : y.isFinite = true) (sx : x.sign = false)
    (sy : y.sign = false) : lt x y = decide (x.magUnits < y.magUnits) := by
  rw [lt_of_not_nan (not_special x hx).1 (not_special y hy).1, units_of_nonneg sx, units_of_nonneg sy]
  simp only [Nat.cast_lt]

end Sys2Proof.Fp
end

section
/-!
PROOFS. The normalization (42_deconv.md R203): the peak is the largest magnitude, and with the DOC's literals the output stays
within ±29490, which a sample at the peak attains.
-/

namespace Sys2Proof.Machine

open Sys2Proof.Fp

/-! ### The peak -/

/-- p is the largest magnitude of the values: +0.0, or the magnitude of a nonzero one. -/
structure IsPeak (vs : List F64) (p : F64) : Prop where
  finite : p.isFinite = true
  sign : p.sign = false
  largest : ∀ v ∈ vs, v.magUnits ≤ p.magUnits
  attained : p = Config.zero ∨ ∃ v ∈ vs, v.magUnits = p.magUnits ∧ 0 < v.magUnits

theorem peakOf_concat (vs : List F64) (v : F64) :
    peakOf (vs ++ [v]) = if lt (peakOf vs) (abs v) then abs v else peakOf vs := by
  rw [peakOf, List.foldl_concat]
  rfl

/-- The running maximum is the largest magnitude of the values so far. -/
theorem peakOf_isPeak {vs : List F64} (h : ∀ v ∈ vs, v.isFinite = true) : IsPeak vs (peakOf vs) := by
  induction vs using List.reverseRecOn with
  | nil => exact ⟨rfl, rfl, by simp, .inl rfl⟩
  | append_singleton vs v ih =>
    obtain ⟨hvs, hv⟩ := List.forall_mem_append.mp h
    have hvfin := hv v (List.mem_singleton_self v)
    obtain ⟨hfin, hsign, hlargest, hattained⟩ := ih hvs
    rw [peakOf_concat, lt_of_nonneg hfin (by simpa using hvfin) hsign (abs_sign v), abs_magUnits]
    by_cases hlt : (peakOf vs).magUnits < v.magUnits
    · rw [decide_eq_true hlt, if_pos rfl]
      refine ⟨by simpa using hvfin, abs_sign v, List.forall_mem_append.mpr ⟨fun w hw => ?_, by simp⟩,
        .inr ⟨v, by simp, ?_⟩⟩
      · rw [abs_magUnits]
        exact (hlargest w hw).trans hlt.le
      · exact ⟨(abs_magUnits v).symm, Nat.zero_lt_of_lt hlt⟩
    · rw [decide_eq_false hlt, if_neg Bool.false_ne_true]
      refine ⟨hfin, hsign, List.forall_mem_append.mpr ⟨hlargest, by simpa using hlt⟩, hattained.imp_right ?_⟩
      exact fun ⟨w, hw, hpeak⟩ => ⟨w, List.mem_append_left _ hw, hpeak⟩

theorem IsPeak.exists_mem {vs : List F64} {p : F64} (h : IsPeak vs p) (hne : vs ≠ []) :
    ∃ v ∈ vs, v.magUnits = p.magUnits := by
  rcases h.attained with rfl | ⟨v, hv, heq, -⟩
  · obtain ⟨v, hv⟩ := List.exists_mem_of_ne_nil vs hne
    exact ⟨v, hv, Nat.le_zero.mp (h.largest v hv)⟩
  · exact ⟨v, hv, heq⟩

theorem IsPeak.eq_zero {vs : List F64} {p : F64} (h : IsPeak vs p) (h0 : ∀ v ∈ vs, v.magUnits = 0) : p = Config.zero := by
  rcases h.attained with hz | ⟨v, hv, -, hpos⟩
  · exact hz
  · exact absurd (h0 v hv) hpos.ne'

/-! ### The output samples -/

theorem normalized_getD (c : Config) (vs : List F64) {k : Nat} (hk : k < vs.length) :
    (normalized c vs).getD k 0 =
      if (peakOf vs).isZero = true then 0 else quantize c (peakOf vs) (vs.getD k Config.zero) := by
  rw [List.getD_eq_getElem _ _ (by simpa using hk), List.getD_eq_getElem _ _ hk, normalized_getElem c vs hk]

/-- The DOC's gain, 0.9 of 32767 rounded: a little more than 29490, under either rounding (42_deconv.md R203). -/
theorem gain_of_docLiterals {c : Config} (hc : c.docLiterals = true) :
    (gain c).isFinite = true ∧ (gain c).sign = false ∧ ∀ q, integerPart q (gain c) = 29490 := by
  simp only [Config.docLiterals, Bool.and_eq_true, decide_eq_true_eq] at hc
  obtain ⟨⟨⟨⟨-, hpeak⟩, -⟩, hscale⟩, -⟩ := hc
  have hgain : gain c = ⟨0x40DCCC9333333333#64⟩ := by
    rw [gain, hpeak, hscale]
    decide +kernel
  rw [hgain]
  refine ⟨by decide, by decide, fun q => ?_⟩
  cases q <;> decide +kernel

section
variable {c : Config} {p v : F64} (hc : c.docLiterals = true) (hp : p.isFinite = true) (hs : p.sign = false)
  (h0 : p.isZero = false) (hv : v.isFinite = true)
include hc hp hs h0 hv

/-- A sample of magnitude at most the peak's: the sign is the value's, the clamp does not act. -/
theorem quantize_eq (hle : v.magUnits ≤ p.magUnits) :
    integerPart c.qround (mul (div v p) (gain c)) ≤ 29490 ∧
      quantize c p v = signFactor v.sign * integerPart c.qround (mul (div v p) (gain c)) := by
  obtain ⟨hgfin, hgsign, hgint⟩ := gain_of_docLiterals hc
  obtain ⟨hqfin, hq⟩ := div_le_one_of_magUnits_le hv hp h0 hle
  obtain ⟨hfin, hmag⟩ := mul_le_of_abs_le_one hqfin hgfin hgsign hq
  have hint := integerPart_mono c.qround hmag
  have hsign : (mul (div v p) (gain c)).sign = v.sign := by
    rw [mul_sign hqfin hgfin, div_sign hv hp h0, hs, hgsign, Bool.bne_false, Bool.bne_false]
  rw [hgint] at hint
  refine ⟨hint, ?_⟩
  rw [quantize, q16_of_finite _ hfin, hsign, signFactor]
  split <;> omega

theorem quantize_bounds (hle : v.magUnits ≤ p.magUnits) : -29490 ≤ quantize c p v ∧ quantize c p v ≤ 29490 := by
  obtain ⟨hint, heq⟩ := quantize_eq hc hp hs h0 hv hle
  rw [heq, signFactor]
  split <;> omega

theorem quantize_at_peak (heq : v.magUnits = p.magUnits) :
    quantize c p v = if v.sign = true then -29490 else 29490 := by
  obtain ⟨hgfin, hgsign, hgint⟩ := gain_of_docLiterals hc
  obtain ⟨hqfin, -⟩ := div_le_one_of_magUnits_le hv hp h0 heq.le
  have hmag := mul_eq_of_abs_eq_one hqfin hgfin hgsign (div_eq_one_of_magUnits_eq hv hp h0 heq)
  rw [(quantize_eq hc hp hs h0 hv heq.le).2, integerPart_congr c.qround hmag, hgint, signFactor]
  split <;> rfl

end

/-- Settles O31: the quotient by the peak is at most 1 in magnitude and 1 at the peak, so the product is at most the gain,
whose integer part is 29490. -/
theorem normalizedPeakIs29490 : Obligations.NormalizedPeakIs29490 := by
  intro c vs hvs
  have hpeak := peakOf_isPeak hvs
  refine ⟨hpeak.largest, hpeak.exists_mem, hpeak.finite, hpeak.sign, fun k hk => normalized_getD c vs hk, fun h0 => ?_,
    fun hc => ⟨fun r hr => ?_, fun v hv heq hne => ?_⟩⟩
  · have hzero := hpeak.eq_zero h0
    refine ⟨hzero, fun r hr => ?_⟩
    obtain ⟨k, hk, rfl⟩ := List.getElem_of_mem hr
    rw [normalized_getElem c vs (by simpa using hk), hzero]
    rfl
  · obtain ⟨k, hk, rfl⟩ := List.getElem_of_mem hr
    have hk' : k < vs.length := by simpa using hk
    rw [normalized_getElem c vs hk']
    split
    next => decide
    next hz =>
      exact quantize_bounds hc hpeak.finite hpeak.sign (Bool.not_eq_true _ ▸ hz) (hvs _ (List.getElem_mem hk'))
        (hpeak.largest _ (List.getElem_mem hk'))
  · have hz : (peakOf vs).isZero = false := by
      rw [← Bool.not_eq_true, ← magUnits_eq_zero_iff, ← heq]
      exact hne
    exact quantize_at_peak hc hpeak.finite hpeak.sign hz (hvs v hv) heq

end Sys2Proof.Machine
end

section
/-!
PROOFS. The data path of the deconvolution engine (42_deconv.md R200 to R203): LOAD16, DECONV_MUL, NORMQ.
-/

namespace Sys2Proof.Machine

open Sys2Proof.Fp

/-- The buffer checks pass on placed buffers that do not clash (20_memory.md R83 to R85). -/
theorem bufferErrors_of_placed {s : State} {bufs : List Buffer} {clash : Bool}
    (hp : bufs.Forall fun b => Placed s (elemAlign b.fmt) b.base b.bytes) (hc : clash = false) :
    bufferErrors s.config.dmemSize bufs clash = none := by
  have hpass := fun b hb => Buffer.aligned_inRange_of_placed (List.forall_iff_forall_mem.mp hp b hb)
  exact (bufferErrors_eq_none _ _ _).mpr ⟨fun b hb => (hpass b hb).1, fun b hb => (hpass b hb).2, hc⟩

/-! ### LOAD16 (42_deconv.md R200) -/

/-- An empty source is in range wherever it points (20_memory.md R84, log 10). -/
theorem load16Check_of_placed {s : State} (hn : s.args.a1.toNat ≤ s.config.log2nMax) (hcnt : s.args.a3.toNat < 2 ^ 32)
    (hfit : s.args.a3.toNat ≤ 2 ^ s.args.a1.toNat) (hdst : Placed s 8 s.args.a0.toNat (16 * 2 ^ s.args.a1.toNat))
    (halign : s.args.a2.toNat % 2 = 0)
    (hrange : s.args.a3.toNat = 0 ∨ s.args.a2.toNat + 2 * s.args.a3.toNat ≤ s.config.dmemSize)
    (hapart : Apart s.args.a0.toNat (16 * 2 ^ s.args.a1.toNat) s.args.a2.toNat (2 * s.args.a3.toNat)) :
    load16Check s = none := by
  have hd := Buffer.aligned_inRange_of_placed (b := s.fftBuf) hdst
  have ha : s.load16Src.aligned = true := (Buffer.aligned_iff _).mpr halign
  have hr : s.load16Src.inRange s.config.dmemSize = true := (Buffer.inRange_iff _ _).mpr hrange
  have ho := (Buffer.overlaps_eq_false_iff s.fftBuf s.load16Src).mpr hapart
  have hshort : ¬ s.points < s.args.a3.toNat := not_lt.mpr hfit
  rw [load16Check, State.log2nBad_eq_false hn, countBad_eq_false hcnt, Bool.or_false,
    if_neg Bool.false_ne_true, if_neg hshort, bufferErrors_eq_none]
  simp [hd, ha, hr, ho]

/-- A loaded element: the sample over PCM_IN_SCALE, or the padding (42_deconv.md R200, 20_memory.md R81). -/
theorem loadedElem_eq (c : Config) (m : Memory) (src cnt k : Nat) :
    loadedElem c m src cnt k =
      if k < cnt then ⟨div (ofInt (readPcm m (src + 2 * k))) c.pcmInScale, Config.zero⟩
      else ⟨Config.zero, Config.zero⟩ := by
  unfold loadedElem readReal
  split <;> rfl

/-- Settles O27: the checks pass, and element k of the destination is the loaded element k. -/
theorem load16StoresPaddedSamples : Obligations.Load16StoresPaddedSamples :=
  fun s hn hcnt hfit hdst halign hrange hapart =>
    ⟨_, exec_of_passed .load16 s (load16Check_of_placed hn hcnt hfit hdst halign hrange hapart),
      completedWith_complete _ rfl,
      fun k hk => (load16Body_element s.config s.dmem _ _ _ _ k hk).trans (loadedElem_eq _ _ _ _ k)⟩

/-! ### DECONV_MUL (42_deconv.md R201, R202) -/

/-- Two buffers of one length do not clash when they are the same one or share no byte (20_memory.md R85). -/
theorem Buffer.overlapsUnlessSame_eq_false {b c : Buffer} (hl : b.bytes = c.bytes)
    (h : c.base = b.base ∨ Apart b.base b.bytes c.base c.bytes) : b.overlapsUnlessSame c = false := by
  rw [← Bool.not_eq_true, Buffer.overlapsUnlessSame_iff b c hl]
  rintro ⟨ho, hne⟩
  rcases h with heq | hapart
  · exact hne heq.symm
  · simp [(Buffer.overlaps_eq_false_iff b c).mpr hapart] at ho

theorem deconvMulCheck_of_placed {s : State} (hn : s.args.a1.toNat ≤ s.config.log2nMax)
    (hz : Placed s 8 s.args.a0.toNat (16 * 2 ^ s.args.a1.toNat))
    (hops : ∀ p ∈ [s.args.a2.toNat, s.args.a3.toNat, s.args.a4.toNat],
      Placed s 8 p (16 * 2 ^ s.args.a1.toNat) ∧
      (p = s.args.a0.toNat ∨ Apart s.args.a0.toNat (16 * 2 ^ s.args.a1.toNat) p (16 * 2 ^ s.args.a1.toNat))) :
    deconvMulCheck s = none := by
  obtain ⟨⟨hx, ox⟩, ⟨hy, oy⟩, ⟨hg, og⟩⟩ := List.forall_iff_forall_mem.mpr hops
  rw [deconvMulCheck, State.log2nBad_eq_false hn, if_neg Bool.false_ne_true]
  refine bufferErrors_of_placed (And.intro hz ⟨hx, hy, hg⟩) ?_
  rw [Bool.or_eq_false_iff, Bool.or_eq_false_iff]
  exact ⟨⟨Buffer.overlapsUnlessSame_eq_false rfl ox, Buffer.overlapsUnlessSame_eq_false rfl oy⟩,
    Buffer.overlapsUnlessSame_eq_false rfl og⟩

/-- Settles O29: the checks pass, and bin k is the guarded product of the operands as they were. -/
theorem deconvMulStoresGuardedProducts : Obligations.DeconvMulStoresGuardedProducts := fun s hn hz hops =>
  ⟨_, exec_of_passed .deconvMul s (deconvMulCheck_of_placed hn hz hops), completedWith_complete _ rfl,
    fun k hk => deconvMulBody_element s.config s.dmem _ _ _ _ _ k hk⟩

/-! ### NORMQ (42_deconv.md R203) -/

theorem normqCheck_of_placed {fmt : Fmt} {s : State} (hcnt : s.args.a1.toNat < 2 ^ 32) (h0 : 0 < s.args.a1.toNat)
    (hdst : Placed s 2 s.args.a0.toNat (2 * s.args.a1.toNat))
    (hsrc : Placed s (elemAlign fmt) s.args.a2.toNat (elemBytes fmt * s.args.a1.toNat))
    (hapart : Apart s.args.a0.toNat (2 * s.args.a1.toNat) s.args.a2.toNat (elemBytes fmt * s.args.a1.toNat)) :
    normqCheck fmt s = none := by
  rw [normqCheck, countBad_eq_false hcnt, if_neg Bool.false_ne_true, if_neg h0.ne']
  exact bufferErrors_of_placed (And.intro hdst hsrc) ((Buffer.overlaps_eq_false_iff _ _).mpr hapart)

theorem forall_mem_readReals (c : Config) (fmt : Fmt) (m : Memory) (b n : Nat) (p : F64 → Prop) :
    (∀ v ∈ readReals c fmt m b n, p v) ↔ ∀ k, k < n → p (readReal c fmt m b k) := by simp [readReals]

/-- Settles O30: the checks pass; NORMQ's body raises exactly on a non-finite value, and else stores the normalized
samples. -/
theorem normqStoresSamplesOrNonfinite : Obligations.NormqStoresSamplesOrNonfinite := by
  intro fmt s hcnt h0 hdst hsrc hapart
  have hexec := exec_of_passed (.normq fmt) s (normqCheck_of_placed hcnt h0 hdst hsrc hapart)
  have hiff := forall_mem_readReals s.config fmt s.dmem s.args.a2.toNat s.args.a1.toNat (fun v => v.isFinite = true)
  rw [commandFinish, normqFinish] at hexec
  rcases normqBody_cases s.config s.dmem s.args.a0.toNat s.args.a1.toNat fmt s.args.a2.toNat with
    ⟨⟨v, hv, hinf⟩, hbody⟩ | ⟨hfin, hbody⟩
  · rw [hbody] at hexec
    refine ⟨fun hall => ?_, fun _ => ⟨_, hexec, completedWith_complete _ rfl, rfl, rfl⟩⟩
    simp [hiff.mpr hall v hv] at hinf
  · rw [hbody] at hexec
    refine ⟨fun _ => ⟨_, hexec, completedWith_complete _ rfl, rfl, fun k hk => ?_⟩, fun ⟨k, hk, hinf⟩ => ?_⟩
    · refine (readPcm_normalized s.config s.dmem _ _ (by simpa using hk)).trans ?_
      rw [readReals_getElem]
      rfl
    · simp [hiff.mp hfin k hk] at hinf

end Sys2Proof.Machine
end

section
/-!
PROOFS. DECONV (42_deconv.md R204 to R208): the transform size; what each step leaves in the three parts of work.
-/

namespace Sys2Proof.Machine

open Sys2Proof.Fp

/-! ### The transform size (42_deconv.md R205) -/

theorem ceilLog2_le_iff (n k : Nat) : ceilLog2 n ≤ k ↔ n ≤ 2 ^ k := by
  have hpos := Nat.two_pow_pos k
  rcases Nat.lt_or_ge 1 n with h | h
  · have hlog : (n - 1).log2 < k ↔ n - 1 < 2 ^ k := Nat.log2_lt (by omega)
    rw [ceilLog2, if_neg (not_le.mpr h), Nat.succ_le_iff, hlog]
    omega
  · rw [ceilLog2, if_pos h]
    omega

/-- Settles O33: the ceiling logarithm of max(E, M) is the least exponent whose power of two is at least max(E, M). -/
theorem transformSizeIsLeastPowerOfTwo : Obligations.TransformSizeIsLeastPowerOfTwo := by
  refine ⟨fun s => ⟨rfl, (ceilLog2_le_iff _ _).mp le_rfl, fun k hk => ?_⟩, fun s he hm => ?_⟩
  · exact Nat.pow_le_pow_right two_pos ((ceilLog2_le_iff _ _).mpr hk)
  · rw [State.deconvSize, State.deconvLog, he, hm]
    rfl

/-! ### Buffers written beside the one read -/

/-- A buffer reads as before when what was written, d's N elements, shares no byte with it. -/
theorem readCplxs_of_outside {m m' : Memory} {b d n : Nat}
    (hw : ∀ a, (a < d ∨ d + 16 * n ≤ a) → Memory.read m' a = Memory.read m a)
    (h : b + 16 * n ≤ d ∨ d + 16 * n ≤ b) : readCplxs m' b n = readCplxs m b n := by
  refine List.map_congr_left fun k hk => ?_
  have hk' : k < n := List.mem_range.mp hk
  have hread : ∀ o, o ≤ 8 → readF64 m' (b + 16 * k + o) = readF64 m (b + 16 * k + o) := by
    intro o ho
    rw [readF64, Memory.memRead_congr m m' _ 8 fun j hj => hw _ (by omega), readF64]
  rw [readCplx, hread 8 le_rfl, ← Nat.add_zero (b + 16 * k), hread 0 (by omega), Nat.add_zero, readCplx]

theorem readCplxs_fftCore_outside (f : FwdSign) (mem : Memory) (d m : Nat) (inverse : Bool) {b n : Nat} (hn : n = 2 ^ m)
    (h : b + 16 * n ≤ d ∨ d + 16 * n ≤ b) : readCplxs (fftCore f mem d m inverse) b n = readCplxs mem b n := by
  subst hn
  exact readCplxs_of_outside (fftCore_outside f mem d m inverse) h

theorem readCplxs_tspSynth_outside (mem : Memory) (d m : Nat) (phase : Nat → F64) {b n : Nat} (hn : n = 2 ^ m)
    (h : b + 16 * n ≤ d ∨ d + 16 * n ≤ b) : readCplxs (tspSynth mem d m phase) b n = readCplxs mem b n := by
  subst hn
  exact readCplxs_of_outside (tspSynth_outside mem d m phase) h

theorem loadedElem_of_same {c : Config} {m m' : Memory} {src cnt : Nat}
    (h : ∀ a, src ≤ a → a < src + 2 * cnt → Memory.read m' a = Memory.read m a) :
    loadedElem c m' src cnt = loadedElem c m src cnt := by
  funext k
  rw [loadedElem_eq, loadedElem_eq]
  split
  next hk => rw [readPcm, Memory.memRead_congr m m' _ 2 fun j hj => h _ (by omega) (by omega), readPcm]
  next => rfl

theorem readCplxs_load16Body (c : Config) (m : Memory) (dst n src cnt : Nat) :
    readCplxs (load16Body c m dst n src cnt) dst n = (List.range n).map (loadedElem c m src cnt) := by
  simpa [load16Body] using readCplxs_writeCplxs m dst ((List.range n).map (loadedElem c m src cnt))

/-- The guarded products of the bins of three spectra (42_deconv.md R202). -/
theorem readCplxs_deconvMulBody (c : Config) (m : Memory) (z n x y g : Nat) :
    readCplxs (deconvMulBody c m z n x y g) z n = (List.range n).map fun k =>
      guardedBin c ((readCplxs m x n).getD k czero) ((readCplxs m y n).getD k czero)
        ((readCplxs m g n).getD k czero) := by
  refine List.map_congr_left fun k hk => ?_
  have hk' : k < n := List.mem_range.mp hk
  rw [deconvMulBody_element c m z n x y g k hk', readCplxs_getD m x hk', readCplxs_getD m y hk', readCplxs_getD m g hk']

/-! ### The work buffer, step by step (42_deconv.md R207) -/

/-- DMEM after steps 2 and 3: both signals loaded. -/
def deconvLoaded (s : State) : Memory :=
  loadResponse s.config (load16Body s.config s.dmem s.args.a6.toNat s.deconvSize s.args.a2.toNat s.excCount)
    (s.args.a6.toNat + 16 * s.deconvSize) s.deconvSize s.args.a4.toNat s.excCount s.respCount s.twoPeriod

/-- DMEM after steps 4 and 5: the three spectra. -/
def deconvSpectra (s : State) : Memory :=
  tspSynth
    (fftCore s.config.fwdSign (fftCore s.config.fwdSign (deconvLoaded s) s.args.a6.toNat s.deconvLog false)
      (s.args.a6.toNat + 16 * s.deconvSize) s.deconvLog false)
    (s.args.a6.toNat + 32 * s.deconvSize) s.deconvLog (phiDown s.deconvSize (s.excCount / 2))

theorem deconvWorkMem_eq (s : State) :
    deconvWorkMem s = fftCore s.config.fwdSign
      (deconvMulBody s.config (deconvSpectra s) (s.args.a6.toNat + 16 * s.deconvSize) s.deconvSize s.args.a6.toNat
        (s.args.a6.toNat + 16 * s.deconvSize) (s.args.a6.toNat + 32 * s.deconvSize))
      (s.args.a6.toNat + 16 * s.deconvSize) s.deconvLog true := rfl

/-- The two-period rule (42_deconv.md R206): the response is loaded from sample E on exactly when M ≥ 2·E. -/
theorem loadResponse_eq (s : State) (m : Memory) (wy n : Nat) :
    loadResponse s.config m wy n s.args.a4.toNat s.excCount s.respCount s.twoPeriod =
      load16Body s.config m wy n (deconvRespStart s) (deconvRespUsed s) := by
  by_cases h : 2 * s.excCount ≤ s.respCount <;> simp [loadResponse, State.twoPeriod, deconvRespStart, deconvRespUsed, h]

/-- The samples used lie in the response buffer. -/
theorem deconvResp_within (s : State) :
    s.args.a4.toNat ≤ deconvRespStart s ∧
      deconvRespStart s + 2 * deconvRespUsed s ≤ s.args.a4.toNat + 2 * s.respCount := by
  unfold deconvRespStart deconvRespUsed
  split <;> omega

theorem readCplxs_deconvLoaded (s : State)
    (hresp : Apart s.args.a6.toNat (48 * s.deconvSize) s.args.a4.toNat (2 * s.respCount)) :
    readCplxs (deconvLoaded s) s.args.a6.toNat s.deconvSize =
        (List.range s.deconvSize).map (loadedElem s.config s.dmem s.args.a2.toNat s.excCount) ∧
      readCplxs (deconvLoaded s) (s.args.a6.toNat + 16 * s.deconvSize) s.deconvSize =
        (List.range s.deconvSize).map (loadedElem s.config s.dmem (deconvRespStart s) (deconvRespUsed s)) := by
  rw [deconvLoaded, loadResponse_eq]
  constructor
  · rw [readCplxs_of_outside (load16Body_outside _ _ _ _ _ _) (by omega), readCplxs_load16Body]
  · obtain ⟨hlo, hhi⟩ := deconvResp_within s
    rw [readCplxs_load16Body,
      loadedElem_of_same fun a h1 h2 => load16Body_outside s.config s.dmem _ _ _ _ a (by omega)]

theorem readCplxs_deconvSpectra (s : State)
    (hresp : Apart s.args.a6.toNat (48 * s.deconvSize) s.args.a4.toNat (2 * s.respCount)) :
    readCplxs (deconvSpectra s) s.args.a6.toNat s.deconvSize = deconvX s ∧
      readCplxs (deconvSpectra s) (s.args.a6.toNat + 16 * s.deconvSize) s.deconvSize = deconvY s ∧
      readCplxs (deconvSpectra s) (s.args.a6.toNat + 32 * s.deconvSize) s.deconvSize = deconvG s := by
  obtain ⟨hx, hy⟩ := readCplxs_deconvLoaded s hresp
  have hn : s.deconvSize = 2 ^ s.deconvLog := rfl
  rw [deconvSpectra]
  refine ⟨?_, ?_, readCplxs_tspSynth _ _ _ _⟩
  · rw [readCplxs_tspSynth_outside _ _ _ _ hn (by omega), readCplxs_fftCore_outside _ _ _ _ _ hn (by omega)]
    exact (readCplxs_fftCore _ _ _ _ _).trans (congrArg _ hx)
  · rw [readCplxs_tspSynth_outside _ _ _ _ hn (by omega)]
    refine (readCplxs_fftCore _ _ _ _ _).trans (congrArg _ ?_)
    rw [← hn, readCplxs_fftCore_outside _ _ _ _ _ hn (by omega), hy]

theorem readCplxs_deconvWorkMem (s : State)
    (hresp : Apart s.args.a6.toNat (48 * s.deconvSize) s.args.a4.toNat (2 * s.respCount)) :
    readCplxs (deconvWorkMem s) s.args.a6.toNat s.deconvSize = deconvX s ∧
      readCplxs (deconvWorkMem s) (s.args.a6.toNat + 16 * s.deconvSize) s.deconvSize = deconvResponse s ∧
      readCplxs (deconvWorkMem s) (s.args.a6.toNat + 32 * s.deconvSize) s.deconvSize = deconvG s := by
  obtain ⟨hx, hy, hg⟩ := readCplxs_deconvSpectra s hresp
  have hn : s.deconvSize = 2 ^ s.deconvLog := rfl
  rw [deconvWorkMem_eq]
  refine ⟨?_, ?_, ?_⟩
  · rw [readCplxs_fftCore_outside _ _ _ _ _ hn (by omega),
      readCplxs_of_outside (deconvMulBody_outside _ _ _ _ _ _ _) (by omega), hx]
  · refine (readCplxs_fftCore _ _ _ _ _).trans (congrArg _ ?_)
    refine (readCplxs_deconvMulBody _ _ _ _ _ _ _).trans ?_
    rw [hx, hy, hg]
  · rw [readCplxs_fftCore_outside _ _ _ _ _ hn (by omega),
      readCplxs_of_outside (deconvMulBody_outside _ _ _ _ _ _ _) (by omega), hg]

/-! ### The command (42_deconv.md R204, R207, R208) -/

/-- The operands meet every check of R204. -/
structure DeconvOperands (s : State) : Prop where
  excPos : 0 < s.excCount
  excSmall : s.excCount < 2 ^ 32
  respPos : 0 < s.respCount
  respSmall : s.respCount < 2 ^ 32
  rates : s.excRate = s.respRate
  ratePos : 0 < s.respRate
  size : s.deconvSize ≤ 2 ^ s.config.log2nMax
  dst : Placed s 2 s.args.a0.toNat (2 * s.deconvSize)
  exc : Placed s 2 s.args.a2.toNat (2 * s.excCount)
  resp : Placed s 2 s.args.a4.toNat (2 * s.respCount)
  work : Placed s 8 s.args.a6.toNat (48 * s.deconvSize)
  workDst : Apart s.args.a6.toNat (48 * s.deconvSize) s.args.a0.toNat (2 * s.deconvSize)
  workExc : Apart s.args.a6.toNat (48 * s.deconvSize) s.args.a2.toNat (2 * s.excCount)
  workResp : Apart s.args.a6.toNat (48 * s.deconvSize) s.args.a4.toNat (2 * s.respCount)
  dstExc : Apart s.args.a0.toNat (2 * s.deconvSize) s.args.a2.toNat (2 * s.excCount)
  dstResp : Apart s.args.a0.toNat (2 * s.deconvSize) s.args.a4.toNat (2 * s.respCount)

theorem DeconvOperands.log_le {s : State} (h : DeconvOperands s) : s.deconvLog ≤ s.config.log2nMax :=
  (Nat.pow_le_pow_iff_right one_lt_two).mp h.size

theorem deconvWork_bytes (s : State) : s.deconvWork.bytes = 48 * s.deconvSize := by
  simp only [Buffer.bytes, State.deconvWork, elemBytes]
  omega

theorem deconvCheck_of_operands {s : State} (h : DeconvOperands s) : deconvCheck s = none := by
  have hargs : (countBad s.args.a1 || countBad s.args.a3 || decide (s.excRate = 0) || decide (s.respRate = 0)) = false := by
    rw [countBad_eq_false h.excSmall, countBad_eq_false h.respSmall, h.rates, decide_eq_false h.ratePos.ne']
    rfl
  have hempty : ¬ (s.excCount = 0 ∨ s.respCount = 0) := not_or.mpr ⟨h.excPos.ne', h.respPos.ne'⟩
  rw [deconvCheck, hargs, if_neg Bool.false_ne_true, if_neg hempty, if_neg (not_not.mpr h.rates),
    if_neg (not_lt.mpr h.log_le)]
  have hbytes := deconvWork_bytes s
  have hwork : Placed s 8 s.deconvWork.base s.deconvWork.bytes := hbytes ▸ h.work
  refine bufferErrors_of_placed (And.intro h.dst ⟨h.exc, h.resp, hwork⟩) ?_
  simp only [Bool.or_eq_false_iff, Buffer.overlaps_eq_false_iff, hbytes]
  exact ⟨⟨⟨⟨h.workDst, h.workExc⟩, h.workResp⟩, h.dstExc⟩, h.dstResp⟩

@[simp] theorem deconvResponse_length (s : State) : (deconvResponse s).length = s.deconvSize := by simp [deconvResponse]

/-- The impulse response's re parts, which DECONV normalizes. -/
def deconvSamples (s : State) : List F64 := (deconvResponse s).map Cplx.re

@[simp] theorem deconvSamples_length (s : State) : (deconvSamples s).length = s.deconvSize := by simp [deconvSamples]

/-- The impulse response is finite with the DOC's literals, so NORMQ's body does not raise (log 16). -/
theorem deconvFinish_eq {s : State} (h : DeconvOperands s) (hl : s.config.legal = true) (hc : s.config.docLiterals = true) :
    deconvFinish s =
      ⟨.ok, ⟨(peakOf (deconvSamples s)).bits, BitVec.ofNat 64 s.deconvSize, BitVec.ofNat 64 s.excRate,
          if s.twoPeriod then 1#64 else 0#64⟩,
        writePcms (deconvWorkMem s) s.args.a0.toNat (normalized s.config (deconvSamples s))⟩ := by
  obtain ⟨-, hresponse, -⟩ := readCplxs_deconvWorkMem s h.workResp
  have hreals : readReals s.config .cplx128 (deconvWorkMem s) (s.args.a6.toNat + 16 * s.deconvSize) s.deconvSize =
      deconvSamples s := by rw [readReals_cplx128, hresponse, deconvSamples]
  have hfin : ∀ v ∈ deconvSamples s, v.isFinite = true :=
    List.forall_mem_map.mpr (deconvResponse_finite s hc (deconvLog_le s hl h.log_le) h.excSmall)
  rw [deconvFinish, normqBody_of_finite _ _ _ _ _ _ (by rwa [hreals]), hreals]

/-- An element of a third of work, after dst is written apart from work. -/
theorem readCplx_deconvWork {s : State} (h : DeconvOperands s) {vs : List Int} (hvs : vs.length = s.deconvSize) {b : Nat}
    (hb : s.args.a6.toNat ≤ b ∧ b + 16 * s.deconvSize ≤ s.args.a6.toNat + 48 * s.deconvSize) {zs : List Cplx}
    (hzs : readCplxs (deconvWorkMem s) b s.deconvSize = zs) {k : Nat} (hk : k < s.deconvSize) :
    readCplx (writePcms (deconvWorkMem s) s.args.a0.toNat vs) b k = zs.getD k czero := by
  have hapart := h.workDst
  rw [readCplx_writePcms_outside _ (by omega), ← readCplxs_getD _ _ hk, hzs]

/-- Settles O32: the checks pass, each step leaves its spectrum in its third of work, NORMQ's body does not raise, and dst is
written apart from work. -/
theorem deconvRunsThePipeline : Obligations.DeconvRunsThePipeline := by
  intro s e m n d x r w hl hc he0 he hm0 hm hrates hrate hn hd hx hr hw hwd hwx hwr hdx hdr
  have h : DeconvOperands s := ⟨he0, he, hm0, hm, hrates, hrate, hn, hd, hx, hr, hw, hwd, hwx, hwr, hdx, hdr⟩
  have hfinish := deconvFinish_eq h hl hc
  obtain ⟨hX, hR, hG⟩ := readCplxs_deconvWorkMem s hwr
  refine ⟨_, exec_of_passed .deconv s (deconvCheck_of_operands h),
    completedWith_complete _ (congrArg Finish.code hfinish), ?_⟩
  rw [State.complete_res, State.complete_dmem, commandFinish, hfinish]
  have hlen : (normalized s.config (deconvSamples s)).length = s.deconvSize := by simp
  refine ⟨?_, fun k hk => ⟨?_, ?_, ?_, ?_⟩⟩
  · simp only [State.twoPeriod, decide_eq_true_eq]
    rfl
  · have hk' : k < (deconvSamples s).length := by rwa [deconvSamples_length]
    refine (readPcm_normalized _ _ _ _ hk').trans ?_
    rw [List.getD_eq_getElem _ _ (by rwa [deconvResponse_length])]
    simp only [deconvSamples, List.getElem_map]
    rfl
  · exact readCplx_deconvWork h hlen ⟨le_rfl, by omega⟩ hX hk
  · exact readCplx_deconvWork h hlen ⟨Nat.le_add_right _ _, by omega⟩ hR hk
  · exact readCplx_deconvWork h hlen ⟨Nat.le_add_right _ _, by omega⟩ hG hk

end Sys2Proof.Machine
end

section
/-!
PROOFS. NLMS (43_nlms.md R240 to R242): the run sample by sample, its delay line, and what the command stores.
-/

namespace Sys2Proof.Machine

open Sys2Proof.Fp

/-! ### One sample (43_nlms.md R242) -/

theorem shiftIn_getD_succ (x d : F64) {xb : List F64} {i : Nat} (h : i + 1 < xb.length) :
    (shiftIn x xb).getD (i + 1) d = xb.getD i d := by
  rw [shiftIn, List.getD_cons_succ, List.getD_eq_getElem _ _ (by rw [List.length_dropLast]; omega),
    List.getElem_dropLast, List.getD_eq_getElem]

section
variable (eps mu beta x y : F64) (f : Filter)

@[simp] theorem nlmsSample_xb : (nlmsSample eps mu beta x y f).xb = shiftIn x f.xb := by
  fun_cases nlmsSample eps mu beta x y f <;> rfl

variable {eps beta x f}

theorem nlmsSample_h_of_not_above (h : lt eps (add beta (dot (shiftIn x f.xb) (shiftIn x f.xb))) = false) :
    (nlmsSample eps mu beta x y f).h = f.h := by
  simp [nlmsSample, h]

theorem nlmsSample_h_of_above (h : lt eps (add beta (dot (shiftIn x f.xb) (shiftIn x f.xb))) = true) :
    (nlmsSample eps mu beta x y f).h =
      List.zipWith (fun hi xi => add hi (mul
        (mul (div mu (add beta (dot (shiftIn x f.xb) (shiftIn x f.xb)))) (sub y (dot f.h (shiftIn x f.xb)))) xi))
        f.h (shiftIn x f.xb) := by
  simp [nlmsSample, h]

end

/-! ### The run (43_nlms.md R242) -/

theorem dot_concat {a b : List F64} (u v : F64) (h : a.length = b.length) :
    dot (a ++ [u]) (b ++ [v]) = add (dot a b) (mul u v) := by
  rw [dot, List.zip_append h, List.foldl_append]
  rfl

theorem nlmsRun_concat (eps mu beta : F64) (lf : Nat) {xs ys : List F64} (x y : F64) (h : xs.length = ys.length) :
    nlmsRun eps mu beta lf (xs ++ [x]) (ys ++ [y]) = nlmsSample eps mu beta x y (nlmsRun eps mu beta lf xs ys) := by
  rw [nlmsRun, List.zip_append h, List.foldl_append]
  rfl

/-- Settles O36: a run and a sum end with their last pair; a sample shifts the delay line, and the power test chooses
between the two coefficient vectors. -/
theorem nlmsUpdatesOnlyAbovePower : Obligations.NlmsUpdatesOnlyAbovePower := by
  refine ⟨fun eps mu beta lf => ⟨rfl, fun xs ys x y => nlmsRun_concat eps mu beta lf x y⟩,
    ⟨rfl, fun a b u v => dot_concat u v⟩, fun eps mu beta x y f hlen hpos => ?_⟩
  dsimp only
  obtain ⟨hh, hx⟩ := nlmsSample_length eps mu beta x y f hlen hpos
  rw [nlmsSample_xb] at hx ⊢
  refine ⟨rfl, fun i hi hlt => ?_, nlmsSample_h_of_not_above mu y, fun habove i hi => ?_⟩
  · obtain ⟨j, rfl⟩ := Nat.exists_eq_add_one.mpr hi
    exact shiftIn_getD_succ x _ hlt
  · rw [List.getD_eq_getElem _ _ (hh ▸ hi), List.getD_eq_getElem _ _ hi, List.getD_eq_getElem _ _ (by omega)]
    simp only [nlmsSample_h_of_above mu y habove, List.getElem_zipWith]

/-! ### The delay line (43_nlms.md R241) -/

/-- A shift puts the sample before the line and drops what no longer fits. -/
theorem shiftIn_eq_take (x : F64) {xb : List F64} (h : 0 < xb.length) : shiftIn x xb = (x :: xb).take xb.length := by
  obtain ⟨n, hn⟩ := Nat.exists_eq_add_one.mpr h
  rw [shiftIn, List.dropLast_eq_take, hn, List.take_succ_cons, Nat.add_sub_cancel]

theorem foldr_shiftIn (xs : List F64) {xb : List F64} (h : 0 < xb.length) :
    xs.foldr shiftIn xb = (xs ++ xb).take xb.length := by
  induction xs with
  | nil => simp
  | cons x xs ih =>
    have hlen : ((xs ++ xb).take xb.length).length = xb.length := by simp
    obtain ⟨n, hn⟩ := Nat.exists_eq_add_one.mpr h
    rw [List.foldr_cons, ih, shiftIn_eq_take x (hlen.symm ▸ h), hlen, hn, List.cons_append, List.take_succ_cons,
      List.take_succ_cons, List.take_take, Nat.min_eq_left n.le_succ]

/-- The coefficients never reach the delay line: it is the samples, newest first, before the line of a fresh run. -/
theorem nlmsRun_xb (eps mu beta : F64) {lf : Nat} {xs ys : List F64} (hlen : xs.length = ys.length) (hlf : 0 < lf) :
    (nlmsRun eps mu beta lf xs ys).xb = (xs.reverse ++ List.replicate lf Config.zero).take lf := by
  have hfold : (nlmsRun eps mu beta lf xs ys).xb =
      (xs.zip ys).foldl (fun xb p => shiftIn p.1 xb) (List.replicate lf Config.zero) :=
    (List.foldl_hom Filter.xb fun f p => (nlmsSample_xb eps mu beta p.1 p.2 f).symm).symm
  calc (nlmsRun eps mu beta lf xs ys).xb
      = ((xs.zip ys).map Prod.fst).foldl (fun xb x => shiftIn x xb) (List.replicate lf Config.zero) := by
        rw [hfold, List.foldl_map]
    _ = xs.reverse.foldr shiftIn (List.replicate lf Config.zero) := by
        rw [List.map_fst_zip hlen.le, List.foldr_reverse]
    _ = (xs.reverse ++ List.replicate lf Config.zero).take lf := by
        rw [foldr_shiftIn _ (by rwa [List.length_replicate]), List.length_replicate]

/-- Settles O35: entry i of the reversed samples, or of the zeros after them. -/
theorem delayLineHoldsNewestFirst : Obligations.DelayLineHoldsNewestFirst := by
  intro eps mu beta lf xs ys hlen hlf i hi
  rw [nlmsRun_xb eps mu beta hlen hlf, List.getD_eq_getElem?_getD, List.getElem?_take_of_lt hi]
  split
  next h =>
    rw [List.getElem?_append_left (by rwa [List.length_reverse]), List.getElem?_reverse h, List.getD_eq_getElem?_getD]
  next h =>
    have hzeros : i - xs.reverse.length < lf := by omega
    rw [List.getElem?_append_right (by rw [List.length_reverse]; omega), List.getElem?_replicate_of_lt hzeros]
    rfl

/-! ### The command (43_nlms.md R240, R242) -/

/-- A REAL64 buffer reads as before when what was written shares no byte with it. -/
theorem readReal_writeReals_outside (c : Config) (m : Memory) {b d n i : Nat} {xs : List F64}
    (h : Apart b (8 * n) d (8 * xs.length)) (hi : i < n) :
    readReal c .real64 (writeReals m d xs) b i = readReal c .real64 m b i := by
  have hread : Memory.memRead (writeReals m d xs) (b + 8 * i) 8 = Memory.memRead m (b + 8 * i) 8 :=
    Memory.memRead_congr m _ _ 8 fun j hj => writeReals_outside m d xs _ (by omega)
  rw [readReal, readF64, hread, readReal, readF64]

/-- The operands meet every check of R240 and R242. -/
structure NlmsOperands (fmt : Fmt) (s : State) : Prop where
  present : s.config.hasNlms = true
  samplesPos : 0 < s.args.a1.toNat
  samplesSmall : s.args.a1.toNat < 2 ^ 32
  coeffsPos : 0 < s.args.a4.toNat
  coeffsSmall : s.args.a4.toNat < 2 ^ 32
  h : Placed s 8 s.nlmsH.base s.nlmsH.bytes
  line : Placed s 8 s.nlmsLine.base s.nlmsLine.bytes
  x : Placed s (elemAlign fmt) (s.nlmsX fmt).base (s.nlmsX fmt).bytes
  y : Placed s (elemAlign fmt) (s.nlmsY fmt).base (s.nlmsY fmt).bytes
  hLine : Apart s.nlmsH.base s.nlmsH.bytes s.nlmsLine.base s.nlmsLine.bytes
  hX : Apart s.nlmsH.base s.nlmsH.bytes (s.nlmsX fmt).base (s.nlmsX fmt).bytes
  hY : Apart s.nlmsH.base s.nlmsH.bytes (s.nlmsY fmt).base (s.nlmsY fmt).bytes
  lineX : Apart s.nlmsLine.base s.nlmsLine.bytes (s.nlmsX fmt).base (s.nlmsX fmt).bytes
  lineY : Apart s.nlmsLine.base s.nlmsLine.bytes (s.nlmsY fmt).base (s.nlmsY fmt).bytes

theorem nlmsCheck_of_operands {fmt : Fmt} {s : State} (ho : NlmsOperands fmt s) : nlmsCheck fmt s = none := by
  have habsent : ¬ (!s.config.hasNlms) = true := by simp [ho.present]
  have hempty : ¬ (s.args.a1.toNat = 0 ∨ s.args.a4.toNat = 0) := not_or.mpr ⟨ho.samplesPos.ne', ho.coeffsPos.ne'⟩
  rw [nlmsCheck, if_neg habsent, countBad_eq_false ho.samplesSmall, countBad_eq_false ho.coeffsSmall, Bool.or_false,
    if_neg Bool.false_ne_true, if_neg hempty]
  refine bufferErrors_of_placed (And.intro ho.h ⟨ho.line, ho.x, ho.y⟩) ?_
  simp only [Bool.or_eq_false_iff, Buffer.overlaps_eq_false_iff]
  exact ⟨⟨⟨⟨ho.hLine, ho.hX⟩, ho.hY⟩, ho.lineX⟩, ho.lineY⟩

/-- Settles O34: the checks pass, and the delay line is written apart from h. -/
theorem nlmsStoresEstimate : Obligations.NlmsStoresEstimate := by
  intro fmt s ns lf k h x y l f hnlms hns0 hns hlf0 hlf hh hl hx hy hhl hhx hhy hlx hly
  have hcheck : nlmsCheck fmt s = none :=
    nlmsCheck_of_operands ⟨hnlms, hns0, hns, hlf0, hlf, hh, hl, hx, hy, hhl, hhx, hhy, hlx, hly⟩
  obtain ⟨hlenH, hlenX⟩ : f.h.length = lf ∧ f.xb.length = lf := nlmsResult_length hcheck
  refine ⟨_, exec_of_passed (.nlms fmt) s hcheck, completedWith_complete _ rfl, fun i hi => ?_⟩
  have hiH : i < f.h.length := hlenH.symm ▸ hi
  have hiX : i < f.xb.length := hlenX.symm ▸ hi
  rw [List.getD_eq_getElem _ _ hiH, List.getD_eq_getElem _ _ hiX]
  constructor
  · exact (readReal_writeReals_outside _ _ (hlenX.symm ▸ hhl) hi).trans (readReal_writeReals _ _ _ _ _ hiH)
  · exact readReal_writeReals _ _ _ _ _ hiX

end Sys2Proof.Machine
end

section
/-!
SUPPORT. Order and rounding (00_scope.md R10): a value not above the exact result is not above the rounded one; sums and
squares of values not below 0.
-/

namespace Sys2Proof.Fp

open Sys2Proof.Machine

/-! ### Infinities -/

theorem eq_inf_of_isInf {x : F64} (h : x.isInf = true) : x = inf x.sign := by
  obtain ⟨b⟩ := x
  have hb := b.isLt
  simp only [F64.isInf, F64.expField, F64.frac, Bool.and_eq_true, beq_iff_eq] at h
  obtain ⟨he, hf⟩ := h
  rw [inf, F64.mk.injEq]
  refine BitVec.eq_of_toNat_eq ?_
  rw [BitVec.toNat_ofNat, F64.sign]
  by_cases hs : 2 ^ 63 ≤ b.toNat
  · rw [decide_eq_true hs, if_pos rfl]
    omega
  · rw [decide_eq_false hs, if_neg Bool.false_ne_true]
    omega

theorem add_inf_self (b : Bool) : add (inf b) (inf b) = inf b := by simp [add, sum]

theorem add_inf_of_finite {x : F64} (hx : x.isFinite = true) (b : Bool) :
    add x (inf b) = inf b ∧ add (inf b) x = inf b := by
  obtain ⟨hn, hi⟩ := not_special x hx
  simp [add, sum, hn, hi]

/-! ### Rounding keeps order with the values of the format -/

/-- A value that is not above the exact result is not above the rounded one, be it infinite. -/
theorem le_of_roundsTo {y : ℚ} {r z : F64} (h : RoundsTo y r) (hz : z.isFinite = true) (hy : z.toRat ≤ y) :
    le z r = true := by
  obtain ⟨⟨hfin, -, hnear⟩ | ⟨hinf, hbig⟩, hsign⟩ := h
  · obtain ⟨hle, -⟩ := hnear z hz
    rw [abs_of_nonpos (sub_nonpos.mpr hy)] at hle
    have hzr : z.toRat ≤ r.toRat := by linarith [(abs_le.mp hle).1]
    rw [le_of_not_nan (not_special z hz).1 (not_special r hfin).1, decide_eq_true_eq]
    exact (toRat_le_iff z r).mp hzr
  · have hpos : 0 < y := by
      by_contra hneg
      have hle : |y| ≤ |z.toRat| := abs_le_abs_of_nonpos (not_lt.mp hneg) hy
      exact absurd (abs_toRat_lt hz) (not_lt.mpr (hbig.trans hle))
    rw [eq_inf_of_isInf hinf, hsign hpos.ne', decide_eq_false (not_lt.mpr hpos.le)]
    exact (comparisons_with_inf hz).2.1

/-! ### Values not below 0 -/

theorem le_transitive {x y z : F64} (hxy : le x y = true) (hyz : le y z = true) : le x z = true := by
  simp only [le, Bool.and_eq_true, Bool.not_eq_true', decide_eq_true_eq] at hxy hyz ⊢
  obtain ⟨⟨hx, -⟩, hle⟩ := hxy
  obtain ⟨⟨-, hz⟩, hle'⟩ := hyz
  exact ⟨⟨hx, hz⟩, hle.trans hle'⟩

theorem lt_of_lt_le {x y z : F64} (hxy : lt x y = true) (hyz : le y z = true) : lt x z = true := by
  simp only [lt, le, Bool.and_eq_true, Bool.not_eq_true', decide_eq_true_eq] at hxy hyz ⊢
  obtain ⟨⟨hx, -⟩, hlt⟩ := hxy
  obtain ⟨⟨-, hz⟩, hle⟩ := hyz
  exact ⟨⟨hx, hz⟩, hlt.trans_le hle⟩

theorem zero_toRat : Config.zero.toRat = 0 := toRat_zero _ rfl

/-- A value that is not below 0 is finite or +infinity. -/
theorem nonneg_cases {x : F64} (h : le Config.zero x = true) : (x.isFinite = true ∧ 0 ≤ x.toRat) ∨ x = inf false := by
  have hn : x.isNaN = false := by
    cases hx : x.isNaN with
    | false => rfl
    | true =>
      obtain ⟨-, hle, -⟩ := comparisons_with_nan (x := Config.zero) (.inr hx)
      rw [hle] at h
      cases h
  cases hf : x.isFinite with
  | true =>
    rw [le_of_not_nan rfl hn, decide_eq_true_eq, ← toRat_le_iff, zero_toRat] at h
    exact .inl ⟨rfl, h⟩
  | false =>
    have hi : x.isInf = true := by
      simp only [F64.isFinite, F64.isNaN, F64.isInf, bne_eq_false_iff_eq] at hf hn ⊢
      simpa [hf] using hn
    have hx := eq_inf_of_isInf hi
    cases hs : x.sign with
    | false => exact .inr (hs ▸ hx)
    | true =>
      obtain ⟨-, -, -, -, -, -, -, hlow, -⟩ := comparisons_with_inf (x := Config.zero) rfl
      rw [hx, hs, hlow] at h
      cases h

/-- Adding a value not below 0 to another never lowers it. -/
theorem le_add_of_nonneg {x y : F64} (hx : le Config.zero x = true) (hy : le Config.zero y = true) :
    le x (add x y) = true := by
  rcases nonneg_cases hx with ⟨hxf, -⟩ | rfl
  · rcases nonneg_cases hy with ⟨hyf, hy0⟩ | rfl
    · exact le_of_roundsTo (add_roundsTo hxf hyf) hxf (le_add_of_nonneg_right hy0)
    · obtain ⟨hsum, -⟩ := add_inf_of_finite hxf false
      rw [hsum]
      exact (comparisons_with_inf hxf).2.1
  · have hsum : add (inf false) y = inf false := by
      rcases nonneg_cases hy with ⟨hyf, -⟩ | rfl
      · exact (add_inf_of_finite hyf false).2
      · exact add_inf_self false
    rw [hsum]
    exact (comparisons_of_infs false false).2.1

theorem square_nonneg {v : F64} (hv : v.isFinite = true) : le Config.zero (mul v v) = true :=
  le_of_roundsTo (mul_roundsTo hv hv) rfl (by rw [zero_toRat]; exact mul_self_nonneg _)

theorem mul_self_of_isZero {v : F64} (hv : v.isZero = true) : mul v v = Config.zero := by
  have hf := isFinite_of_isZero v hv
  rw [mul_of_finite hf hf, (magUnits_eq_zero_iff v).mpr hv, Nat.mul_zero, bne_self_eq_false, round_zero, zero_eq_zeroOf]

theorem div_self_eq_one {x : F64} (hx : x.isFinite = true) (h0 : x.isZero = false) : div x x = Config.one := by
  have hm : 0 < x.magUnits := Nat.pos_of_ne_zero fun h => by simp [(magUnits_eq_zero_iff x).mp h] at h0
  have hone : round false (2 * 2 ^ 1075 + 0) 2 = Config.one := by decide +kernel
  rw [div_of_finite hx hx h0, Nat.mul_div_cancel_left _ hm, Nat.mul_mod_right, if_pos rfl, bne_self_eq_false, hone]

/-! ### Quotients of negative values -/

/-- The least positive value of the format, 2^−1074. -/
def leastSubnormal : F64 := ⟨1#64⟩

theorem leastSubnormal_toRat : leastSubnormal.toRat = 1 / 2 ^ 1074 := by
  rw [F64.toRat, show leastSubnormal.units = 1 by decide, Int.cast_one]

theorem two_pow_1024_le : (2 : ℚ) ^ 1024 ≤ 2 ^ 1074 := pow_le_pow_right₀ one_le_two (by norm_num)

/-- A span of at most −1 over a finite negative slope does not underflow: the slope is above −2^1024. -/
theorem zero_lt_div_of_le_neg_one {w sl : F64} (hw : w.isFinite = true) (hw1 : w.toRat ≤ -1) (hsl : sl.isFinite = true)
    (hneg : lt sl Config.zero = true) : lt Config.zero (div w sl) = true := by
  rw [lt_of_not_nan (not_special sl hsl).1 rfl, decide_eq_true_eq, ← toRat_lt_iff, zero_toRat] at hneg
  have h0 : sl.isZero = false := by
    by_contra hz
    exact hneg.ne (toRat_zero sl (by simpa using hz))
  have hbound : -sl.toRat ≤ 2 ^ 1074 :=
    calc -sl.toRat ≤ |sl.toRat| := neg_le_abs _
      _ ≤ 2 ^ 1024 - 2 ^ 970 := (abs_toRat_lt hsl).le
      _ ≤ 2 ^ 1024 := sub_le_self _ (by positivity)
      _ ≤ 2 ^ 1074 := two_pow_1024_le
  have hquot : leastSubnormal.toRat ≤ w.toRat / sl.toRat := by
    rw [leastSubnormal_toRat, ← neg_div_neg_eq w.toRat, div_le_div_iff₀ (by positivity) (neg_pos.mpr hneg), one_mul]
    exact hbound.trans (le_mul_of_one_le_left (by positivity) (le_neg_of_le_neg hw1))
  exact lt_of_lt_le (by decide) (le_of_roundsTo (div_roundsTo hw hsl h0) (z := leastSubnormal) rfl hquot)

end Sys2Proof.Fp
end

section
/-!
PROOFS. SCHROEDER (44_decay.md R260, R261): the backward energies, the decay curve, and the command.
-/

namespace Sys2Proof.Machine

open Sys2Proof.Fp

/-! ### The energies -/

theorem energies_cons (v : F64) (vs : List F64) : energies (v :: vs) = add (totalEnergy vs) (mul v v) :: energies vs := rfl

theorem totalEnergy_eq_getD (vs : List F64) : totalEnergy vs = (energies vs).getD 0 Config.zero := by
  rw [totalEnergy]
  cases energies vs <;> rfl

theorem totalEnergy_nonneg {vs : List F64} (h : ∀ v ∈ vs, v.isFinite = true) : le Config.zero (totalEnergy vs) = true := by
  induction vs with
  | nil => decide
  | cons v vs ih =>
    obtain ⟨hv, hvs⟩ := List.forall_mem_cons.mp h
    exact le_transitive (ih hvs) (le_add_of_nonneg (ih hvs) (square_nonneg hv))

/-- Settles O38: each energy is the next one plus a square, which is not below 0. -/
theorem energiesNeverIncrease : Obligations.EnergiesNeverIncrease := by
  intro vs h
  induction vs with
  | nil => exact fun i hi => absurd hi (Nat.not_lt_zero _)
  | cons v vs ih =>
    obtain ⟨hv, hvs⟩ := List.forall_mem_cons.mp h
    rintro (_ | i) hi
    · rw [energies_cons, List.getD_cons_succ, List.getD_cons_zero, ← totalEnergy_eq_getD]
      exact le_add_of_nonneg (totalEnergy_nonneg hvs) (square_nonneg hv)
    · exact ih hvs i (Nat.lt_of_succ_lt_succ hi)

theorem energies_of_zeros {vs : List F64} (h : ∀ v ∈ vs, v.isZero = true) : ∀ e ∈ energies vs, e = Config.zero := by
  induction vs with
  | nil => simp [energies]
  | cons v vs ih =>
    obtain ⟨hv, hvs⟩ := List.forall_mem_cons.mp h
    have htotal : totalEnergy vs = Config.zero := by
      cases vs with
      | nil => rfl
      | cons w ws => exact ih hvs _ List.mem_cons_self
    have hsum : add Config.zero Config.zero = Config.zero := by decide
    rw [energies_cons, htotal, mul_self_of_isZero hv, hsum]
    exact List.forall_mem_cons.mpr ⟨rfl, ih hvs⟩

/-! ### The curve -/

/-- 44_decay.md R260: the dB value of an energy by its two tests for zero. -/
theorem decibel_eq (floor emax e : F64) :
    decibel floor emax e =
      if e.isZero = true then floor
      else if (div e emax).isZero = true then Config.negInf
      else mul Config.ten (Config.log10 (div e emax)) := by
  simp only [decibel, eq_zero]

theorem decibel_self (floor : F64) {emax : F64} (hf : emax.isFinite = true) (h0 : emax.isZero = false) :
    decibel floor emax emax = Config.zero := by
  have hone : Config.one.isZero = false := by decide
  have hlog : mul Config.ten (Config.log10 Config.one) = Config.zero := by
    rw [Config.log10, if_pos rfl, zero_eq_zeroOf, mul_zeroOf rfl]
    decide
  rw [decibel_eq, div_self_eq_one hf h0, h0, hone, if_neg Bool.false_ne_true, if_neg Bool.false_ne_true, hlog]

theorem decayCurve_getElem (floor : F64) (vs : List F64) {k : Nat} (hk : k < (decayCurve floor vs).length) :
    (decayCurve floor vs)[k] = decibel floor (totalEnergy vs) ((energies vs).getD k Config.zero) := by
  have hk' : k < (energies vs).length := by simpa using hk
  rw [List.getElem_eq_iff, decayCurve, List.getElem?_map, List.getElem?_eq_getElem hk', Option.map_some,
    List.getD_eq_getElem _ _ hk']

/-- Settles O39: the energies' recursion, the curve element by element, and LOG10's exact value at 1. -/
theorem decayCurveCorners : Obligations.DecayCurveCorners := by
  refine ⟨fun v vs => ⟨?_, fun i => rfl⟩, fun floor vs => ⟨totalEnergy_eq_getD vs, fun k hk => ?_⟩,
    fun floor vs h d hd => ?_, fun floor emax => decibel_self floor⟩
  · rw [energies_cons, List.getD_cons_zero, ← totalEnergy_eq_getD]
    split
    next hnil => rw [hnil]; rfl
    next => rfl
  · have hk' : k < (decayCurve floor vs).length := by simpa using hk
    rw [List.getD_eq_getElem _ _ hk', decayCurve_getElem floor vs hk', decibel_eq]
    rfl
  · obtain ⟨e, he, rfl⟩ := List.mem_map.mp hd
    rw [energies_of_zeros h e he, decibel_eq]
    rfl

/-! ### The command -/

theorem schroederCheck_of_placed {fmt : Fmt} {s : State} (hlen : s.args.a1.toNat < 2 ^ 32) (h0 : 0 < s.args.a1.toNat)
    (hdst : Placed s 8 s.args.a0.toNat (8 * s.args.a1.toNat))
    (hsrc : Placed s (elemAlign fmt) s.args.a2.toNat (elemBytes fmt * s.args.a1.toNat))
    (hclash : Apart s.args.a0.toNat (8 * s.args.a1.toNat) s.args.a2.toNat (elemBytes fmt * s.args.a1.toNat) ∨
      (fmt = .real64 ∧ s.args.a0.toNat = s.args.a2.toNat)) : schroederCheck fmt s = none := by
  rw [schroederCheck, countBad_eq_false hlen, if_neg Bool.false_ne_true, if_neg h0.ne']
  refine bufferErrors_of_placed (And.intro hdst hsrc) ?_
  split
  next hfmt =>
    subst hfmt
    exact Buffer.overlapsUnlessSame_eq_false rfl (hclash.symm.imp_left fun ⟨_, hbase⟩ => hbase.symm)
  next hfmt => exact (Buffer.overlaps_eq_false_iff _ _).mpr (hclash.resolve_right fun ⟨hreal, _⟩ => hfmt hreal)

section
variable {fmt : Fmt} {s : State} {vs : List F64}
  (hvs : readReals s.config fmt s.dmem s.args.a2.toNat s.args.a1.toNat = vs)
include hvs

theorem schroederFinish_of_finite (hfin : ∀ v ∈ vs, v.isFinite = true) (htotal : (totalEnergy vs).isFinite = true) :
    schroederFinish fmt s = ⟨.ok, { s.res with r0 := (totalEnergy vs).bits },
      writeReals s.dmem s.args.a0.toNat (decayCurve s.config.dbFloor vs)⟩ := by
  have hall : vs.all F64.isFinite = true := List.all_eq_true.mpr hfin
  simp [schroederFinish, hvs, hall, (not_special _ htotal).2]

theorem schroederFinish_of_nonfinite (h : (∃ v ∈ vs, v.isFinite = false) ∨ (totalEnergy vs).isInf = true) :
    schroederFinish fmt s = s.raise .nonfinite := by
  by_cases hall : vs.all F64.isFinite = true
  · have hinf : (totalEnergy vs).isInf = true := h.resolve_left fun ⟨v, hv, hnot⟩ => by
      simp [List.all_eq_true.mp hall v hv] at hnot
    simp [schroederFinish, hvs, hinf]
  · simp [schroederFinish, hvs, hall]

end

/-- Settles O37: the checks pass, and the body is one of its two branches; the values are read before the curve is
written, so it may lie over them. -/
theorem schroederStoresCurveOrNonfinite : Obligations.SchroederStoresCurveOrNonfinite := by
  intro fmt s l d c vs hlen h0 hdst hsrc hclash
  have hexec := exec_of_passed (.schroeder fmt) s (schroederCheck_of_placed hlen h0 hdst hsrc hclash)
  rw [commandFinish] at hexec
  constructor
  · rintro ⟨hfin, htotal⟩
    rw [schroederFinish_of_finite rfl hfin htotal] at hexec
    refine ⟨_, hexec, completedWith_complete _ rfl, rfl, fun k hk => ?_⟩
    have hk' : k < (decayCurve s.config.dbFloor vs).length := by simpa [vs] using hk
    dsimp only
    rw [← decibel_eq, ← decayCurve_getElem _ _ hk']
    exact readReal_writeReals _ _ _ _ _ hk'
  · intro h
    rw [schroederFinish_of_nonfinite rfl h] at hexec
    exact ⟨_, hexec, completedWith_complete _ rfl, rfl, rfl⟩

end Sys2Proof.Machine
end

section
/-!
PROOFS. DECAY_FIT (44_decay.md R264 to R269): the window scan, the regression sums, and the command's ways to end.
-/

namespace Sys2Proof.Machine

open Sys2Proof.Fp

/-! ### The window scan (44_decay.md R265) -/

theorem firstIndex_eq_findIdx? {α : Type} (p : α → Bool) (k : Nat) (l : List α) :
    firstIndex p k l = (l.findIdx? p).map (k + ·) := by
  induction l generalizing k with
  | nil => rfl
  | cons v vs ih =>
    rw [firstIndex, List.findIdx?_cons]
    split
    · rfl
    · rw [ih, Option.map_map]
      congr 1
      funext i
      exact Nat.add_right_comm k 1 i

section
variable {c : Config} {fmt : Fmt} {m : Memory} {b n : Nat} {startDb endDb : F64}

theorem scanStart_eq_some {start : Nat} (hn : start < n)
    (hin : le endDb (readReal c fmt m b start) = true ∧ le (readReal c fmt m b start) startDb = true)
    (hbefore : ∀ i, i < start →
      ¬ (le endDb (readReal c fmt m b i) = true ∧ le (readReal c fmt m b i) startDb = true)) :
    scanStart startDb endDb (readReals c fmt m b n) = some start := by
  rw [scanStart, firstIndex_eq_findIdx?, List.findIdx?_eq_some_iff_getElem.mpr ⟨by simpa using hn, ?_, fun i hi => ?_⟩]
  · rw [Option.map_some, Nat.zero_add]
  · simpa [readReals_getElem] using hin
  · simpa [readReals_getElem] using hbefore i hi

theorem scanStart_eq_none
    (h : ∀ i, i < n → ¬ (le endDb (readReal c fmt m b i) = true ∧ le (readReal c fmt m b i) startDb = true)) :
    scanStart startDb endDb (readReals c fmt m b n) = none := by
  rw [scanStart, firstIndex_eq_findIdx?, List.findIdx?_eq_none_iff.mpr, Option.map_none]
  rw [forall_mem_readReals]
  simpa using h

theorem scanEnd_eq_some {start fin : Nat} (hlt : start < fin) (hn : fin < n)
    (hle : le (readReal c fmt m b fin) endDb = true)
    (hbetween : ∀ i, start < i → i < fin → le (readReal c fmt m b i) endDb = false) :
    scanEnd endDb (readReals c fmt m b n) start = some fin := by
  obtain ⟨j, rfl⟩ := Nat.exists_eq_add_of_lt hlt
  rw [scanEnd, firstIndex_eq_findIdx?,
    List.findIdx?_eq_some_iff_getElem (i := j).mpr ⟨by rw [List.length_drop, readReals_length]; omega, ?_, fun i hi => ?_⟩]
  · rw [Option.map_some, Nat.add_right_comm]
  · rw [List.getElem_drop, readReals_getElem, Nat.add_right_comm]
    exact hle
  · rw [List.getElem_drop, readReals_getElem, hbetween _ (by omega) (by omega)]
    exact Bool.false_ne_true

theorem scanEnd_eq_none {start : Nat} (h : ∀ i, start < i → i < n → le (readReal c fmt m b i) endDb = false) :
    scanEnd endDb (readReals c fmt m b n) start = none := by
  rw [scanEnd, firstIndex_eq_findIdx?, List.findIdx?_eq_none_iff.mpr, Option.map_none]
  intro v hv
  obtain ⟨i, hi, rfl⟩ := List.getElem_of_mem hv
  rw [List.length_drop, readReals_length] at hi
  rw [List.getElem_drop, readReals_getElem]
  exact h _ (by omega) (by omega)

theorem WindowFound.scans {start fin : Nat} (h : WindowFound (readReal c fmt m b) n startDb endDb start fin) :
    scanStart startDb endDb (readReals c fmt m b n) = some start ∧
      scanEnd endDb (readReals c fmt m b n) start = some fin := by
  obtain ⟨hlt, hn, hin, hbefore, hle, hbetween⟩ := h
  exact ⟨scanStart_eq_some (hlt.trans hn) hin hbefore, scanEnd_eq_some hlt hn hle hbetween⟩

end

/-! ### The regression (44_decay.md R266) -/

section
variable (fs : Nat) (c : List F64)

theorem regressionSums_self (start : Nat) :
    regressionSums fs c start start =
      Sums.point ⟨Config.zero, Config.zero, Config.zero, Config.zero⟩ (div (ofNat start) (ofNat fs))
        (c.getD start Config.zero) := by
  rw [regressionSums, Nat.sub_self]
  rfl

theorem regressionSums_succ {start fin : Nat} (h : start ≤ fin) :
    regressionSums fs c start (fin + 1) =
      (regressionSums fs c start fin).point (div (ofNat (fin + 1)) (ofNat fs)) (c.getD (fin + 1) Config.zero) := by
  have hnext : start + (fin - start + 1) = fin + 1 := by omega
  rw [regressionSums, regressionSums, Nat.succ_sub h, List.range_succ, List.foldl_concat, hnext]

end

section
variable {singEps : F64} {fs start fin : Nat} {c : List F64}

theorem fitSlope_eq_some
    (hden : lt (abs (denominator (ofNat (fin - start + 1)) (regressionSums fs c start fin))) singEps = false)
    (hneg : lt (slope (ofNat (fin - start + 1)) (regressionSums fs c start fin)) Config.zero = true) :
    fitSlope singEps fs c start fin = some (slope (ofNat (fin - start + 1)) (regressionSums fs c start fin)) := by
  simp [fitSlope, hden, hneg]

theorem fitSlope_eq_none
    (h : lt (abs (denominator (ofNat (fin - start + 1)) (regressionSums fs c start fin))) singEps = true ∨
      lt (slope (ofNat (fin - start + 1)) (regressionSums fs c start fin)) Config.zero = false) :
    fitSlope singEps fs c start fin = none := by
  rcases h with h | h <;> simp [fitSlope, h]

end

/-! ### The command -/

/-- What DECAY_FIT reports for a window and its slope (44_decay.md R268, R269). -/
def State.decayReport (s : State) (start fin : Nat) (sl : F64) : Finish :=
  let t := decayTime (f64bits s.args.a4) (f64bits s.args.a5) sl
  ⟨.ok, ⟨t.bits, (rt60 (f64bits s.args.a4) (f64bits s.args.a5) t).bits, BitVec.ofNat 64 start, BitVec.ofNat 64 fin⟩, s.dmem⟩

/-- The operands meet every check of R264. -/
structure DecayFitOperands (s : State) : Prop where
  lenPos : 0 < s.args.a1.toNat
  lenSmall : s.args.a1.toNat < 2 ^ 32
  ratePos : 0 < s.args.a3.toNat
  rateSmall : s.args.a3.toNat < 2 ^ 32
  startFinite : (f64bits s.args.a4).isFinite = true
  endFinite : (f64bits s.args.a5).isFinite = true
  decreasing : (f64bits s.args.a5).units < (f64bits s.args.a4).units
  curve : Placed s 8 s.decayCurveBuf.base s.decayCurveBuf.bytes

theorem decayFitCheck_of_operands {s : State} (h : DecayFitOperands s) : decayFitCheck s = none := by
  have hwindow : windowBad (f64bits s.args.a4) (f64bits s.args.a5) = false := by
    rw [windowBad, h.startFinite, h.endFinite, le_of_not_nan (not_special _ h.startFinite).1 (not_special _ h.endFinite).1,
      decide_eq_false (not_le.mpr h.decreasing)]
    rfl
  rw [decayFitCheck, countBad_eq_false h.lenSmall, countBad_eq_false h.rateSmall, decide_eq_false h.ratePos.ne', hwindow,
    Bool.or_self, Bool.or_self, Bool.or_self, if_neg Bool.false_ne_true, if_neg h.lenPos.ne']
  exact bufferErrors_of_placed h.curve rfl

theorem exec_decayFit_of_finish {s : State} {f : Finish} (h : DecayFitOperands s) (hf : decayFitFinish s = f) :
    exec .decayFit s = .next (s.complete f) := by
  subst hf
  exact exec_of_passed .decayFit s (decayFitCheck_of_operands h)

section
variable {s : State} {c : List F64} (hc : readReals s.config .real64 s.dmem s.args.a2.toNat s.args.a1.toNat = c)
include hc

/-- 44_decay.md R265, R266, R269: the body by its three searches. -/
theorem decayFitFinish_eq :
    decayFitFinish s =
      (scanStart (f64bits s.args.a4) (f64bits s.args.a5) c).elim (s.decayFail none none) fun start =>
        (scanEnd (f64bits s.args.a5) c start).elim (s.decayFail (some start) none) fun fin =>
          (fitSlope s.config.singEps s.args.a3.toNat c start fin).elim (s.decayFail (some start) (some fin))
            (s.decayReport start fin) := by
  subst hc
  fun_cases decayFitFinish s with
  | case1 startDb endDb c h0 =>
    subst startDb endDb c
    rw [h0, Option.elim_none]
  | case2 startDb endDb c start h0 h1 =>
    subst startDb endDb c
    rw [h0, Option.elim_some, h1, Option.elim_none]
  | case3 startDb endDb c start h0 fin h1 h2 =>
    subst startDb endDb c
    rw [h0, Option.elim_some, h1, Option.elim_some, h2, Option.elim_none]
  | case4 startDb endDb c start h0 fin h1 sl h2 =>
    subst startDb endDb c
    rw [h0, Option.elim_some, h1, Option.elim_some, h2, Option.elim_some]
    rfl

theorem decayFitFinish_of_noStart (h : scanStart (f64bits s.args.a4) (f64bits s.args.a5) c = none) :
    decayFitFinish s = s.decayFail none none := by
  rw [decayFitFinish_eq hc, h, Option.elim_none]

variable {start : Nat} (hstart : scanStart (f64bits s.args.a4) (f64bits s.args.a5) c = some start)
include hstart

theorem decayFitFinish_of_noEnd (h : scanEnd (f64bits s.args.a5) c start = none) :
    decayFitFinish s = s.decayFail (some start) none := by
  rw [decayFitFinish_eq hc, hstart, Option.elim_some, h, Option.elim_none]

variable {fin : Nat} (hend : scanEnd (f64bits s.args.a5) c start = some fin)
include hend

theorem decayFitFinish_of_noFit (h : fitSlope s.config.singEps s.args.a3.toNat c start fin = none) :
    decayFitFinish s = s.decayFail (some start) (some fin) := by
  rw [decayFitFinish_eq hc, hstart, Option.elim_some, hend, Option.elim_some, h, Option.elim_none]

theorem decayFitFinish_of_fit {sl : F64} (h : fitSlope s.config.singEps s.args.a3.toNat c start fin = some sl) :
    decayFitFinish s = s.decayReport start fin sl := by
  rw [decayFitFinish_eq hc, hstart, Option.elim_some, hend, Option.elim_some, h, Option.elim_some]

end

/-- Settles O40: the sums end with their last point; the checks pass, and the window and the fit are found. -/
theorem decayFitReportsTimes : Obligations.DecayFitReportsTimes := by
  refine ⟨fun fs curve start => ⟨regressionSums_self fs curve start, fun fin => regressionSums_succ fs curve⟩, ?_⟩
  intro s start fin l c sdb edb n p den sl hl0 hl hfs0 hfs hsdb hedb hlt hplaced hwindow hden hsl
  obtain ⟨hstart, hend⟩ := hwindow.scans
  exact exec_decayFit_of_finish ⟨hl0, hl, hfs0, hfs, hsdb, hedb, hlt, hplaced⟩
    (decayFitFinish_of_fit rfl hstart hend (fitSlope_eq_some hden hsl))

/-- Settles O41: the checks pass, and each clause is one failure of the body. -/
theorem decayFitReportsSentinels : Obligations.DecayFitReportsSentinels := by
  intro s l c curve sdb edb fails hl0 hl hfs0 hfs hsdb hedb hlt hplaced
  have ho : DecayFitOperands s := ⟨hl0, hl, hfs0, hfs, hsdb, hedb, hlt, hplaced⟩
  refine ⟨fun hnone => ?_, fun start hn hin hbefore hafter => ?_, fun start fin hwindow => ?_⟩
  · exact exec_decayFit_of_finish ho (decayFitFinish_of_noStart rfl (scanStart_eq_none hnone))
  · exact exec_decayFit_of_finish ho
      (decayFitFinish_of_noEnd rfl (scanStart_eq_some hn hin hbefore) (scanEnd_eq_none hafter))
  · intro n p den sl hfit
    obtain ⟨hstart, hend⟩ := hwindow.scans
    exact exec_decayFit_of_finish ho (decayFitFinish_of_noFit rfl hstart hend (fitSlope_eq_none hfit))

/-! ### The times (44_decay.md R268, R269) -/

/-- Settles O42: the ratios of 60 to the windows are 6 and 3, and the windows span −10 and −20. -/
theorem decayTimesOfTheStandardWindows : Obligations.DecayTimesOfTheStandardWindows := by
  have h6 : div Config.sixty (sub ⟨minusFive⟩ ⟨minusFifteen⟩) = ofNat 6 := by decide +kernel
  have h3 : div Config.sixty (sub ⟨minusFive⟩ ⟨minusTwentyFive⟩) = ofNat 3 := by decide +kernel
  have hten : sub ⟨minusFifteen⟩ ⟨minusFive⟩ = ofInt (-10) := by decide +kernel
  have htwenty : sub ⟨minusTwentyFive⟩ ⟨minusFive⟩ = ofInt (-20) := by decide +kernel
  refine ⟨fun t => ⟨by rw [rt60, h6], by rw [rt60, h3]⟩, fun sl hsl hneg => ?_⟩
  have hpos {i : ℤ} (hi : i.natAbs < 2 ^ 53) (hi1 : i ≤ -1) : lt Config.zero (div (ofInt i) sl) = true := by
    obtain ⟨hfin, hval⟩ := ofInt_exact hi
    exact zero_lt_div_of_le_neg_one hfin (by rw [hval]; exact_mod_cast hi1) hsl hneg
  rw [decayTime, decayTime, hten, htwenty]
  exact ⟨hpos (by decide) (by decide), hpos (by decide) (by decide)⟩

/-- DECAY_FIT on the curve 0, −2 at 1 Hz with start_db the least subnormal and end_db 0. -/
def subnormalWindow : State :=
  { State.reset with
    args := ⟨0#64, 2#64, 0#64, 1#64, leastSubnormal.bits, Config.zero.bits, 0#64, 0#64⟩
    dmem := writeReals [] 0 [Config.zero, ofInt (-2)] }

/-- Refutes O43: the fit is found with slope −2, and −2^−1074 / −2 = 2^−1075 ties to +0.0. -/
theorem not_everyReportedTimeIsPositive : ¬ Obligations.EveryReportedTimeIsPositive := by
  intro h
  have hpos := h _ _ (exec_next .decayFit subnormalWindow) (by decide +kernel)
  exact absurd hpos (by decide +kernel)

end Sys2Proof.Machine
end

section
/-!
PROOFS. The control command NOP (45_control.md R290).
-/

namespace Sys2Proof.Machine

/-- NOP has no check past decode and its body keeps RES and DMEM, so its completion shows in STATUS alone. -/
theorem exec_nop (s : State) :
    exec .nop s = .next { s with errCode := .ok, err := false, done := true, phase := .idle } :=
  exec_of_passed .nop s rfl

/-- 10_state.md R47: a legal command that the host's last access starts runs on the step after START. -/
theorem run_lastStart {s : State} {i : Instr} {v : Word} (hi : s.phase = .idle) (hc : decode s.config s.cmd = some i)
    (hv : v.getLsbD 0 = true) (hh : s.host = [.writeReg 0x08 8 v]) {t : State}
    (ht : exec i ({ s with host := [], delay := s.delay - 1, ie := v.getLsbD 1 } : State).acceptStart = .next t) :
    core.run 2 s = .next t := by
  have hstart := step_writeReg (State.engineTurn_of_idle hi) (by decide) (by decide) hh
  have haccept := hstart.trans (congrArg _ (State.writeCtrl_of_start hi hv))
  have hrun := (stepRunsDecodedCommand (State.acceptStart _) i rfl (.inr rfl) (by exact hc)).trans ht
  exact (core_run_succ 1 haccept).trans (core_run_succ 0 hrun)

/-- Settles O18: NOP's completion, and the run of the one START that finds the reset word 0, which is NOP's, in CMD. -/
theorem nopCompletes : Obligations.NopCompletes :=
  ⟨exec_nop, _, run_lastStart rfl (by decide) rfl rfl (exec_nop _), by decide, rfl, fun _ => rfl⟩

end Sys2Proof.Machine
end

section
/-!
SUPPORT. The codes of a command (60_exceptions.md R301 to R303): which ones its checks can give and which ones its body; a
chain of checks read off class by class.
-/

namespace Sys2Proof.Machine

open Sys2Proof.Fp

/-! ### The codes of the checks -/

theorem ErrCode.code_le (c : ErrCode) : c.code.toNat ≤ 0x0A := by cases c <;> decide

/-- 60_exceptions.md R304: the codes 0x01 to 0x08 of the check classes. -/
abbrev ErrCode.OfCheck (c : ErrCode) : Prop := c.code.toNat ∈ [1, 2, 3, 4, 5, 6, 7, 8]

theorem ofCheck_of_ite {p : Prop} [Decidable p] {c : ErrCode} {x : Option ErrCode} (hc : c.OfCheck)
    (hx : ∀ e ∈ x, e.OfCheck) : ∀ e ∈ (if p then some c else x), e.OfCheck := by
  split
  · rintro e ⟨⟩
    exact hc
  · exact hx

theorem ofCheck_of_bufferErrors {size : Nat} {bufs : List Buffer} {clash : Bool} :
    ∀ e ∈ bufferErrors size bufs clash, e.OfCheck :=
  ofCheck_of_ite (by decide) (ofCheck_of_ite (by decide) (ofCheck_of_ite (by decide) nofun))

/-- 60_exceptions.md R302, R303: a failing check gives one of the codes 0x01 to 0x08. -/
theorem commandCheck_ofCheck (i : Instr) (s : State) : ∀ e ∈ commandCheck i s, e.OfCheck := by
  cases i with
  | nop => nofun
  | fft | ifft | tspUp | tspDown | tspgen | deconvMul => exact ofCheck_of_ite (by decide) ofCheck_of_bufferErrors
  | load16 | normq | schroeder | decayFit =>
    exact ofCheck_of_ite (by decide) (ofCheck_of_ite (by decide) ofCheck_of_bufferErrors)
  | nlms =>
    exact ofCheck_of_ite (by decide) (ofCheck_of_ite (by decide) (ofCheck_of_ite (by decide) ofCheck_of_bufferErrors))
  | deconv =>
    exact ofCheck_of_ite (by decide) (ofCheck_of_ite (by decide) (ofCheck_of_ite (by decide)
      (ofCheck_of_ite (by decide) ofCheck_of_bufferErrors)))

/-! ### The codes of the bodies -/

/-- 60_exceptions.md R302, R305: the codes a command's body can end with. Outside the configurations R6 speaks of, the last
step of TSPGEN and DECONV may raise NONFINITE (log 16). -/
def BodyCode (c : Config) (i : Instr) (e : ErrCode) : Prop :=
  match i with
  | .normq _ | .schroeder _ => e = .ok ∨ e = .nonfinite
  | .decayFit => e = .ok ∨ e = .decayNotDetected
  | .tspgen => (e = .ok ∨ e = .nonfinite) ∧ (c.legal = true → e = .ok)
  | .deconv => (e = .ok ∨ e = .nonfinite) ∧ (c.legal = true → c.docLiterals = true → e = .ok)
  | _ => e = .ok

/-- 60_exceptions.md R305, 42_deconv.md R203: NORMQ raises before any write. -/
theorem normqFinish_cases (fmt : Fmt) (s : State) :
    normqFinish fmt s = s.raise .nonfinite ∨ (normqFinish fmt s).code = .ok := by
  unfold normqFinish
  split
  · exact .inl rfl
  · exact .inr rfl

/-- 60_exceptions.md R305, 44_decay.md R260: SCHROEDER raises before any write. -/
theorem schroederFinish_cases (fmt : Fmt) (s : State) :
    schroederFinish fmt s = s.raise .nonfinite ∨ (schroederFinish fmt s).code = .ok := by
  fun_cases schroederFinish fmt s with
  | case1 => exact .inl rfl
  | case2 => exact .inl rfl
  | case3 => exact .inr rfl

theorem decayFitFinish_code (s : State) :
    (decayFitFinish s).code = .ok ∨ (decayFitFinish s).code = .decayNotDetected := by
  fun_cases decayFitFinish s with
  | case1 => exact .inr rfl
  | case2 => exact .inr rfl
  | case3 => exact .inr rfl
  | case4 => exact .inl rfl

theorem tspgenFinish_code (s : State) : (tspgenFinish s).code = .ok ∨ (tspgenFinish s).code = .nonfinite := by
  unfold tspgenFinish
  split
  · exact .inr rfl
  · exact .inl rfl

theorem deconvFinish_code (s : State) : (deconvFinish s).code = .ok ∨ (deconvFinish s).code = .nonfinite := by
  unfold deconvFinish
  split
  · exact .inr rfl
  · exact .inl rfl

theorem ite_some_eq_none {p : Prop} [Decidable p] {c : ErrCode} {x : Option ErrCode} :
    (if p then some c else x) = none ↔ ¬ p ∧ x = none := by
  by_cases h : p <;> simp [h]

theorem Buffer.placed_of_aligned_inRange {s : State} {b : Buffer} (ha : b.aligned = true)
    (hr : b.inRange s.config.dmemSize = true) (h0 : b.count ≠ 0) : Placed s (elemAlign b.fmt) b.base b.bytes :=
  ⟨b.aligned_iff.mp ha, ((b.inRange_iff _).mp hr).resolve_left h0⟩

/-- The converse of `deconvCheck_of_operands`. -/
theorem deconvOperands_of_check {s : State} (h : deconvCheck s = none) : DeconvOperands s := by
  simp only [deconvCheck, ite_some_eq_none, bufferErrors_eq_none, Bool.or_eq_false_iff, Buffer.overlaps_eq_false_iff,
    deconvWork_bytes, Bool.or_eq_true, not_or, countBad, decide_eq_true_eq, not_le, not_not, not_lt] at h
  obtain ⟨⟨⟨⟨hexc, hresp⟩, -⟩, hrate⟩, ⟨he0, hm0⟩, hrates, hlog, halign, hrange, ⟨⟨⟨hwd, hwx⟩, hwr⟩, hdx⟩, hdr⟩ := h
  have hplaced := fun b hb => Buffer.placed_of_aligned_inRange (s := s) (halign b hb) (hrange b hb)
  have hn : s.deconvSize ≠ 0 := (Nat.two_pow_pos _).ne'
  have hwork := hplaced s.deconvWork (by simp) (Nat.mul_ne_zero three_ne_zero hn)
  rw [deconvWork_bytes] at hwork
  exact ⟨Nat.pos_of_ne_zero he0, hexc, Nat.pos_of_ne_zero hm0, hresp, hrates, Nat.pos_of_ne_zero hrate,
    Nat.pow_le_pow_right two_pos hlog, hplaced s.deconvDst (by simp) hn, hplaced s.deconvExc (by simp) he0,
    hplaced s.deconvResp (by simp) hm0, hwork, hwd, hwx, hwr, hdx, hdr⟩

/-- 60_exceptions.md R302, R305: past its checks a command ends with a code of its body. -/
theorem commandFinish_bodyCode {i : Instr} {s : State} (h : commandCheck i s = none) :
    BodyCode s.config i (commandFinish i s).code := by
  cases i with
  | nop | fft | ifft | tspUp | tspDown | load16 | deconvMul | nlms => rfl
  | tspgen =>
    refine ⟨tspgenFinish_code s, fun hl => ?_⟩
    have hlog : s.log2n ≤ s.config.log2nMax := by simpa [State.log2nBad] using (ite_some_eq_none.mp h).1
    exact congrArg Finish.code (tspgenFinish_eq (log2n_le s hl hlog))
  | normq fmt => exact (normqFinish_cases fmt s).symm.imp_right (congrArg Finish.code)
  | deconv =>
    exact ⟨deconvFinish_code s, fun hl hd => congrArg Finish.code (deconvFinish_eq (deconvOperands_of_check h) hl hd)⟩
  | schroeder fmt => exact (schroederFinish_cases fmt s).symm.imp_right (congrArg Finish.code)
  | decayFit => exact decayFitFinish_code s

theorem BodyCode.not_ofCheck {c : Config} {i : Instr} {e : ErrCode} (h : BodyCode c i e) : ¬ e.OfCheck := by
  have hcode : e = .ok ∨ e = .nonfinite ∨ e = .decayNotDetected := by
    cases i with
    | nop | fft | ifft | tspUp | tspDown | load16 | deconvMul | nlms => exact .inl h
    | tspgen | deconv => exact h.1.imp_right .inl
    | normq | schroeder => exact Or.imp_right .inl h
    | decayFit => exact Or.imp_right .inr h
  rcases hcode with rfl | rfl | rfl <;> decide

/-! ### The code a command ends with -/

/-- The code e is the one a chain of checks gives, or past it one of the codes B. -/
def Yields (x : Option ErrCode) (B : ErrCode → Prop) (e : ErrCode) : Prop :=
  match x with
  | some c => e = c
  | none => B e

theorem exec_yields {i : Instr} {s t : State} (h : exec i s = .next t) :
    Yields (commandCheck i s) (BodyCode s.config i) t.errCode := by
  rw [exec_errCode i s t h]
  cases hc : commandCheck i s with
  | some c => rfl
  | none => exact commandFinish_bodyCode hc

theorem exec_ofCheck_or_bodyCode {i : Instr} {s t : State} (h : exec i s = .next t) :
    t.errCode.OfCheck ∨ BodyCode s.config i t.errCode := by
  have hy := exec_yields h
  cases hc : commandCheck i s with
  | some c =>
    rw [hc] at hy
    cases hy
    exact .inl (commandCheck_ofCheck i s _ hc)
  | none =>
    rw [hc] at hy
    exact .inr hy

/-! ### A chain of checks, class by class -/

section
variable {B : ErrCode → Prop} {e : ErrCode} {R : Prop}

/-- One class: its code where its condition p holds, else what the rest of the chain says. -/
theorem Yields.ite {q p : Prop} [Decidable q] [Decidable p] {c : ErrCode} {x : Option ErrCode}
    (h : Yields (if q then some c else x) B e) (hqp : q ↔ p) (hrest : ¬ p → Yields x B e → R) :
    if p then e = c else R := by
  by_cases hp : p
  · rw [if_pos (hqp.mpr hp)] at h
    rwa [if_pos hp]
  · rw [if_neg (mt hqp.mp hp)] at h
    rw [if_neg hp]
    exact hrest hp h

/-- Classes (6) to (8) of 60_exceptions.md R303. -/
theorem Yields.buffers {size : Nat} {bufs : List Buffer} {clash : Bool} {A F O : Prop} [Decidable A] [Decidable F]
    [Decidable O] (h : Yields (bufferErrors size bufs clash) B e)
    (hA : (∃ b ∈ bufs, b.base % elemAlign b.fmt ≠ 0) ↔ A)
    (hF : (∃ b ∈ bufs, b.count ≠ 0 ∧ size < b.base + b.bytes) ↔ F) (hO : clash = true ↔ O) (hrest : B e → R) :
    if A then e = .align else if F then e = .range else if O then e = .overlap else R :=
  h.ite (by simp [← hA, Buffer.aligned]) fun _ h =>
    h.ite (by simp [← hF, Buffer.inRange]) fun _ h => h.ite hO fun _ h => hrest h

/-- Classes (6) and (7), for a command with one buffer. -/
theorem Yields.buffer {size : Nat} {b : Buffer} {A F : Prop} [Decidable A] [Decidable F]
    (h : Yields (bufferErrors size [b] false) B e) (hA : b.base % elemAlign b.fmt ≠ 0 ↔ A)
    (hF : b.count ≠ 0 ∧ size < b.base + b.bytes ↔ F) (hrest : B e → R) :
    if A then e = .align else if F then e = .range else R :=
  h.ite (by simp [← hA, Buffer.aligned]) fun _ h =>
    h.ite (by simp [← hF, Buffer.inRange]) fun _ h => hrest h

end

end Sys2Proof.Machine
end

section
/-!
PROOFS. Completion, failed checks and execution errors (60_exceptions.md R300 to R306).
-/

namespace Sys2Proof.Machine

/-- Settles O9: `exec` is the completion of a failing check or of the body, and every code is in the table. -/
theorem everyCommandCompletesOnce : Obligations.EveryCommandCompletesOnce := fun i s =>
  have h := exec_next i s
  ⟨_, _, h, completedWith_complete s rfl, exec_sameOutside h, ErrCode.code_le _⟩

/-- Settles O10: no body ends with such a code, so a check has failed, and the checks do not depend on DMEM. -/
theorem failedCheckReadsAndWritesNothing : Obligations.FailedCheckReadsAndWritesNothing := by
  intro i s t h hcode
  cases hc : commandCheck i s with
  | some c =>
    have hraise := exec_of_check i s c hc
    rw [h] at hraise
    cases hraise
    exact ⟨rfl, rfl, fun m => exec_of_check i _ c ((commandCheck_congr i s _ rfl rfl).trans hc)⟩
  | none =>
    have hbody := exec_yields h
    rw [hc] at hbody
    exact absurd hcode (BodyCode.not_ofCheck hbody)

/-- The code of a check is no execution error. -/
theorem ErrCode.OfCheck.ne_executionError {c : ErrCode} (h : c.OfCheck) : c ≠ .nonfinite ∧ c ≠ .decayNotDetected := by
  constructor <;> rintro rfl <;> exact absurd h (by decide)

section
variable {i : Instr} {s t : State} (h : exec i s = .next t)
include h

/-- 60_exceptions.md R305: a command whose body ends with OK only ends with no execution error. -/
theorem exec_errCode_of_okBody (hok : ∀ e, BodyCode s.config i e → e = .ok) :
    t.errCode ≠ .nonfinite ∧ t.errCode ≠ .decayNotDetected := by
  rcases exec_ofCheck_or_bodyCode h with hc | hb
  · exact hc.ne_executionError
  · rw [hok _ hb]
    decide

/-- 60_exceptions.md R305: a command whose body raises NONFINITE before any write or ends with OK. -/
theorem exec_nonfinite_writes_nothing
    (hbody : commandFinish i s = s.raise .nonfinite ∨ (commandFinish i s).code = .ok) :
    t.errCode ≠ .decayNotDetected ∧ (t.errCode = .nonfinite → t.dmem = s.dmem ∧ t.res = s.res) := by
  cases hc : commandCheck i s with
  | some c =>
    rw [exec_of_check i s c hc] at h
    cases h
    exact ⟨(commandCheck_ofCheck i s c hc).ne_executionError.2, fun _ => ⟨rfl, rfl⟩⟩
  | none =>
    rw [exec_of_passed i s hc] at h
    cases h
    rcases hbody with hraise | hok
    · rw [hraise]
      exact ⟨nofun, fun _ => ⟨rfl, rfl⟩⟩
    · rw [State.complete_errCode, hok]
      exact ⟨nofun, nofun⟩

end

/-- Settles O11: NORMQ and SCHROEDER raise before any write; DECAY_FIT's body keeps DMEM; the other bodies end with OK, those of
TSPGEN and DECONV in the configurations that keep their signals finite. -/
theorem executionErrorsWriteNoMemory : Obligations.ExecutionErrorsWriteNoMemory := by
  refine ⟨fun fmt s t h => ?_, fun s t h => ⟨?_, ?_⟩, fun i s t hi h => exec_errCode_of_okBody h fun e hb => ?_⟩
  · rcases h with h | h
    · exact exec_nonfinite_writes_nothing h (normqFinish_cases fmt s)
    · exact exec_nonfinite_writes_nothing h (schroederFinish_cases fmt s)
  · obtain ⟨c, rfl⟩ | ⟨-, rfl⟩ := exec_cases h
    · rfl
    · exact decayFitFinish_dmem s
  · rcases exec_ofCheck_or_bodyCode h with hc | hok | hfail
    · exact hc.ne_executionError.1
    · rw [hok]
      decide
    · rw [hfail]
      decide
  · rcases hi with rfl | rfl | rfl | rfl | rfl | rfl | rfl | ⟨fmt, rfl⟩ | ⟨hl, rfl⟩ | ⟨hl, hd, rfl⟩
    exacts [hb, hb, hb, hb, hb, hb, hb, hb, hb.2 hl, hb.2 hl hd]

end Sys2Proof.Machine
end

section
/-!
PROOFS. The check order of the commands (60_exceptions.md R303): each class's condition in the terms of its rule.
-/

namespace Sys2Proof.Machine

open Sys2Proof.Fp

/-! ### The conditions of the classes -/

theorem countBad_iff (w : Word) : countBad w = true ↔ 2 ^ 32 ≤ w.toNat := decide_eq_true_iff

theorem State.log2nBad_iff (s : State) : s.log2nBad = true ↔ s.config.log2nMax < s.args.a1.toNat := decide_eq_true_iff

theorem State.points_ne_zero (s : State) : s.points ≠ 0 := (Nat.two_pow_pos _).ne'

/-- 20_memory.md R85. -/
theorem Buffer.overlaps_iff_not_apart (b c : Buffer) : b.overlaps c = true ↔ ¬ Apart b.base b.bytes c.base c.bytes := by
  rw [← Buffer.overlaps_eq_false_iff, Bool.not_eq_false]

/-- 20_memory.md R85, for two buffers of one length that may be the same one. -/
theorem Buffer.overlapsUnlessSame_iff_not_apart (b c : Buffer) (h : b.bytes = c.bytes) :
    b.overlapsUnlessSame c = true ↔ b.base ≠ c.base ∧ ¬ Apart b.base b.bytes c.base c.bytes := by
  rw [Buffer.overlapsUnlessSame_iff b c h, Buffer.overlaps_iff_not_apart, and_comm]

theorem windowBad_iff (x y : F64) :
    windowBad x y = true ↔ x.isFinite = false ∨ y.isFinite = false ∨ x.units ≤ y.units := by
  cases hx : x.isFinite with
  | false => simp [windowBad, hx]
  | true =>
    cases hy : y.isFinite with
    | false => simp [windowBad, hy]
    | true => simp [windowBad, hx, hy, le_of_not_nan (not_special x hx).1 (not_special y hy).1]

/-- 44_decay.md R260: dst may be src itself when FMT = REAL64. -/
theorem schroederClash_iff (fmt : Fmt) (s : State) :
    (if fmt = .real64 then s.schroederDst.overlapsUnlessSame (s.schroederSrc fmt)
      else s.schroederDst.overlaps (s.schroederSrc fmt)) = true ↔
    ¬ (Apart s.schroederDst.base s.schroederDst.bytes (s.schroederSrc fmt).base (s.schroederSrc fmt).bytes ∨
      (fmt = .real64 ∧ s.schroederDst.base = (s.schroederSrc fmt).base)) := by
  split
  next hfmt =>
    subst hfmt
    rw [Buffer.overlapsUnlessSame_iff_not_apart _ _ (by rfl)]
    tauto
  next hfmt => rw [Buffer.overlaps_iff_not_apart, or_iff_left fun ⟨hreal, _⟩ => hfmt hreal]

/-! ### The commands -/

/-- Classes (6) and (7) of a command whose only buffer is the CPLX128 ×N one at ARG0. -/
theorem Yields.fftBuf {s : State} {B : ErrCode → Prop} {e : ErrCode}
    (h : Yields (bufferErrors s.config.dmemSize [s.fftBuf] false) B e) :
    if s.args.a0.toNat % 8 ≠ 0 then e = .align
    else if s.config.dmemSize < s.args.a0.toNat + 16 * 2 ^ s.args.a1.toNat then e = .range
    else B e :=
  h.buffer Iff.rfl (and_iff_right s.points_ne_zero) id

/-- FFT, IFFT and TSP_UP have the same checks, and their bodies end with OK. -/
theorem exec_transform_yields {i : Instr} {s t : State} (hi : i = .fft ∨ i = .ifft ∨ i = .tspUp) (h : exec i s = .next t) :
    Yields (if s.log2nBad then some .badArg else bufferErrors s.config.dmemSize [s.fftBuf] false) (· = .ok)
      t.errCode := by
  rcases hi with rfl | rfl | rfl <;> exact exec_yields h

/-- Settles O16: the chain of each command's checks, class by class, and past it the codes of its body. `Yields.buffers` leaves
the conditions of ALIGN and RANGE, and that of OVERLAP where it is not a single pair's. -/
theorem checkOrder : Obligations.CheckOrder := by
  refine ⟨fun i s t hi h => ?transform, fun s t h => ?tspDown, fun s t h => ?tspgen, fun s t h => ?load16,
    fun s t h => ?deconvMul, fun fmt s t h => ?normq, fun s t h => ?deconv, fun fmt s t h => ?nlms,
    fun fmt s t h => ?schroeder, fun s t h => ?decayFit⟩
  case transform =>
    simp only [apply_ite (t.errCode = ·)]
    exact (exec_transform_yields hi h).ite s.log2nBad_iff fun _ hy => hy.fftBuf
  case tspDown =>
    simp only [apply_ite (t.errCode = ·)]
    exact (exec_yields h).ite (by simp [State.log2nBad_iff, countBad_iff]) fun _ hy => hy.fftBuf
  case tspgen =>
    refine (exec_yields h).ite s.log2nBad_iff fun _ hy =>
      hy.buffers ?_ ?_ (Buffer.overlaps_iff_not_apart _ _) And.right
    · simp [State.tspgenDst, State.tspgenWork, elemAlign]
    · simp [State.tspgenDst, State.tspgenWork, State.points, State.log2n, Buffer.bytes, elemBytes]
  case load16 =>
    simp only [apply_ite (t.errCode = ·)]
    refine (exec_yields h).ite (by simp [State.log2nBad_iff, countBad_iff]) fun _ hy => hy.ite Iff.rfl fun _ hy =>
      hy.buffers ?_ ?_ (Buffer.overlaps_iff_not_apart _ _) id
    · simp [State.fftBuf, State.load16Src, elemAlign]
    · simp [State.fftBuf, State.load16Src, State.points, State.log2n, Buffer.bytes, elemBytes, Nat.pos_iff_ne_zero]
  case deconvMul =>
    simp only [apply_ite (t.errCode = ·)]
    refine (exec_yields h).ite s.log2nBad_iff fun _ hy => hy.buffers ?_ ?_ ?_ id
    · simp [State.fftBuf, State.mulX, State.mulY, State.mulG, elemAlign]
    · simp [State.fftBuf, State.mulX, State.mulY, State.mulG, State.points, State.log2n, Buffer.bytes, elemBytes]
    · have hclash := Buffer.overlapsUnlessSame_iff_not_apart s.fftBuf
      rw [Bool.or_eq_true, Bool.or_eq_true, or_assoc, hclash s.mulX rfl, hclash s.mulY rfl, hclash s.mulG rfl]
      exact Iff.rfl
  case normq =>
    refine (exec_yields h).ite (countBad_iff _) fun _ hy => hy.ite Iff.rfl fun h0 hy =>
      hy.buffers ?_ ?_ (Buffer.overlaps_iff_not_apart _ _) id
    · simp [State.normqDst, State.normqSrc, elemAlign]
    · simp [State.normqDst, State.normqSrc, Buffer.bytes, elemBytes, h0]
  case deconv =>
    refine (exec_yields h).ite ?_ fun _ hy => hy.ite Iff.rfl fun h0 hy => hy.ite Iff.rfl fun _ hy =>
      hy.ite (Nat.pow_lt_pow_iff_right one_lt_two).symm fun _ hy => hy.buffers ?_ ?_ ?_ And.right
    · simp only [Bool.or_eq_true, countBad_iff, decide_eq_true_eq, or_assoc]
      exact Iff.rfl
    · simp [State.deconvDst, State.deconvExc, State.deconvResp, State.deconvWork, elemAlign]
    · obtain ⟨he, hm⟩ := not_or.mp h0
      simp [State.deconvDst, State.deconvExc, State.deconvResp, State.deconvWork, State.deconvSize, State.deconvLog,
        State.excCount, State.respCount, Buffer.bytes, elemBytes, he, hm, ← Nat.mul_assoc]
    · simp only [Bool.or_eq_true, or_assoc, Buffer.overlaps_iff_not_apart, deconvWork_bytes, not_and_or]
      exact Iff.rfl
  case nlms =>
    simp only [apply_ite (t.errCode = ·)]
    refine (exec_yields h).ite (by simp) fun _ hy => hy.ite (by simp [countBad_iff]) fun _ hy =>
      hy.ite Iff.rfl fun h0 hy => hy.buffers ?_ ?_ ?_ id
    · simp [State.nlmsH, State.nlmsLine, State.nlmsX, State.nlmsY, elemAlign]
    · obtain ⟨hns, hlf⟩ := not_or.mp h0
      simp [State.nlmsH, State.nlmsLine, State.nlmsX, State.nlmsY, Buffer.bytes, elemBytes, hns, hlf]
    · simp only [Bool.or_eq_true, or_assoc, Buffer.overlaps_iff_not_apart, not_and_or]
      exact Iff.rfl
  case schroeder =>
    refine (exec_yields h).ite (countBad_iff _) fun _ hy => hy.ite Iff.rfl fun h0 hy => hy.buffers ?_ ?_ ?_ id
    · simp [State.schroederDst, State.schroederSrc, elemAlign]
    · simp [State.schroederDst, State.schroederSrc, Buffer.bytes, elemBytes, h0]
    · exact schroederClash_iff fmt s
  case decayFit =>
    refine (exec_yields h).ite ?_ fun _ hy => hy.ite Iff.rfl fun h0 hy => hy.buffer Iff.rfl (and_iff_right h0) id
    simp [countBad_iff, windowBad_iff, f64bits, or_assoc]

end Sys2Proof.Machine
end

section
/-!
SUPPORT. Which buffers a reset draws afresh (70_reset_and_hazards.md R341), which of the host's accesses duties H1 to H3
speak of (R345), and a WAIT as a step (30_encoding.md R119).
-/

namespace Sys2Proof.Machine

/-! ### The buffers a command or a reset leaves -/

/-- The buffers a word's command writes depend on the configuration and the arguments alone. -/
theorem outputBuffers_congr (i : Option Instr) (s t : State) (hc : t.config = s.config) (ha : t.args = s.args) :
    outputBuffers i t = outputBuffers i s := by
  cases i with
  | none => rfl
  | some i => simp only [outputBuffers, commandCheck_congr i s t hc ha, writtenBuffers_congr i s t hc ha]

theorem abandonedBuffers_of_idle {s : State} (i : Option Instr) (h : s.phase = .idle) : abandonedBuffers i s = [] := by
  simp [abandonedBuffers, h]

/-- A reset abandons a running command that passes its checks with all the buffers it writes. -/
theorem abandonedBuffers_of_busy {i : Instr} {s : State} (h : s.phase = .busy) (hc : commandCheck i s = none) :
    abandonedBuffers (some i) s = writtenBuffers i s := by
  simp [abandonedBuffers, outputBuffers, h, hc]

/-- Whatever the phase and the checks, a reset draws no other buffers. -/
theorem abandonedBuffers_subset (i : Instr) (s : State) : abandonedBuffers (some i) s ⊆ writtenBuffers i s := by
  cases hp : s.phase with
  | idle => simp [abandonedBuffers_of_idle _ hp]
  | busy =>
    by_cases hc : commandCheck i s = none
    · rw [abandonedBuffers_of_busy hp hc]
      exact List.Subset.refl _
    · simp [abandonedBuffers, outputBuffers, hp, hc]

theorem scramble_outside (n : Nat) (bufs : List Buffer) (m : Memory) (a : Nat)
    (h : ∀ b ∈ bufs, a < b.base ∨ b.base + b.bytes ≤ a) : Memory.read (scramble n bufs m) a = Memory.read m a := by
  induction bufs generalizing m with
  | nil => rfl
  | cons b bufs ih =>
    exact (ih _ fun c hc => h c (List.mem_cons_of_mem b hc)).trans
      (Memory.read_writeBytes_outside m b.base _ a (by simpa using h b List.mem_cons_self))

/-! ### The host's own bookkeeping -/

section
variable (s : State) (host : List HostAction) (delay : Nat)

/-- Duty H6's bytes do not depend on the host's own bookkeeping. -/
theorem State.unreadBytes_turnTaken (a n : Nat) :
    ({ s with host := host, delay := delay } : State).unreadBytes a n = s.unreadBytes a n := by
  have houtput (p : Unread) : outputBuffers (decode s.config p.cmd)
      (({ s with host := host, delay := delay } : State).startedAs p) =
        outputBuffers (decode s.config p.cmd) (s.startedAs p) := outputBuffers_congr _ _ _ rfl rfl
  simp only [State.unreadBytes, State.unreadByte, houtput]

/-- A reset keeps the host's accesses still to come, and nothing else it leaves depends on them. -/
theorem State.resetHeld_turnTaken :
    ({ s with host := host, delay := delay } : State).resetHeld = { s.resetHeld with host := host } := by
  have hdrawn : abandonedBuffers (decode s.config s.cmd) { s with host := host, delay := delay } =
      abandonedBuffers (decode s.config s.cmd) s := by
    simp only [abandonedBuffers, outputBuffers_congr _ s { s with host := host, delay := delay } rfl rfl]
  simp only [State.resetHeld, State.unreadAfterReset, hdrawn]

end

/-! ### The accesses that duties H1 to H3 forbid -/

theorem registerAccessOk_iff (off width : Nat) :
    registerAccessOk off width = true ↔ width = 8 ∧ off % 8 = 0 ∧ off < 256 := by
  simp [registerAccessOk, and_assoc]

theorem portAccessOk_iff (size addr width : Nat) :
    portAccessOk size addr width = true ↔
      (width = 1 ∨ width = 2 ∨ width = 4 ∨ width = 8) ∧ addr % width = 0 ∧ addr + width ≤ size := by
  simp [portAccessOk, and_assoc, or_assoc]

section
variable {s : State} {a : HostAction} {addr width : Nat} {r : Refusal}

/-- Duty H1 holds for reads and writes alike. -/
theorem State.perform_of_not_registerAccessOk {off : Nat} (h : ¬ registerAccessOk off width = true)
    (ha : a = .readReg off width ∨ ∃ v, a = .writeReg off width v) : s.perform a = .refused .registerAccess := by
  obtain rfl | ⟨v, rfl⟩ := ha
  · simp [State.perform, State.hostReadReg, h]
  · simp [State.perform, State.hostWriteReg, h]

/-- What the host port refuses, it refuses to reads and writes alike. -/
theorem State.perform_of_portRefusal (h : portRefusal s addr width = some r)
    (ha : a = .readMem addr width ∨ ∃ v, a = .writeMem addr width v) : s.perform a = .refused r := by
  obtain rfl | ⟨v, rfl⟩ := ha
  · simp [State.perform, State.hostReadMem, h]
  · simp [State.perform, State.hostWriteMem, h]

theorem portRefusal_of_not_portAccessOk (h : ¬ portAccessOk s.config.dmemSize addr width = true) :
    portRefusal s addr width = some .portAccess := by
  simp [portRefusal, h]

theorem portRefusal_of_busy (h : portAccessOk s.config.dmemSize addr width = true) (hb : s.phase = .busy) :
    portRefusal s addr width = some .portWhileBusy := by
  simp [portRefusal, h, hb]

end

/-! ### Runs and WAIT -/

/-- A run goes on from where its first part ends. -/
theorem core_run_add {s t : State} (k m : Nat) (h : core.run k s = .next t) : core.run (k + m) s = core.run m t := by
  induction k generalizing s with
  | zero =>
    cases h
    rw [Nat.zero_add]
  | succ k ih =>
    rw [Nat.succ_add]
    cases hs : step s with
    | next u =>
      rw [core_run_succ k hs] at h
      rw [core_run_succ (k + m) hs, ih h]
    | fault r => cases r
    | refused r => simp [Host.Core.run, core, hs] at h

/-- 30_encoding.md R119: WAIT on the host's turn is a read of STATUS, repeated until it reads DONE = 1. -/
theorem step_waitDone {s : State} {rest : List HostAction} (ht : s.engineTurn = false) (hh : s.host = .waitDone :: rest) :
    step s = .next { s with
      readData := s.statusWord, host := if s.done = true then rest else s.host, delay := s.delay - 1
      unread := if s.done = true then [] else s.unread } := by
  cases hd : s.done <;>
    simp [step, ht, State.hostTurn, hh, State.repeats, hd, State.perform, State.answerStatus, State.answer,
      State.statusWord]

end Sys2Proof.Machine
end

section
/-!
PROOFS. Reset, the waiting host and the forbidden accesses (70_reset_and_hazards.md R340, R341, R345, R348).
-/

namespace Sys2Proof.Machine

/-! ### Reset -/

/-- Settles O8: DMEM has no byte listed yet, and nothing runs. -/
theorem invariantAtReset : Obligations.InvariantAtReset where
  configLegal := by decide
  memWf := rfl
  memBelow := rfl
  errAgrees := rfl
  busyFresh hb := nomatch hb

@[simp] theorem State.resetHeld_ctrlWord (s : State) : s.resetHeld.ctrlWord = 0#64 := by simp [State.ctrlWord]

@[simp] theorem State.resetHeld_statusWord (s : State) : s.resetHeld.statusWord = 0#64 := by
  simp [State.statusWord, ErrCode.code]

@[simp] theorem State.resetHeld_cmdWord (s : State) : s.resetHeld.cmdWord = 0#64 := by simp [State.cmdWord]

theorem Args.get_zero (n : Fin 8) : Args.zero.get n = 0#64 := by fin_cases n <;> rfl

theorem Results.get_zero (n : Fin 4) : Results.zero.get n = 0#64 := by fin_cases n <;> rfl

/-- 70_reset_and_hazards.md R341: a byte that no buffer of the command in CMD holds reads as before the reset. -/
theorem State.resetHeld_read_of_not_writes {s : State} {i : Instr} {a : Nat} (hi : decode s.config s.cmd = some i)
    (ha : writes i s a = false) : Memory.read s.resetHeld.dmem a = Memory.read s.dmem a := by
  rw [writes_eq_false_iff] at ha
  rw [State.resetHeld_dmem, hi]
  exact scramble_outside _ _ _ a fun b hb => ha b (abandonedBuffers_subset i s hb)

/-- What a reset leaves unread is no RES register, and the bytes it has drawn are overwritten (log 7). -/
theorem State.mem_unreadAfterReset {s : State} {p : Unread} (h : p ∈ s.unreadAfterReset) :
    p.res = false ∧
      ∀ b ∈ abandonedBuffers (decode s.config s.cmd) s, ∀ a, b.holds a = true → p.overwritten a = true := by
  obtain ⟨q, -, rfl⟩ := List.mem_map.mp h
  refine ⟨rfl, fun b hb a ha => List.any_eq_true.mpr ⟨(b.base, b.bytes), ?_, ha⟩⟩
  exact List.mem_append_left _ (List.mem_map_of_mem hb)

/-- Duty H6 does not speak of the bytes of an abandoned command. -/
theorem Unread.overwritten_of_reset_of_writes {s : State} {i : Instr} {a : Nat} (hb : s.phase = .busy)
    (hi : decode s.config s.cmd = some i) (hc : commandCheck i s = none) (ha : writes i s a = true) :
    ∀ p ∈ s.resetHeld.unread, p.overwritten a = true := by
  intro p hp
  obtain ⟨b, hbuf, hholds⟩ := List.any_eq_true.mp ha
  obtain ⟨-, hover⟩ := State.mem_unreadAfterReset hp
  rw [hi, abandonedBuffers_of_busy hb hc] at hover
  exact hover b hbuf a hholds

theorem State.unreadByte_of_overwritten {s : State} {a : Nat} (h : ∀ p ∈ s.unread, p.overwritten a = true) :
    s.unreadByte a = false :=
  List.any_eq_false.mpr fun p hp => by simp [h p hp]

/-- Settles O52: the reset's state, field by field; the buffers it draws are those of the command in CMD, none while IDLE. -/
theorem resetClearsAndAbandons : Obligations.ResetClearsAndAbandons := by
  refine ⟨⟨rfl, rfl, rfl, Args.get_zero, Results.get_zero, rfl, rfl⟩, fun s rest hh ht => ?_⟩
  have hstep : step s = .next { s.resetHeld with host := rest } := by
    rw [step_hostAccess ht hh (by simp), State.perform, State.resetHeld_turnTaken]
  have hkept (hidle : s.phase = .idle) : s.resetHeld.dmem = s.dmem := by
    rw [State.resetHeld_dmem, abandonedBuffers_of_idle _ hidle]
    rfl
  exact ⟨_, hstep,
    ⟨s.resetHeld_ctrlWord, s.resetHeld_statusWord, s.resetHeld_cmdWord, Args.get_zero, Results.get_zero, rfl, rfl⟩,
    rfl, rfl, hkept, fun i hi a => State.resetHeld_read_of_not_writes hi,
    fun p hp => (State.mem_unreadAfterReset hp).left,
    fun hb i hi hc a ha => State.unreadByte_of_overwritten (Unread.overwritten_of_reset_of_writes hb hi hc ha)⟩

/-! ### The waiting host -/

section
variable {s : State} {i : Instr} {rest : List HostAction} (hd : s.done = false)
  (hh : s.host = .waitDone :: rest) (hi : decode s.config s.cmd = some i)
include hd hh hi

/-- While a legal command runs, a turn of the waiting host is a read of STATUS that finds it running. -/
theorem step_poll (hpos : 0 < s.delay) :
    step s = .next { s with delay := s.delay - 1, readData := s.statusWord } := by
  have ht : s.engineTurn = false := by simp [State.engineTurn, hh, hi, hpos.ne']
  simpa [hd] using step_waitDone ht hh

/-- 70_reset_and_hazards.md R348: it reads so for as long as the command lasts. -/
theorem run_polls (k : Nat) (hk : 0 < k) (hle : k ≤ s.delay) :
    core.run k s = .next { s with delay := s.delay - k, readData := s.statusWord } := by
  induction k, hk using Nat.le_induction with
  | base => exact core_run_succ 0 (step_poll hd hh hi hle)
  | succ k hk ih =>
    have hpos : 0 < s.delay - k := by omega
    exact (core_run_add k 1 (ih (by omega))).trans (core_run_succ 0 (step_poll hd hh hi hpos))

/-- When its duration is over, only the duration and what the host has read differ. -/
theorem run_duration : ∃ w, core.run s.delay s = .next { s with delay := 0, readData := w } := by
  rcases Nat.eq_zero_or_pos s.delay with h0 | hpos
  · have hs : s = { s with delay := 0 } := by rw [← h0]
    exact ⟨s.readData, by rw [h0]; exact congrArg _ hs⟩
  · exact ⟨_, by simpa using run_polls hd hh hi s.delay hpos le_rfl⟩

end

/-- The engine's turn, then the host's: the command completes, and the poll of its completion ends WAIT. -/
theorem steps_afterDuration {s : State} {i : Instr} {rest : List HostAction} (hb : s.phase = .busy) (h0 : s.delay = 0)
    (hh : s.host = .waitDone :: rest) (hi : decode s.config s.cmd = some i) :
    ∃ f, step s = .next (s.complete f) ∧
      step (s.complete f) = .next { s.complete f with
        readData := (s.complete f).statusWord, host := rest, unread := [] } := by
  refine ⟨_, (stepRunsDecodedCommand s i hb (.inl h0) hi).trans (exec_next i s), ?_⟩
  rw [step_waitDone (State.engineTurn_of_idle (State.complete_phase s _)) hh]
  simp [h0]

/-- Settles O6: the polls, then the command's completion, then the poll that reads it. -/
theorem waitingHostSeesCompletion : Obligations.WaitingHostSeesCompletion := by
  intro s i rest hb hd hh hi
  obtain ⟨w, hrun⟩ := run_duration hd hh hi
  obtain ⟨f, hcomplete, hread⟩ := steps_afterDuration (s := { s with delay := 0, readData := w }) hb rfl hh hi
  obtain ⟨hbusyBit, hdoneBit, -⟩ := (({ s with delay := 0, readData := w } : State).complete f).statusWord_fields
  exact ⟨run_polls hd hh hi, _, (core_run_add _ 1 hrun).trans (core_run_succ 0 hcomplete), rfl, rfl, rfl, hbusyBit,
    hdoneBit, (core_run_add _ 2 hrun).trans ((core_run_succ 1 hcomplete).trans (core_run_succ 0 hread))⟩

/-! ### The forbidden accesses -/

/-- Duty H6 for the RES registers, while IDLE. -/
theorem State.unreadRegister_eq_true {s : State} {p : Unread} {off : Nat} (hp : p ∈ s.unread) (hres : p.res = true)
    (hi : s.phase = .idle) (h8 : off % 8 = 0) (hlo : 0x60 ≤ off) (hhi : off < 0x80) :
    s.unreadRegister (regAt off) = true := by
  have hany : s.unread.any Unread.res = true := List.any_eq_true.mpr ⟨p, hp, hres⟩
  have hoff : regAt off = .res ⟨(off - 0x60) / 8, by omega⟩ := by
    rw [← regAt_res]
    exact congrArg regAt (by dsimp only; omega)
  simp [hoff, State.unreadRegister, hany, hi]

/-- Duty H6 for a byte of a buffer that an unread command writes. -/
theorem State.unreadBytes_of_writes {s : State} {p : Unread} {i : Instr} {addr width j : Nat} (hp : p ∈ s.unread)
    (hi : decode s.config p.cmd = some i) (hc : commandCheck i (s.startedAs p) = none) (hj : j < width)
    (hw : writes i (s.startedAs p) (addr + j) = true)
    (hr : ∀ b ∈ p.rewritten, ¬ (b.1 ≤ addr + j ∧ addr + j < b.1 + b.2)) : s.unreadBytes addr width = true := by
  have hover : p.overwritten (addr + j) = false := List.any_eq_false.mpr fun b hb => by simpa using hr b hb
  exact (s.unreadBytes_iff addr width).mpr ⟨j, hj, p, hp, hover, i, hi, hc, hw⟩

/-- An access refused on the state the host's turn hands it is a step refused; WAIT is never. -/
theorem step_of_perform_refused {s : State} {a : HostAction} {rest : List HostAction} {r : Refusal}
    (ht : s.engineTurn = false) (hh : s.host = a :: rest)
    (h : ({ s with host := rest, delay := s.delay - 1 } : State).perform a = .refused r) : step s = .refused r := by
  have hw : a ≠ .waitDone := by
    rintro rfl
    cases h
  rw [step_hostAccess ht hh hw, h]

/-- Settles O51: H1 is the register block's test, H2 and H3 are the host port's, and H6 is tested only where they pass. -/
theorem forbiddenAccessesAreRefused : Obligations.ForbiddenAccessesAreRefused := by
  intro s a rest hh ht
  refine ⟨fun off width hbad ha => ?_, fun addr width hbad ha => ?_, fun addr width hb hok ha => ?_,
    fun p hp hidle => ⟨fun off hres h8 hlo hhi ha => ?_, fun i addr width j hok hi hc hj hw hr ha => ?_⟩⟩ <;>
    refine step_of_perform_refused ht hh ?_
  · rw [← registerAccessOk_iff] at hbad
    exact State.perform_of_not_registerAccessOk hbad ha
  · rw [← portAccessOk_iff] at hbad
    exact State.perform_of_portRefusal (portRefusal_of_not_portAccessOk hbad) ha
  · rw [← portAccessOk_iff] at hok
    exact State.perform_of_portRefusal (portRefusal_of_busy hok hb) ha
  · have hok := (registerAccessOk_iff off 8).mpr ⟨rfl, h8, by omega⟩
    have hunread : ({ s with host := rest, delay := s.delay - 1 } : State).unreadRegister (regAt off) = true :=
      State.unreadRegister_eq_true hp hres hidle h8 hlo hhi
    simp [ha, State.perform, State.hostReadReg, hok, hunread]
  · obtain ⟨hwidth, halign, hsize⟩ := hok
    have hnone : portRefusal { s with host := rest, delay := s.delay - 1 } addr width = none :=
      portRefusal_eq_none hidle hwidth halign hsize
    have hunread := State.unreadBytes_of_writes hp hi hc hj hw hr
    simp [ha, State.perform, State.hostReadMem, hnone, State.unreadBytes_turnTaken, hunread]

end Sys2Proof.Machine
end
